-- ==== Sys2Proof/Word.lean ====
section
/-! DEFINITION. The words of GFSSU: a field element or DMEM byte, a command or register word, a DMEM address, a
register number, a host port offset. Every one is unsigned (spec R10, R11). -/

namespace Sys2Proof

/-- A field element of GF(2^8), or one byte of DMEM (R10, R131). -/
abbrev Byte := BitVec 8

/-- A command word, or a 32-bit host register word (R190, R138). -/
abbrev Word := BitVec 32

/-- A DMEM address, or the content of a configuration register (R54, R66). -/
abbrev Addr := BitVec 20

/-- The 4-bit register field of a command (R197). -/
abbrev RegNum := BitVec 4

/-- A byte offset on the host port (R73, R130). -/
abbrev HostOff := BitVec 21

end Sys2Proof
end

