-- ==== Sys2Proof/Syntax.lean ====
section
/-! DEFINITION. The commands: one constructor per row of spec/opcode_table.json, with the operand fields of R199. -/

namespace Sys2Proof

/-- A command of GFSSU-1 (R199). -/
inductive Instr where
  /-- HALT: end the run (R408). -/
  | halt
  /-- NOP: do nothing (R407). -/
  | nop
  /-- GFADD rd, rs1, rs2 (R248). -/
  | gfadd (rd rs1 rs2 : RegNum)
  /-- GFMUL rd, rs1, rs2 (R249). -/
  | gfmul (rd rs1 rs2 : RegNum)
  /-- GFINV rd, rs1 (R250). -/
  | gfinv (rd rs1 : RegNum)
  /-- GFDIV rd, rs1, rs2 (R251). -/
  | gfdiv (rd rs1 rs2 : RegNum)
  /-- GFLI rd, imm8 (R252). -/
  | gfli (rd : RegNum) (imm8 : Byte)
  /-- GFMOV rd, rs1 (R253). -/
  | gfmov (rd rs1 : RegNum)
  /-- GFLB rd, addr20 (R404). -/
  | gflb (rd : RegNum) (addr20 : Addr)
  /-- GFSB rs, addr20 (R405). -/
  | gfsb (rs : RegNum) (addr20 : Addr)
  /-- SETCFG cfg, imm20 (R406); `cfg` 12 to 15 is ill-formed (R202). -/
  | setcfg (cfg : BitVec 4) (imm20 : Addr)
  /-- PRAND rs1 (R305). -/
  | prand (rs1 : RegNum)
  /-- PEVAL rd, rs1 (R306). -/
  | peval (rd rs1 : RegNum)
  /-- LAGR0 rd (R307). -/
  | lagr0 (rd : RegNum)
  /-- SPLIT (R353). -/
  | split
  /-- JOIN (R357). -/
  | join
deriving DecidableEq, Repr

end Sys2Proof
end

