-- ==== Sys2Proof/WellFormed.lean ====
section
/-! DEFINITION. Which commands have an encoding. The only operand field with reserved values is SETCFG's cfg:
every register number, immediate and address is defined (R197, R198, R202). -/

namespace Sys2Proof

/-- The check, one arm per command (R197, R202). -/
def Instr.wellFormed : Instr → Bool
  | .halt => true
  | .nop => true
  | .gfadd _ _ _ => true
  | .gfmul _ _ _ => true
  | .gfinv _ _ => true
  | .gfdiv _ _ _ => true
  | .gfli _ _ => true
  | .gfmov _ _ => true
  | .gflb _ _ => true
  | .gfsb _ _ => true
  | .setcfg cfg _ => cfg.toNat < 12
  | .prand _ => true
  | .peval _ _ => true
  | .lagr0 _ => true
  | .split => true
  | .join => true

/-- A command with an encoding. -/
abbrev WellFormed (i : Instr) : Prop := i.wellFormed = true

end Sys2Proof
end

