-- ==== Sys2Proof/Decode.lean ====
section
/-! DEFINITION. Decoding a command word (R190-R202), total, rejecting by name; then the encoder. -/

namespace Sys2Proof

/-- Why a word is no command. Each is an ILLEGAL error when the word is fetched (R200, R201, R202). -/
inductive Reject where
  /-- The opcode is not in R199's map. -/
  | undefinedOpcode
  /-- A bit the format requires to be 0 is 1. -/
  | mustBeZero
  /-- SETCFG with cfg 12 to 15. -/
  | reservedCfg
deriving DecidableEq, Repr

/-- The bit field `w[lo + n - 1 : lo]` (R10). -/
def bits (w : Word) (lo n : Nat) : BitVec n := w.extractLsb' lo n

/-- The opcode, word[31:24] (R191). -/
def opcodeOf (w : Word) : Byte := bits w 24 8

/-- The field word[23:20]: rd, r or cfg (R199). -/
def rdOf (w : Word) : RegNum := bits w 20 4

/-- The field word[19:16] (R199). -/
def rs1Of (w : Word) : RegNum := bits w 16 4

/-- The field word[15:12] (R199). -/
def rs2Of (w : Word) : RegNum := bits w 12 4

/-- imm8 = word[7:0] (R198). -/
def imm8Of (w : Word) : Byte := bits w 0 8

/-- addr20 = imm20 = word[19:0] (R198). -/
def imm20Of (w : Word) : Addr := bits w 0 20

/-- One row of R199: the opcode, the mask of the bits that are fixed, what they must equal, and the command with
its fields. -/
structure OpcodeRow where
  opcode  : Byte
  mask    : Word
  pattern : Word
  command : Word → Instr

/-- The opcode map of R199, row by row. -/
def opcodeRows : List OpcodeRow :=
  [ ⟨0x00, 0xFFFFFFFF, 0x00000000, fun _ => .halt⟩,
    ⟨0x01, 0xFFFFFFFF, 0x01000000, fun _ => .nop⟩,
    ⟨0x10, 0xFF000FFF, 0x10000000, fun w => .gfadd (rdOf w) (rs1Of w) (rs2Of w)⟩,
    ⟨0x11, 0xFF000FFF, 0x11000000, fun w => .gfmul (rdOf w) (rs1Of w) (rs2Of w)⟩,
    ⟨0x12, 0xFF00FFFF, 0x12000000, fun w => .gfinv (rdOf w) (rs1Of w)⟩,
    ⟨0x13, 0xFF000FFF, 0x13000000, fun w => .gfdiv (rdOf w) (rs1Of w) (rs2Of w)⟩,
    ⟨0x14, 0xFF0FFF00, 0x14000000, fun w => .gfli (rdOf w) (imm8Of w)⟩,
    ⟨0x15, 0xFF00FFFF, 0x15000000, fun w => .gfmov (rdOf w) (rs1Of w)⟩,
    ⟨0x20, 0xFF000000, 0x20000000, fun w => .gflb (rdOf w) (imm20Of w)⟩,
    ⟨0x21, 0xFF000000, 0x21000000, fun w => .gfsb (rdOf w) (imm20Of w)⟩,
    ⟨0x30, 0xFF000000, 0x30000000, fun w => .setcfg (rdOf w) (imm20Of w)⟩,
    ⟨0x40, 0xFFF0FFFF, 0x40000000, fun w => .prand (rs1Of w)⟩,
    ⟨0x41, 0xFF00FFFF, 0x41000000, fun w => .peval (rdOf w) (rs1Of w)⟩,
    ⟨0x42, 0xFF0FFFFF, 0x42000000, fun w => .lagr0 (rdOf w)⟩,
    ⟨0x50, 0xFFFFFFFF, 0x50000000, fun _ => .split⟩,
    ⟨0x51, 0xFFFFFFFF, 0x51000000, fun _ => .join⟩ ]

/-- Decoding, in the order of R200: the opcode, then the fixed bits, then SETCFG's cfg. -/
def decode (w : Word) : Except Reject Instr :=
  match opcodeRows.find? (fun r => r.opcode == opcodeOf w) with
  | none => .error .undefinedOpcode
  | some r =>
    if w &&& r.mask ≠ r.pattern then .error .mustBeZero
    else if WellFormed (r.command w) then .ok (r.command w)
    else .error .reservedCfg

/-- The little-endian word of four bytes, lowest address first (R133). -/
def wordOfBytes (b0 b1 b2 b3 : Byte) : Word :=
  b0.setWidth 32 ||| b1.setWidth 32 <<< 8 ||| b2.setWidth 32 <<< 16 ||| b3.setWidth 32 <<< 24

/-- Byte `j` of a word in little-endian order: bits [8j+7 : 8j] (R133). -/
def byteOfWord (w : Word) (j : Nat) : Byte := bits w (8 * j) 8

/-- Decoding four bytes of DMEM, lowest address first (R133, R190). -/
def decodeBytes (b0 b1 b2 b3 : Byte) : Except Reject Instr := decode (wordOfBytes b0 b1 b2 b3)

/-- The decoder on a table word: the low `nbits` bits of `w`, laid out as DMEM stores them, lowest byte first. -/
def decodeTableWord (nbits w : Nat) : Option Instr :=
  let word : Word := BitVec.ofNat 32 (w % 2 ^ nbits)
  match decodeBytes (byteOfWord word 0) (byteOfWord word 1) (byteOfWord word 2) (byteOfWord word 3) with
  | .ok i => some i
  | .error _ => none

/-- A field placed with its lowest bit at bit `lo` of the word. -/
def fieldAt {n : Nat} (v : BitVec n) (lo : Nat) : Word := v.setWidth 32 <<< lo

/-- The word of a command, from the formats of R192-R196 and the opcodes of R199. -/
def encode : Instr → Word
  | .halt => fieldAt 0x00#8 24
  | .nop => fieldAt 0x01#8 24
  | .gfadd rd rs1 rs2 => fieldAt 0x10#8 24 ||| fieldAt rd 20 ||| fieldAt rs1 16 ||| fieldAt rs2 12
  | .gfmul rd rs1 rs2 => fieldAt 0x11#8 24 ||| fieldAt rd 20 ||| fieldAt rs1 16 ||| fieldAt rs2 12
  | .gfinv rd rs1 => fieldAt 0x12#8 24 ||| fieldAt rd 20 ||| fieldAt rs1 16
  | .gfdiv rd rs1 rs2 => fieldAt 0x13#8 24 ||| fieldAt rd 20 ||| fieldAt rs1 16 ||| fieldAt rs2 12
  | .gfli rd imm8 => fieldAt 0x14#8 24 ||| fieldAt rd 20 ||| fieldAt imm8 0
  | .gfmov rd rs1 => fieldAt 0x15#8 24 ||| fieldAt rd 20 ||| fieldAt rs1 16
  | .gflb rd addr20 => fieldAt 0x20#8 24 ||| fieldAt rd 20 ||| fieldAt addr20 0
  | .gfsb rs addr20 => fieldAt 0x21#8 24 ||| fieldAt rs 20 ||| fieldAt addr20 0
  | .setcfg cfg imm20 => fieldAt 0x30#8 24 ||| fieldAt cfg 20 ||| fieldAt imm20 0
  | .prand rs1 => fieldAt 0x40#8 24 ||| fieldAt rs1 16
  | .peval rd rs1 => fieldAt 0x41#8 24 ||| fieldAt rd 20 ||| fieldAt rs1 16
  | .lagr0 rd => fieldAt 0x42#8 24 ||| fieldAt rd 20
  | .split => fieldAt 0x50#8 24
  | .join => fieldAt 0x51#8 24

end Sys2Proof
end

