-- ==== Sys2Proof/Config.lean ====
section
/-! DEFINITION. What one GFSSU fixes: its two open parameters (R8, R9), the constants of R8 and R63, and the free
values: a DMEM byte that nothing has written since power-up (93 U1), and rng_ready in a wait (R413). -/

namespace Sys2Proof

/-- The two open parameters (R8, R9). They stand in State, so a statement about every state is a statement about
every parameter value. -/
structure Params where
  dmemSize     : Nat
  maxSecretLen : Nat
deriving DecidableEq, Repr

/-- The parameters' default values (R8). -/
def Params.default : Params := { dmemSize := 0x80000, maxSecretLen := 1024 }

/-- The legal values of R8: DMEM_SIZE a multiple of 4 in 0x40000 .. 0x100000, MAX_SECRET_LEN in 1024 .. 0xFFFFF. -/
abbrev Params.Legal (p : Params) : Prop :=
  p.dmemSize % 4 = 0 ∧ 0x40000 ≤ p.dmemSize ∧ p.dmemSize ≤ 0x100000 ∧
  1024 ≤ p.maxSecretLen ∧ p.maxSecretLen ≤ 0xFFFFF

/-- MAX_SHARES (R8). -/
def Config.maxShares : Nat := 255

/-- MAX_POLY_LEN (R8). -/
def Config.maxPolyLen : Nat := 256

/-- MAX_POINTS (R8). -/
def Config.maxPoints : Nat := 256

/-- The ID register (R63). -/
def Config.idWord : Word := 0x47465353#32

/-- The VERSION register (R63). -/
def Config.versionWord : Word := 0x00010000#32

/-- FREE VALUE. The byte DMEM holds at an address nothing has written since power-up (R74, R515, 93 U1): one
unknown byte per power-up and address. No body: nothing can be proved of it. Log entry 5. -/
opaque Config.powerUpByte : (powerUp : Nat) → (addr : Nat) → Byte

/-- FREE VALUE, DESIGN CHOICE. Whether rng_ready is asserted while a command waits in entropy_byte() with rng_valid = 0,
which R413 leaves open: one unknown bit per wait, named by CMDRET and the number of bytes the command has been offered.
No body: nothing can be proved of it. Log entry 18. -/
opaque Config.rngReadyWaiting : (cmdret : Word) → (offered : Nat) → Bool

end Sys2Proof
end

