-- ==== Sys2Proof/Machine/State.lean ====
section
/-! DEFINITION. The state of one GFSSU (R50, R72-R74) as plain data, the outside's moves, the reasons a step can
stop, and the state after reset. -/

namespace Sys2Proof.Machine

/-- The reasons a step stops with a fault. No command raises one: an error of a command is a next state (R456). -/
inductive Fault where
  /-- Raised by `step` alone, on a state whose parameters are outside the legal values of R8: no GFSSU-1 has them.
  Safe: the spec describes no machine there, and every legal machine goes on. -/
  | illegalParameters
deriving DecidableEq, Repr

/-- The reasons an instruction has no meaning. -/
inductive Refusal where
  /-- Raised by an arm of `exec` whose instruction has no meaning yet. No arm of this model raises it. Safe: the
  machine stops where the hardware would go on. -/
  | notModelled (mnemonic : String)
deriving DecidableEq, Repr

/-- The engine phase (R72, R400). STATUS.BUSY is 1 exactly in `run` (R59). -/
inductive Phase where
  | idle
  | run
deriving DecidableEq, Repr

/-- The width of a host access (R73). -/
inductive Width where
  | w1
  | w2
  | w4
deriving DecidableEq, Repr

/-- One access on the host port (R73): a byte offset, a width, and for a write the 32 data bits. -/
inductive HostAccess where
  | read (off : HostOff) (width : Width)
  | write (off : HostOff) (width : Width) (data : Word)
deriving DecidableEq, Repr

/-- The response to a host access (R143): OK or ERROR, and the read data (0 for a write or an ERROR). -/
structure HostResp where
  ok   : Bool
  data : Word
deriving DecidableEq, Repr

/-- One move of the machine and its surroundings (log entry 2). `cut` is a free value: how many of the accesses of
the command in flight have happened when a reset abandons it (R510, R511, 93 U4; log entry 7). -/
inductive Turn where
  /-- The command engine moves. -/
  | engine
  /-- The host makes one access (R144). `cut` matters only if it is a soft reset while BUSY = 1. -/
  | host (access : HostAccess) (cut : Nat)
  /-- rst_n is asserted and released (R510). -/
  | reset (cut : Nat)
  /-- The entropy source gets one more byte ready (R413). -/
  | entropy (b : Byte)
deriving DecidableEq, Repr

/-- DMEM (R131). `cells` lists the bytes written since power-up, addresses strictly rising; an address not listed
holds no written value, and reads as the free byte of this `powerUp` (93 U1; log entry 5). -/
structure Dmem where
  powerUp : Nat
  cells   : List Host.Cell
deriving DecidableEq, Repr

/-- The canonical form: addresses strictly rising (so no address is listed twice). No entry can equal what an
unlisted address holds, which is no written value. -/
abbrev Dmem.wf (d : Dmem) : Prop := d.cells.Pairwise (fun p q => p.1 < q.1)

/-- The state of one GFSSU (R50). -/
structure State where
  /-- F0..F15 (R51). -/
  f : Vector Byte 16
  /-- CPC; bits [1:0] are hardwired 0 (R54). -/
  cpc : Addr
  /-- CTRL.IE (R56). -/
  ie : Bool
  /-- The engine phase; STATUS.BUSY (R59, R72). -/
  phase : Phase
  /-- STATUS.DONE (R59). -/
  done : Bool
  /-- STATUS.ERRV (R59). -/
  errv : Bool
  /-- STATUS.ERRCODE (R59, R451). -/
  errCode : BitVec 4
  /-- ERR_CPC (R61). -/
  errCpc : Addr
  /-- ERR_INFO (R62). -/
  errInfo : Word
  /-- CMDRET (R65). -/
  cmdret : Word
  /-- CFG[0..11] (R66). -/
  cfg : Vector Addr 12
  /-- DMEM (R131). -/
  dmem : Dmem
  /-- DMEM_SIZE and MAX_SECRET_LEN, reported by DMEMSZ and MAXLEN (R64). -/
  params : Params
  /-- The model's own: the bytes the entropy source will still deliver, in order (R413; log entry 3). -/
  entropy : List Byte
  /-- The model's own: the outside's next moves, and where the engine moves between them (log entry 2). -/
  turns : List Turn
  /-- The model's own: the response to the last host access (R73, R143; log entry 10). -/
  hostResp : Option HostResp
deriving DecidableEq, Repr

/-- The state after power-up and hardware reset (R74). DMEM lists nothing: its bytes are free (U1). -/
def State.reset : State where
  f := Vector.replicate 16 0
  cpc := 0
  ie := false
  phase := .idle
  done := false
  errv := false
  errCode := 0
  errCpc := 0
  errInfo := 0
  cmdret := 0
  cfg := Vector.replicate 12 0
  dmem := { powerUp := 0, cells := [] }
  params := Params.default
  entropy := []
  turns := []
  hostResp := none

end Sys2Proof.Machine
end

