-- ==== Sys2Proof/Machine/Flags.lean ====
section
/-! DEFINITION. GFSSU has no condition flags, and no command reads or sets one (R69). What it has instead are the
engine's state bits: the STATUS and CTRL words and the interrupt request, each a function of the state. -/

namespace Sys2Proof.Machine

/-- STATUS.BUSY: 1 while the engine phase is RUN (R59). -/
def State.busy (s : State) : Bool := s.phase == .run

/-- A single bit as a 1-bit vector. -/
def bit (b : Bool) : BitVec 1 := BitVec.ofBool b

/-- STATUS: BUSY bit 0, DONE bit 1, ERRV bit 2, ERRCODE bits 11:8, every other bit 0 (R59). -/
def State.statusWord (s : State) : Word :=
  fieldAt (bit s.busy) 0 ||| fieldAt (bit s.done) 1 ||| fieldAt (bit s.errv) 2 ||| fieldAt s.errCode 8

/-- CTRL as read: IE in bit 1; GO, SRST and the reserved bits read 0 (R56). -/
def State.ctrlWord (s : State) : Word := fieldAt (bit s.ie) 1

/-- irq = CTRL.IE and (STATUS.DONE or STATUS.ERRV) (R458). -/
def State.irq (s : State) : Bool := s.ie && (s.done || s.errv)

end Sys2Proof.Machine
end

