-- ==== Sys2Proof/Machine/Field.lean ====
section
/-! DEFINITION. The field functions of R240-R246, and the two equivalent forms of the product that R243 and R244
give. -/

namespace Sys2Proof.Machine

/-- Field addition, also subtraction (R240). -/
def gadd (a b : Byte) : Byte := a ^^^ b

/-- Multiplication by x: the bit tested is bit 7 before the shift (R241). -/
def xtime (a : Byte) : Byte := if a.getLsbD 7 then (a <<< 1) ^^^ 0x1B#8 else a <<< 1

/-- The loop of R242 over the bits `i, i + 1, ...` of `b`, `n` of them; `a` is doubled each time, `r` accumulates. -/
def gmulLoop (b : Byte) : (n i : Nat) → (a r : Byte) → Byte
  | 0, _, _, r => r
  | n + 1, i, a, r => gmulLoop b n (i + 1) (xtime a) (if b.getLsbD i then r ^^^ a else r)

/-- Field multiplication (R242). -/
def gmul (a b : Byte) : Byte := gmulLoop b 8 0 a 0

/-- The field power `a^n`: `a` multiplied by itself (R70). -/
def gpow (a : Byte) : Nat → Byte
  | 0 => 1
  | n + 1 => gmul (gpow a n) a

/-- INV_ROM[a] = a^254 (R70, R245), by squaring: 254 = 2 + 4 + 8 + 16 + 32 + 64 + 128. INV_ROM[0] = 0. -/
def invRom (a : Byte) : Byte :=
  let a2 := gmul a a
  let a4 := gmul a2 a2
  let a8 := gmul a4 a4
  let a16 := gmul a8 a8
  let a32 := gmul a16 a16
  let a64 := gmul a32 a32
  let a128 := gmul a64 a64
  gmul a128 (gmul a64 (gmul a32 (gmul a16 (gmul a8 (gmul a4 a2)))))

/-- ginv(a): fails on 0, else the ROM's entry (R245). -/
def ginv (a : Byte) : Option Byte := if a = 0 then none else some (invRom a)

/-- gdiv(a, b) = gmul(a, ginv(b)): fails exactly on b = 0 (R246). -/
def gdiv (a b : Byte) : Option Byte := (ginv b).map (gmul a)

/-! ### Equivalent forms of the product (R243, R244) -/

/-- The carry-less product of `a` and the `n` low bits of `b`, as polynomials over GF(2) (R243). -/
def clmul (a b : Byte) : (n : Nat) → BitVec 16
  | 0 => 0
  | n + 1 => if b.getLsbD n then clmul a b n ^^^ (a.setWidth 16 <<< n) else clmul a b n

/-- Reduction modulo 0x11B: the coefficients of degree `n + 7` down to 8 are cleared one by one (R243). -/
def reduce11B : (n : Nat) → BitVec 16 → BitVec 16
  | 0, p => p
  | n + 1, p => reduce11B n (if p.getLsbD (n + 8) then p ^^^ (0x11B#16 <<< n) else p)

/-- The product of R243: the carry-less product (degree at most 14) reduced modulo x^8 + x^4 + x^3 + x + 1. -/
def gmulPolynomial (a b : Byte) : Byte := (reduce11B 7 (clmul a b 8)).setWidth 8

/-- The AND terms of each product bit, R244's table: row `n` lists the pairs (j, k) with `a[j] and b[k]` in c[n]. -/
def andTerms : List (List (Nat × Nat)) :=
  [[(0, 0), (1, 7), (2, 6), (3, 5), (4, 4), (5, 3), (5, 7), (6, 2), (6, 6), (6, 7), (7, 1), (7, 5), (7, 6)],
   [(0, 1), (1, 0), (1, 7), (2, 6), (2, 7), (3, 5), (3, 6), (4, 4), (4, 5), (5, 3), (5, 4), (5, 7), (6, 2),
    (6, 3), (6, 6), (7, 1), (7, 2), (7, 5), (7, 7)],
   [(0, 2), (1, 1), (2, 0), (2, 7), (3, 6), (3, 7), (4, 5), (4, 6), (5, 4), (5, 5), (6, 3), (6, 4), (6, 7),
    (7, 2), (7, 3), (7, 6)],
   [(0, 3), (1, 2), (1, 7), (2, 1), (2, 6), (3, 0), (3, 5), (3, 7), (4, 4), (4, 6), (4, 7), (5, 3), (5, 5),
    (5, 6), (5, 7), (6, 2), (6, 4), (6, 5), (6, 6), (6, 7), (7, 1), (7, 3), (7, 4), (7, 5), (7, 6), (7, 7)],
   [(0, 4), (1, 3), (1, 7), (2, 2), (2, 6), (2, 7), (3, 1), (3, 5), (3, 6), (4, 0), (4, 4), (4, 5), (4, 7),
    (5, 3), (5, 4), (5, 6), (6, 2), (6, 3), (6, 5), (7, 1), (7, 2), (7, 4), (7, 7)],
   [(0, 5), (1, 4), (2, 3), (2, 7), (3, 2), (3, 6), (3, 7), (4, 1), (4, 5), (4, 6), (5, 0), (5, 4), (5, 5),
    (5, 7), (6, 3), (6, 4), (6, 6), (7, 2), (7, 3), (7, 5)],
   [(0, 6), (1, 5), (2, 4), (3, 3), (3, 7), (4, 2), (4, 6), (4, 7), (5, 1), (5, 5), (5, 6), (6, 0), (6, 4),
    (6, 5), (6, 7), (7, 3), (7, 4), (7, 6)],
   [(0, 7), (1, 6), (2, 5), (3, 4), (4, 3), (4, 7), (5, 2), (5, 6), (5, 7), (6, 1), (6, 5), (6, 6), (7, 0),
    (7, 4), (7, 5), (7, 7)]]

/-- The XOR of the AND terms of one product bit (R244). -/
def xorTerms (a b : Byte) (terms : List (Nat × Nat)) : Bool :=
  terms.foldl (fun acc jk => Bool.xor acc (a.getLsbD jk.1 && b.getLsbD jk.2)) false

/-- The bit-parallel product of R244. -/
def gmulParallel (a b : Byte) : Byte := (BitVec.ofBoolListLE (andTerms.map (xorTerms a b))).setWidth 8

/-- The contents of INV_ROM, R255's table, entry 0 first. -/
def invTable : List Byte :=
  [0x00, 0x01, 0x8D, 0xF6, 0xCB, 0x52, 0x7B, 0xD1, 0xE8, 0x4F, 0x29, 0xC0, 0xB0, 0xE1, 0xE5, 0xC7,
   0x74, 0xB4, 0xAA, 0x4B, 0x99, 0x2B, 0x60, 0x5F, 0x58, 0x3F, 0xFD, 0xCC, 0xFF, 0x40, 0xEE, 0xB2,
   0x3A, 0x6E, 0x5A, 0xF1, 0x55, 0x4D, 0xA8, 0xC9, 0xC1, 0x0A, 0x98, 0x15, 0x30, 0x44, 0xA2, 0xC2,
   0x2C, 0x45, 0x92, 0x6C, 0xF3, 0x39, 0x66, 0x42, 0xF2, 0x35, 0x20, 0x6F, 0x77, 0xBB, 0x59, 0x19,
   0x1D, 0xFE, 0x37, 0x67, 0x2D, 0x31, 0xF5, 0x69, 0xA7, 0x64, 0xAB, 0x13, 0x54, 0x25, 0xE9, 0x09,
   0xED, 0x5C, 0x05, 0xCA, 0x4C, 0x24, 0x87, 0xBF, 0x18, 0x3E, 0x22, 0xF0, 0x51, 0xEC, 0x61, 0x17,
   0x16, 0x5E, 0xAF, 0xD3, 0x49, 0xA6, 0x36, 0x43, 0xF4, 0x47, 0x91, 0xDF, 0x33, 0x93, 0x21, 0x3B,
   0x79, 0xB7, 0x97, 0x85, 0x10, 0xB5, 0xBA, 0x3C, 0xB6, 0x70, 0xD0, 0x06, 0xA1, 0xFA, 0x81, 0x82,
   0x83, 0x7E, 0x7F, 0x80, 0x96, 0x73, 0xBE, 0x56, 0x9B, 0x9E, 0x95, 0xD9, 0xF7, 0x02, 0xB9, 0xA4,
   0xDE, 0x6A, 0x32, 0x6D, 0xD8, 0x8A, 0x84, 0x72, 0x2A, 0x14, 0x9F, 0x88, 0xF9, 0xDC, 0x89, 0x9A,
   0xFB, 0x7C, 0x2E, 0xC3, 0x8F, 0xB8, 0x65, 0x48, 0x26, 0xC8, 0x12, 0x4A, 0xCE, 0xE7, 0xD2, 0x62,
   0x0C, 0xE0, 0x1F, 0xEF, 0x11, 0x75, 0x78, 0x71, 0xA5, 0x8E, 0x76, 0x3D, 0xBD, 0xBC, 0x86, 0x57,
   0x0B, 0x28, 0x2F, 0xA3, 0xDA, 0xD4, 0xE4, 0x0F, 0xA9, 0x27, 0x53, 0x04, 0x1B, 0xFC, 0xAC, 0xE6,
   0x7A, 0x07, 0xAE, 0x63, 0xC5, 0xDB, 0xE2, 0xEA, 0x94, 0x8B, 0xC4, 0xD5, 0x9D, 0xF8, 0x90, 0x6B,
   0xB1, 0x0D, 0xD6, 0xEB, 0xC6, 0x0E, 0xCF, 0xAD, 0x08, 0x4E, 0xD7, 0xE3, 0x5D, 0x50, 0x1E, 0xB3,
   0x5B, 0x23, 0x38, 0x34, 0x68, 0x46, 0x03, 0x8C, 0xDD, 0x9C, 0x7D, 0xA0, 0xCD, 0x1A, 0x41, 0x1C]

end Sys2Proof.Machine
end

