-- ==== Sys2Proof/Machine/Operands.lean ====
section
/-! DEFINITION. Every operand a command names: field registers (R51, R197) and configuration registers (R66-R68), each
read and written in one place. -/

namespace Sys2Proof.Machine

/-- Reading field register F[r] (R13, R51). -/
def State.readF (s : State) (r : RegNum) : Byte := s.f[r.toNat]'r.isLt

/-- Writing field register F[r] (R13, R51). -/
def State.writeF (s : State) (r : RegNum) (v : Byte) : State := { s with f := s.f.set r.toNat v r.isLt }

/-- A configuration register index, 0 to 11 (R66). -/
abbrev CfgReg := Fin 12

abbrev CfgReg.secretBase : CfgReg := 0
abbrev CfgReg.secretLen : CfgReg := 1
abbrev CfgReg.shareBase : CfgReg := 2
abbrev CfgReg.shareN : CfgReg := 3
abbrev CfgReg.shareK : CfgReg := 4
abbrev CfgReg.polyBase : CfgReg := 5
abbrev CfgReg.polyLen : CfgReg := 6
abbrev CfgReg.xsBase : CfgReg := 7
abbrev CfgReg.ysBase : CfgReg := 8
abbrev CfgReg.ptCount : CfgReg := 9
abbrev CfgReg.rngPtr : CfgReg := 10
abbrev CfgReg.mode : CfgReg := 11

/-- What a configuration register keeps of a value: MODE only bits [2:0], its bits [19:3] reading 0 and ignored when
written (R68); the others all 20 bits (R67, 93 V3). -/
def cfgKept (c : CfgReg) (v : Addr) : Addr := if c = CfgReg.mode then v &&& 0x7#20 else v

/-- Reading a configuration register (R13, R66). -/
def State.readCfg (s : State) (c : CfgReg) : Addr := cfgKept c (s.cfg[c.val]'c.isLt)

/-- Writing a configuration register, by SETCFG or by the host (R66-R68, R406). No range check is made (R66). -/
def State.writeCfg (s : State) (c : CfgReg) (v : Addr) : State :=
  { s with cfg := s.cfg.set c.val (cfgKept c v) c.isLt }

/-- A configuration register as a natural number: an address or a count (R11, R410). -/
def State.cfgNat (s : State) (c : CfgReg) : Nat := (s.readCfg c).toNat

/-- MODE.XMODE, bits [1:0] (R68). -/
def State.xmode (s : State) : BitVec 2 := (s.readCfg CfgReg.mode).extractLsb' 0 2

/-- MODE.RNGSRC, bit 2: true when random bytes come from DMEM at RNG_PTR (R68, R411). -/
def State.rngFromDmem (s : State) : Bool := (s.readCfg CfgReg.mode).getLsbD 2

end Sys2Proof.Machine
end

