-- ==== Sys2Proof/Machine/Ops.lean ====
section
/-! DEFINITION. The shared operations: DMEM, the errors and what raising one does, retirement, GO, the region check,
and the accesses a command makes one after another (draws and writes). -/

namespace Sys2Proof.Machine

/-! ### DMEM -/

/-- The byte a cell list holds at an address; none where nothing is listed. -/
def findCell : List Host.Cell → Nat → Option Byte
  | [], _ => none
  | (k, v) :: rest, a => if k = a then some v else findCell rest a

/-- A cell list with one address set, kept in rising order. -/
def putCell : List Host.Cell → Nat → Byte → List Host.Cell
  | [], a, b => [(a, b)]
  | (k, v) :: rest, a, b =>
    if a < k then (a, b) :: (k, v) :: rest
    else if a = k then (a, b) :: rest
    else (k, v) :: putCell rest a b

/-- DMEM[a] (R13). A byte nothing has written since power-up is the free byte of its address (R515, 93 U1). -/
def Dmem.read (d : Dmem) (a : Nat) : Byte :=
  match findCell d.cells a with
  | some b => b
  | none => Config.powerUpByte d.powerUp a

/-- DMEM[a] <- b (R13). -/
def Dmem.write (d : Dmem) (a : Nat) (b : Byte) : Dmem := { d with cells := putCell d.cells a b }

/-- MemRead(a, 4): the little-endian word at `a` (R13, R133). -/
def Dmem.readWord (d : Dmem) (a : Nat) : Word :=
  wordOfBytes (d.read a) (d.read (a + 1)) (d.read (a + 2)) (d.read (a + 3))

/-- The `n` bytes at `base`, `base + stride`, ... in rising order. -/
def Dmem.readStrided (d : Dmem) (base stride n : Nat) : List Byte :=
  (List.range n).map (fun i => d.read (base + i * stride))

/-- The `n` bytes at `base .. base + n - 1`. -/
def Dmem.readList (d : Dmem) (base n : Nat) : List Byte := d.readStrided base 1 n

/-- Writing `w`'s bytes 0 to `n - 1` at `a`, lowest first (R133). -/
def Dmem.writeBytes (d : Dmem) (a : Nat) (w : Word) (n : Nat) : Dmem :=
  (List.range n).foldl (fun d j => d.write (a + j) (byteOfWord w j)) d

/-! ### Errors (R451, R452, R456) -/

/-- Every error of R452, with what its VALUE reports. -/
inductive CmdError where
  /-- DOMAIN/INV_ZERO (R250). -/
  | invZero (rs1 : RegNum)
  /-- DOMAIN/DIV_ZERO (R251). -/
  | divZero (rs2 : RegNum)
  /-- DEGENERATE/DUP_X (R304). -/
  | dupX (index : Nat)
  /-- DEGENERATE/ZERO_X (R304). -/
  | zeroX (index : Nat)
  /-- SHAPE/K_RANGE (R351). -/
  | kRange (k : Nat)
  /-- SHAPE/N_RANGE (R351). -/
  | nRange (n : Nat)
  /-- SHAPE/LEN_RANGE (R351). -/
  | lenRange (l : Nat)
  /-- SHAPE/POLY_RANGE (R305, R306). -/
  | polyRange (lp : Nat)
  /-- SHAPE/PT_RANGE (R307). -/
  | ptRange (p : Nat)
  /-- SHAPE/K_GT_N (R351). -/
  | kGtN (n : Nat)
  /-- ILLEGAL: the fetched word (R200). -/
  | illegal (w : Word)
  /-- ADDRESS/FETCH (R401). -/
  | fetch (cpc : Addr)
  /-- ADDRESS/DATA (R136). -/
  | data (addr : Addr)
  /-- ADDRESS/REGION: max(base, DMEM_SIZE) (R135). -/
  | region (value : Nat)
  /-- ADDRESS/RNG (R412). -/
  | rng (ptr : Addr)
  /-- CONFIG/XMODE_RSVD: MODE (R353). -/
  | xmodeRsvd (mode : Addr)
deriving DecidableEq, Repr

/-- STATUS.ERRCODE of an error (R451). -/
def CmdError.code : CmdError → BitVec 4
  | .invZero _ => 1
  | .divZero _ => 1
  | .dupX _ => 2
  | .zeroX _ => 2
  | .kRange _ => 3
  | .nRange _ => 3
  | .lenRange _ => 3
  | .polyRange _ => 3
  | .ptRange _ => 3
  | .kGtN _ => 3
  | .illegal _ => 4
  | .fetch _ => 5
  | .data _ => 5
  | .region _ => 5
  | .rng _ => 5
  | .xmodeRsvd _ => 6

/-- `{sub[3:0], 0b0000, value[23:0]}` (R62, R456). -/
def errInfoWord (sub : Nat) (value : Nat) : Word :=
  fieldAt (BitVec.ofNat 4 sub) 28 ||| fieldAt (BitVec.ofNat 24 value) 0

/-- ERR_INFO of an error (R452). -/
def CmdError.info : CmdError → Word
  | .invZero rs1 => errInfoWord 0 rs1.toNat
  | .divZero rs2 => errInfoWord 1 rs2.toNat
  | .dupX i => errInfoWord 0 i
  | .zeroX i => errInfoWord 1 i
  | .kRange k => errInfoWord 0 k
  | .nRange n => errInfoWord 1 n
  | .lenRange l => errInfoWord 2 l
  | .polyRange lp => errInfoWord 3 lp
  | .ptRange p => errInfoWord 4 p
  | .kGtN n => errInfoWord 5 n
  | .illegal w => w
  | .fetch cpc => errInfoWord 0 cpc.toNat
  | .data addr => errInfoWord 1 addr.toNat
  | .region v => errInfoWord 2 v
  | .rng ptr => errInfoWord 3 ptr.toNat
  | .xmodeRsvd mode => errInfoWord 0 mode.toNat

/-- `raise Error`: the one way a command ends with an error (R456). CPC, CMDRET and DONE stay. -/
def raise (e : CmdError) (s : State) : State :=
  { s with errCpc := s.cpc, errInfo := e.info, errCode := e.code, errv := true, phase := .idle }

/-- Raising an error as the outcome of a command. -/
def raised (e : CmdError) (s : State) : Host.Outcome State Fault Refusal := .next (raise e s)

/-! ### Retirement and GO -/

/-- Retirement (R55, R65, R402): CPC + 4 mod 2^20, CMDRET + 1 mod 2^32. -/
def retire (s : State) : State := { s with cpc := s.cpc + 4, cmdret := s.cmdret + 1 }

/-- A command that completes without an error: the state it leaves, retired. -/
def retired (s : State) : Host.Outcome State Fault Refusal := .next (retire s)

/-- GO on an idle unit (R57). -/
def go (s : State) : State :=
  { s with done := false, errv := false, errCode := 0, errCpc := 0, errInfo := 0, cmdret := 0, phase := .run }

/-! ### Checks -/

/-- check_region(base, len) (R135): the error it raises, if any. -/
def checkRegion (s : State) (base len : Nat) : Option CmdError :=
  if 0 < len ∧ s.params.dmemSize < base + len then some (.region (max base s.params.dmemSize)) else none

/-- A check that raises `e` when `bad` holds. -/
def check (bad : Bool) (e : CmdError) : Option CmdError := if bad then some e else none

/-- Checks made in order: the first error that applies (R453, R457). -/
def firstError : List (Option CmdError) → Option CmdError
  | [] => none
  | some e :: _ => some e
  | none :: rest => firstError rest

/-! ### A command's accesses, one after another (R14, R150) -/

/-- An access of a command that a reset in flight may leave done or undone: a DMEM write, or a byte taken from the
entropy port (R413, R511). -/
inductive Access where
  | write (addr : Nat) (b : Byte)
  | take
deriving DecidableEq, Repr

/-- Why a command does not retire. -/
inductive Stop where
  /-- It ends with an error (R456). -/
  | error (e : CmdError)
  /-- It waits in entropy_byte() for a byte that is not there (R413, R414). -/
  | waitEntropy
  /-- It draws for ever: SPLIT with XMODE = 2 over a DMEM with too few distinct nonzero bytes (R414, 93 U3). -/
  | drawsForever
deriving DecidableEq, Repr

/-- What a command that draws or writes DMEM works on: DMEM, RNG_PTR, the entropy bytes still to come, and the
accesses made so far, newest first. `size` and `fromDmem` (MODE.RNGSRC) are fixed while it runs. -/
structure Work where
  size     : Nat
  fromDmem : Bool
  dmem     : Dmem
  rngPtr   : Addr
  entropy  : List Byte
  log      : List Access
deriving DecidableEq, Repr

/-- The work of a command that starts in `s`. -/
def Work.ofState (s : State) : Work where
  size := s.params.dmemSize
  fromDmem := s.rngFromDmem
  dmem := s.dmem
  rngPtr := s.readCfg CfgReg.rngPtr
  entropy := s.entropy
  log := []

/-- One DMEM write of a command (R131). -/
def Work.write (w : Work) (a : Nat) (b : Byte) : Work :=
  { w with dmem := w.dmem.write a b, log := .write a b :: w.log }

/-- Writes at `base`, `base + stride`, ... in order. -/
def Work.writeStrided (w : Work) (base stride : Nat) : List Byte → Work
  | [] => w
  | b :: rest => (w.write base b).writeStrided (base + stride) stride rest

/-- draw() (R412, R413): the byte and the work after it, or why there is none. -/
def Work.draw (w : Work) : Except Stop (Byte × Work) :=
  if w.fromDmem then
    if w.size ≤ w.rngPtr.toNat then .error (.error (.rng w.rngPtr))
    else .ok (w.dmem.read w.rngPtr.toNat, { w with rngPtr := w.rngPtr + 1 })
  else
    match w.entropy with
    | [] => .error .waitEntropy
    | b :: rest => .ok (b, { w with entropy := rest, log := .take :: w.log })

/-- Whether a byte has been taken from the entropy port (R413). -/
def Work.tookByte (w : Work) : Bool := w.log.contains .take

/-- `n` draws, the first drawn first (R156); a draw that stops leaves the draws before it made (R455). -/
def Work.drawMany : Nat → Work → Work × Except Stop (List Byte)
  | 0, w => (w, .ok [])
  | n + 1, w =>
    match w.draw with
    | .error e => (w, .error e)
    | .ok (b, w1) =>
      match Work.drawMany n w1 with
      | (w2, .ok bs) => (w2, .ok (b :: bs))
      | (w2, .error e) => (w2, .error e)

/-- The state with a command's work put back: DMEM, RNG_PTR and the entropy bytes left. -/
def commit (s : State) (w : Work) : State :=
  { s with dmem := w.dmem, entropy := w.entropy, cfg := s.cfg.set CfgReg.rngPtr.val w.rngPtr }

/-- How a command that worked on DMEM ends: it retires; or it raises its error, what it wrote before standing (R455);
or it is stuck, and the step leaves the state as it is (R414; log entries 4 and 8). -/
def finish (s : State) (r : Work × Except Stop Unit) : Host.Outcome State Fault Refusal :=
  match r.2 with
  | .ok () => retired (commit s r.1)
  | .error (.error e) => raised e (commit s r.1)
  | .error .waitEntropy => .next s
  | .error .drawsForever => .next s

end Sys2Proof.Machine
end

