-- ==== Sys2Proof/Machine/FieldCommands.lean ====
section
/-! DEFINITION. The field commands (R248-R253). Each reads its sources before it writes rd (R52), writes no flag and
touches no DMEM. -/

namespace Sys2Proof.Machine

/-- The end of a command whose only result is field register rd. -/
def writeResult (rd : RegNum) (v : Byte) (s : State) : Host.Outcome State Fault Refusal := retired (s.writeF rd v)

/-- GFADD rd, rs1, rs2 (R248). -/
def execGfadd (rd rs1 rs2 : RegNum) (s : State) : Host.Outcome State Fault Refusal :=
  writeResult rd (gadd (s.readF rs1) (s.readF rs2)) s

/-- GFMUL rd, rs1, rs2 (R249). -/
def execGfmul (rd rs1 rs2 : RegNum) (s : State) : Host.Outcome State Fault Refusal :=
  writeResult rd (gmul (s.readF rs1) (s.readF rs2)) s

/-- GFINV rd, rs1 (R250): DOMAIN/INV_ZERO with VALUE = rs1 when F[rs1] = 0, rd not written. -/
def execGfinv (rd rs1 : RegNum) (s : State) : Host.Outcome State Fault Refusal :=
  match ginv (s.readF rs1) with
  | none => raised (.invZero rs1) s
  | some v => writeResult rd v s

/-- GFDIV rd, rs1, rs2 (R251): DOMAIN/DIV_ZERO with VALUE = rs2 when F[rs2] = 0, whatever F[rs1] holds. -/
def execGfdiv (rd rs1 rs2 : RegNum) (s : State) : Host.Outcome State Fault Refusal :=
  match gdiv (s.readF rs1) (s.readF rs2) with
  | none => raised (.divZero rs2) s
  | some v => writeResult rd v s

/-- GFLI rd, imm8 (R252). -/
def execGfli (rd : RegNum) (imm8 : Byte) (s : State) : Host.Outcome State Fault Refusal := writeResult rd imm8 s

/-- GFMOV rd, rs1 (R253). -/
def execGfmov (rd rs1 : RegNum) (s : State) : Host.Outcome State Fault Refusal := writeResult rd (s.readF rs1) s

end Sys2Proof.Machine
end

