-- ==== Sys2Proof/Machine/Control.lean ====
section
/-! DEFINITION. Data transfer and control: GFLB (R404), GFSB (R405), SETCFG (R406), NOP (R407), HALT (R408). -/

namespace Sys2Proof.Machine

/-- GFLB rd, addr20 (R136, R404). -/
def execGflb (rd : RegNum) (addr20 : Addr) (s : State) : Host.Outcome State Fault Refusal :=
  if s.params.dmemSize ≤ addr20.toNat then raised (.data addr20) s
  else writeResult rd (s.dmem.read addr20.toNat) s

/-- GFSB's work: one byte written (R405). -/
def gfsbRun (rs : RegNum) (addr20 : Addr) (s : State) : Work × Except Stop Unit :=
  let w := Work.ofState s
  if s.params.dmemSize ≤ addr20.toNat then (w, .error (.error (.data addr20)))
  else (w.write addr20.toNat (s.readF rs), .ok ())

/-- GFSB rs, addr20 (R136, R405). -/
def execGfsb (rs : RegNum) (addr20 : Addr) (s : State) : Host.Outcome State Fault Refusal :=
  finish s (gfsbRun rs addr20 s)

/-- SETCFG cfg, imm20 (R406). A cfg of 12 to 15 has no encoding that decodes; as a term it is the ILLEGAL word it
would be (R202; log entry 11). -/
def execSetcfg (cfg : BitVec 4) (imm20 : Addr) (s : State) : Host.Outcome State Fault Refusal :=
  if h : cfg.toNat < 12 then retired (s.writeCfg ⟨cfg.toNat, h⟩ imm20)
  else raised (.illegal (encode (.setcfg cfg imm20))) s

/-- NOP (R407). -/
def execNop (s : State) : Host.Outcome State Fault Refusal := retired s

/-- HALT (R408): retire, DONE <- 1, BUSY <- 0. -/
def execHalt (s : State) : Host.Outcome State Fault Refusal :=
  .next { retire s with done := true, phase := .idle }

end Sys2Proof.Machine
end

