-- ==== Sys2Proof/Machine/Poly.lean ====
section
/-! DEFINITION. The polynomial functions that the polynomial engine and the sequencers share: Horner evaluation (R301),
Lagrange interpolation at zero (R303) and point validation (R304). -/

namespace Sys2Proof.Machine

/-- Horner evaluation, coefficient 0 first in the list, folded from the highest degree down (R301). -/
def peval (c : List Byte) (x : Byte) : Byte := c.foldr (fun ci r => gadd (gmul r x) ci) 0

/-- The inner loop of R303 for point `j` at `xj`, over the x-coordinates from index `m` on. -/
def lagrangeTerm (xj : Byte) (j : Nat) : (m : Nat) → List Byte → (term : Byte) → Byte
  | _, [], term => term
  | m, xm :: rest, term =>
    lagrangeTerm xj j (m + 1) rest (if m = j then term else gmul term (gmul xm (invRom (xm ^^^ xj))))

/-- The outer loop of R303, over the points from index `j` on; `xs` are all x-coordinates. -/
def lagrangeSum (xs : List Byte) : (j : Nat) → List (Byte × Byte) → (acc : Byte) → Byte
  | _, [], acc => acc
  | j, (xj, yj) :: rest, acc => lagrangeSum xs (j + 1) rest (gadd acc (lagrangeTerm xj j 0 xs yj))

/-- Lagrange interpolation at x = 0 (R303). -/
def lagrange0 (xs ys : List Byte) : Byte := lagrangeSum xs 0 (xs.zip ys) 0

/-- The loop of check_points (R304) from index `i` on; `seen` are the x-coordinates before it. -/
def checkPointsFrom (requireNonzero : Bool) (seen : List Byte) : List Byte → (i : Nat) → Option CmdError
  | [], _ => none
  | x :: rest, i =>
    if requireNonzero = true ∧ x = 0 then some (.zeroX i)
    else if x ∈ seen then some (.dupX i)
    else checkPointsFrom requireNonzero (x :: seen) rest (i + 1)

/-- check_points (R304): the error it raises, at the smallest failing index. -/
def checkPoints (requireNonzero : Bool) (xs : List Byte) : Option CmdError :=
  checkPointsFrom requireNonzero [] xs 0

end Sys2Proof.Machine
end

