-- ==== Sys2Proof/Machine/PolyCommands.lean ====
section
/-! DEFINITION. The polynomial engine's commands: PRAND (R305), PEVAL (R306), LAGR0 (R307). -/

namespace Sys2Proof.Machine

/-- The checks PRAND and PEVAL make, in order (R305, R306): POLY_LEN in 1..256, then the polynomial's region. -/
def polyChecks (s : State) : Option CmdError :=
  let lp := s.cfgNat CfgReg.polyLen
  firstError
    [check (lp < 1 || Config.maxPolyLen < lp) (.polyRange lp),
     checkRegion s (s.cfgNat CfgReg.polyBase) lp]

/-- PRAND's loop (R305): `n` coefficients drawn and written from address `a` on. -/
def drawInto : (n : Nat) → Work → (a : Nat) → Work × Except Stop Unit
  | 0, w, _ => (w, .ok ())
  | n + 1, w, a =>
    match w.draw with
    | .error e => (w, .error e)
    | .ok (b, w1) => drawInto n (w1.write a b) (a + 1)

/-- PRAND's work (R305): the constant term, then a draw for each higher coefficient. -/
def prandRun (rs1 : RegNum) (s : State) : Work × Except Stop Unit :=
  let w := Work.ofState s
  match polyChecks s with
  | some e => (w, .error (.error e))
  | none =>
    let pb := s.cfgNat CfgReg.polyBase
    drawInto (s.cfgNat CfgReg.polyLen - 1) (w.write pb (s.readF rs1)) (pb + 1)

/-- PRAND rs1 (R305). -/
def execPrand (rs1 : RegNum) (s : State) : Host.Outcome State Fault Refusal := finish s (prandRun rs1 s)

/-- PEVAL rd, rs1 (R306): x is read before rd is written (R52). -/
def execPeval (rd rs1 : RegNum) (s : State) : Host.Outcome State Fault Refusal :=
  match polyChecks s with
  | some e => raised e s
  | none =>
    let c := s.dmem.readList (s.cfgNat CfgReg.polyBase) (s.cfgNat CfgReg.polyLen)
    writeResult rd (peval c (s.readF rs1)) s

/-- LAGR0's checks before it reads the points, in order (R307): PT_COUNT in 1..256, the x array, the y array. -/
def lagr0Checks (s : State) : Option CmdError :=
  let p := s.cfgNat CfgReg.ptCount
  firstError
    [check (p < 1 || Config.maxPoints < p) (.ptRange p),
     checkRegion s (s.cfgNat CfgReg.xsBase) p,
     checkRegion s (s.cfgNat CfgReg.ysBase) p]

/-- LAGR0 rd (R307): duplicates are an error, a zero x-coordinate is not. -/
def execLagr0 (rd : RegNum) (s : State) : Host.Outcome State Fault Refusal :=
  match lagr0Checks s with
  | some e => raised e s
  | none =>
    let p := s.cfgNat CfgReg.ptCount
    let xs := s.dmem.readList (s.cfgNat CfgReg.xsBase) p
    let ys := s.dmem.readList (s.cfgNat CfgReg.ysBase) p
    match checkPoints false xs with
    | some e => raised e s
    | none => writeResult rd (lagrange0 xs ys) s

end Sys2Proof.Machine
end

