-- ==== Sys2Proof/Machine/Sequencers.lean ====
section
/-! DEFINITION. The share splitter and joiner: SPLIT (R350-R353) and JOIN (R355, R357). -/

namespace Sys2Proof.Machine

/-- The length of one share, L + 1 (R132, R350). -/
def State.shareStride (s : State) : Nat := s.cfgNat CfgReg.secretLen + 1

/-- check_shape, in order (R351). -/
def shapeChecks (s : State) : List (Option CmdError) :=
  let n := s.cfgNat CfgReg.shareN
  let k := s.cfgNat CfgReg.shareK
  let l := s.cfgNat CfgReg.secretLen
  [check (k < 1 || Config.maxShares < k) (.kRange k),
   check (n < 1 || Config.maxShares < n) (.nRange n),
   check (n < k) (.kGtN n),
   check (s.params.maxSecretLen < l) (.lenRange l)]

/-- The check of the whole share set, N shares of L + 1 bytes (R350). -/
def shareRegionCheck (s : State) : Option CmdError :=
  checkRegion s (s.cfgNat CfgReg.shareBase) (s.cfgNat CfgReg.shareN * s.shareStride)

/-- The check of the secret, L bytes (R350). -/
def secretRegionCheck (s : State) : Option CmdError :=
  checkRegion s (s.cfgNat CfgReg.secretBase) (s.cfgNat CfgReg.secretLen)

/-- SPLIT's checks before it generates x-coordinates, in order (R353). -/
def splitChecks (s : State) : Option CmdError :=
  firstError
    ([check (s.xmode == 3) (.xmodeRsvd (s.readCfg CfgReg.mode))] ++ shapeChecks s ++
     [secretRegionCheck s, shareRegionCheck s,
      if s.xmode = 1 then checkRegion s (s.cfgNat CfgReg.xsBase) (s.cfgNat CfgReg.shareN) else none])

/-- The XMODE = 2 loop of gen_x (R352): draw until `need` more distinct nonzero x-coordinates are found; a zero or a
repeat is consumed and discarded. `fuel` bounds the draws; running out of it is the endless loop of 93 U3 (log
entry 8). -/
def drawDistinct : (fuel : Nat) → Work → (need : Nat) → (xs : List Byte) → Work × Except Stop (List Byte)
  | _, w, 0, xs => (w, .ok xs)
  | 0, w, _ + 1, _ => (w, .error .drawsForever)
  | fuel + 1, w, need + 1, xs =>
    match w.draw with
    | .error e => (w, .error e)
    | .ok (b, w1) =>
      if b = 0 ∨ b ∈ xs then drawDistinct fuel w1 (need + 1) xs
      else drawDistinct fuel w1 need (xs ++ [b])

/-- More draws than any run of gen_x that ends can make: 2^20 draws from DMEM read every address, and the entropy port
stops it when its bytes run out (93 U3; log entry 8). -/
def drawFuel (w : Work) : Nat := 2 ^ 20 + w.entropy.length

/-- x-coordinate generation, gen_x (R352). XMODE = 3 has been refused before (R353). -/
def genX (s : State) (w : Work) : Work × Except Stop (List Byte) :=
  let n := s.cfgNat CfgReg.shareN
  if s.xmode = 0 then (w, .ok ((List.range n).map (fun i => BitVec.ofNat 8 (i + 1))))
  else if s.xmode = 1 then
    let xs := w.dmem.readList (s.cfgNat CfgReg.xsBase) n
    match checkPoints true xs with
    | some e => (w, .error (.error e))
    | none => (w, .ok xs)
  else drawDistinct (drawFuel w) w n []

/-- SPLIT's loop over the secret bytes `j, j + 1, ...`, `n` of them (R353): the byte is the constant term, K - 1
coefficients are drawn, and the polynomial's value at each x goes into that share. -/
def splitBytes (sb hb stride k : Nat) (xs : List Byte) : (n j : Nat) → Work → Work × Except Stop Unit
  | 0, _, w => (w, .ok ())
  | n + 1, j, w =>
    let c0 := w.dmem.read (sb + j)
    match w.drawMany (k - 1) with
    | (w1, .error e) => (w1, .error e)
    | (w1, .ok cs) =>
      splitBytes sb hb stride k xs n (j + 1) (w1.writeStrided (hb + 1 + j) stride (xs.map (peval (c0 :: cs))))

/-- SPLIT's work (R353). -/
def splitRun (s : State) : Work × Except Stop Unit :=
  let w := Work.ofState s
  let hb := s.cfgNat CfgReg.shareBase
  match splitChecks s with
  | some e => (w, .error (.error e))
  | none =>
    match genX s w with
    | (w1, .error e) => (w1, .error e)
    | (w1, .ok xs) =>
      splitBytes (s.cfgNat CfgReg.secretBase) hb s.shareStride (s.cfgNat CfgReg.shareK) xs
        (s.cfgNat CfgReg.secretLen) 0 (w1.writeStrided hb s.shareStride xs)

/-- SPLIT (R353). -/
def execSplit (s : State) : Host.Outcome State Fault Refusal := finish s (splitRun s)

/-- JOIN's checks before it reads the x-coordinates, in order (R357). -/
def joinChecks (s : State) : Option CmdError :=
  firstError (shapeChecks s ++ [shareRegionCheck s, secretRegionCheck s])

/-- JOIN's loop over the secret bytes `j, j + 1, ...`, `n` of them (R357): `xs` are the first K x-coordinates. -/
def joinBytes (sb hb stride : Nat) (xs : List Byte) : (n j : Nat) → Work → Work
  | 0, _, w => w
  | n + 1, j, w =>
    let ys := w.dmem.readStrided (hb + 1 + j) stride xs.length
    joinBytes sb hb stride xs n (j + 1) (w.write (sb + j) (lagrange0 xs ys))

/-- JOIN's work (R355, R357): all N x-coordinates are validated, the first K shares are interpolated. -/
def joinRun (s : State) : Work × Except Stop Unit :=
  let w := Work.ofState s
  let hb := s.cfgNat CfgReg.shareBase
  match joinChecks s with
  | some e => (w, .error (.error e))
  | none =>
    let xs := w.dmem.readStrided hb s.shareStride (s.cfgNat CfgReg.shareN)
    match checkPoints true xs with
    | some e => (w, .error (.error e))
    | none =>
      (joinBytes (s.cfgNat CfgReg.secretBase) hb s.shareStride (xs.take (s.cfgNat CfgReg.shareK))
        (s.cfgNat CfgReg.secretLen) 0 w, .ok ())

/-- JOIN (R357). -/
def execJoin (s : State) : Host.Outcome State Fault Refusal := finish s (joinRun s)

end Sys2Proof.Machine
end

