-- ==== Sys2Proof/Machine/Dispatch.lean ====
section
/-! DEFINITION. Which meaning runs for which command: one arm per constructor of Instr. -/

namespace Sys2Proof.Machine

def exec (i : Instr) (s : State) : Host.Outcome State Fault Refusal :=
  match i with
  | .halt => Sys2Proof.Machine.execHalt s
  | .nop => Sys2Proof.Machine.execNop s
  | .gfadd rd rs1 rs2 => Sys2Proof.Machine.execGfadd rd rs1 rs2 s
  | .gfmul rd rs1 rs2 => Sys2Proof.Machine.execGfmul rd rs1 rs2 s
  | .gfinv rd rs1 => Sys2Proof.Machine.execGfinv rd rs1 s
  | .gfdiv rd rs1 rs2 => Sys2Proof.Machine.execGfdiv rd rs1 rs2 s
  | .gfli rd imm8 => Sys2Proof.Machine.execGfli rd imm8 s
  | .gfmov rd rs1 => Sys2Proof.Machine.execGfmov rd rs1 s
  | .gflb rd addr20 => Sys2Proof.Machine.execGflb rd addr20 s
  | .gfsb rs addr20 => Sys2Proof.Machine.execGfsb rs addr20 s
  | .setcfg cfg imm20 => Sys2Proof.Machine.execSetcfg cfg imm20 s
  | .prand rs1 => Sys2Proof.Machine.execPrand rs1 s
  | .peval rd rs1 => Sys2Proof.Machine.execPeval rd rs1 s
  | .lagr0 rd => Sys2Proof.Machine.execLagr0 rd s
  | .split => Sys2Proof.Machine.execSplit s
  | .join => Sys2Proof.Machine.execJoin s

end Sys2Proof.Machine
end

