-- ==== Sys2Proof/Machine/Fetch.lean ====
section
/-! DEFINITION. The command cycle (R401): fetch, decode, execute; and what the command in flight is doing, which a
reset in flight and rng_ready need. -/

namespace Sys2Proof.Machine

/-- Fetch and decode (R137, R200, R401, R457): the command at CPC, or the ADDRESS/FETCH or ILLEGAL error. -/
def fetchDecode (s : State) : Except CmdError Instr :=
  if s.params.dmemSize < s.cpc.toNat + 4 then .error (.fetch s.cpc)
  else
    match decode (s.dmem.readWord s.cpc.toNat) with
    | .error _ => .error (.illegal (s.dmem.readWord s.cpc.toNat))
    | .ok i => .ok i

/-- One command cycle in phase RUN (R401). -/
def cycle (s : State) : Host.Outcome State Fault Refusal :=
  match fetchDecode s with
  | .error e => raised e s
  | .ok i => exec i s

/-- The engine's move: nothing in IDLE, one command cycle in RUN (R400). -/
def engineStep (s : State) : Host.Outcome State Fault Refusal :=
  match s.phase with
  | .idle => .next s
  | .run => cycle s

/-- The DMEM work of a command. Only GFSB, PRAND, SPLIT and JOIN write DMEM, and only PRAND and SPLIT draw. -/
def workOf (i : Instr) (s : State) : Work × Except Stop Unit :=
  match i with
  | .gfsb rs addr20 => gfsbRun rs addr20 s
  | .prand rs1 => prandRun rs1 s
  | .split => splitRun s
  | .join => joinRun s
  | .halt | .nop | .gfadd _ _ _ | .gfmul _ _ _ | .gfinv _ _ | .gfdiv _ _ _ | .gfli _ _ | .gfmov _ _
  | .gflb _ _ | .setcfg _ _ | .peval _ _ | .lagr0 _ => (Work.ofState s, .ok ())

/-- The work of the command in flight: nothing in IDLE or when the fetch or decode fails. -/
def inFlight (s : State) : Work × Except Stop Unit :=
  match s.phase, fetchDecode s with
  | .run, .ok i => workOf i s
  | _, _ => (Work.ofState s, .ok ())

/-- rng_ready (R73, R413) in the engine's step from `s`: asserted when the command in flight takes a byte from the entropy
port in that step; while it waits there for a byte, a free value, since the spec fixes rng_ready only at the take and
outside entropy_byte() (DESIGN CHOICE, log entry 18); 0 otherwise. -/
def rngReady (s : State) : Bool :=
  match (inFlight s).2 with
  | .error .waitEntropy => Config.rngReadyWaiting s.cmdret s.entropy.length
  | .ok () | .error (.error _) | .error .drawsForever => (inFlight s).1.tookByte

end Sys2Proof.Machine
end

