-- ==== Sys2Proof/Machine/Reset.lean ====
section
/-! DEFINITION. Hardware reset (R510) and soft reset (R511), with the accesses of a command they abandon. -/

namespace Sys2Proof.Machine

/-- One access of an abandoned command that has happened: a DMEM write stands, a byte taken from the entropy port is
gone (R413, R510). -/
def Access.apply (s : State) : Access → State
  | .write a b => { s with dmem := s.dmem.write a b }
  | .take => { s with entropy := s.entropy.drop 1 }

/-- The state when the command in flight is abandoned after the first `cut` of its accesses, in pseudocode order
(R511, D48, 93 U4; log entry 7). -/
def abandon (cut : Nat) (s : State) : State :=
  ((inFlight s).1.log.reverse.take cut).foldl Access.apply s

/-- Every register and the engine phase at their reset values (R74); DMEM is not reset (R510, R511). The parameters
are no registers' contents, and the model's own fields are the outside's. -/
def resetRegisters (s : State) : State :=
  { State.reset with
    dmem := s.dmem, params := s.params, entropy := s.entropy, turns := s.turns, hostResp := s.hostResp }

/-- A reset, by rst_n or by CTRL.SRST: the command in flight is abandoned, then the registers are reset (R510, R511). -/
def resetUnit (cut : Nat) (s : State) : State := resetRegisters (abandon cut s)

end Sys2Proof.Machine
end

