-- ==== Sys2Proof/Machine/HostPort.lean ====
section
/-! DEFINITION. The host port: the register map (R138), what each access answers and does (R139-R144), GO and SRST
(R56-R58) and write-1-to-clear (R60). -/

namespace Sys2Proof.Machine

/-- What a host offset names (R138). -/
inductive HostTarget where
  | id
  | version
  | ctrl
  | status
  | cpc
  | errCpc
  | errInfo
  | cmdret
  | dmemsz
  | maxlen
  | cfg (c : CfgReg)
  | f (r : RegNum)
  /-- A reserved offset: reads 0, ignores writes (R141). -/
  | reserved
  /-- The DMEM window, at a DMEM address (R140). -/
  | dmem (addr : Nat)
  /-- No access: beyond DMEM, misaligned or of a wrong width (R139, R140). -/
  | bad
deriving DecidableEq, Repr

/-- The bytes of a host access. -/
def Width.bytes : Width → Nat
  | .w1 => 1
  | .w2 => 2
  | .w4 => 4

/-- The register at a 4-byte aligned offset below 0x100000 (R138). -/
def registerAt (o : Nat) : HostTarget :=
  if o = 0x000 then .id
  else if o = 0x004 then .version
  else if o = 0x008 then .ctrl
  else if o = 0x00C then .status
  else if o = 0x010 then .cpc
  else if o = 0x014 then .errCpc
  else if o = 0x018 then .errInfo
  else if o = 0x01C then .cmdret
  else if o = 0x020 then .dmemsz
  else if o = 0x024 then .maxlen
  else if h : 0x040 ≤ o ∧ o < 0x070 then .cfg ⟨(o - 0x040) / 4, by omega⟩
  else if 0x080 ≤ o ∧ o < 0x0C0 then .f (BitVec.ofNat 4 ((o - 0x080) / 4))
  else .reserved

/-- What an access of a width at an offset reaches: registers only 4 bytes wide and aligned (R139), the DMEM window
naturally aligned and inside DMEM (R140). -/
def hostTarget (s : State) (off : HostOff) (width : Width) : HostTarget :=
  let o := off.toNat
  if o < 0x100000 then
    if width = .w4 ∧ o % 4 = 0 then registerAt o else .bad
  else if o % width.bytes = 0 ∧ o - 0x100000 + width.bytes ≤ s.params.dmemSize then .dmem (o - 0x100000)
  else .bad

/-- The ERROR response: read data 0 (R143). -/
def errorResp : HostResp := { ok := false, data := 0 }

/-- An OK response. -/
def okResp (data : Word) : HostResp := { ok := true, data := data }

/-- The read data of `n` bytes of DMEM, little-endian; the bytes above the width read 0 (R133, R140; log entry 13). -/
def Dmem.readBytes (d : Dmem) (a n : Nat) : Word :=
  wordOfBytes (d.read a) (if 1 < n then d.read (a + 1) else 0) (if 2 < n then d.read (a + 2) else 0)
    (if 3 < n then d.read (a + 3) else 0)

/-- The response to a host read; no read has a side effect (R142, R143, R144). -/
def hostRead (s : State) (off : HostOff) (width : Width) : HostResp :=
  match hostTarget s off width with
  | .id => okResp Config.idWord
  | .version => okResp Config.versionWord
  | .ctrl => okResp s.ctrlWord
  | .status => okResp s.statusWord
  | .cpc => okResp (s.cpc.setWidth 32)
  | .errCpc => okResp (s.errCpc.setWidth 32)
  | .errInfo => okResp s.errInfo
  | .cmdret => okResp s.cmdret
  | .dmemsz => okResp (BitVec.ofNat 32 s.params.dmemSize)
  | .maxlen => okResp (BitVec.ofNat 32 s.params.maxSecretLen)
  | .cfg c => if s.busy then errorResp else okResp ((s.readCfg c).setWidth 32)
  | .f r => if s.busy then errorResp else okResp ((s.readF r).setWidth 32)
  | .reserved => okResp 0
  | .dmem a => if s.busy then errorResp else okResp (s.dmem.readBytes a width.bytes)
  | .bad => errorResp

/-- A write of CTRL: IE from bit 1; then SRST if bit 31 is 1; else GO if bit 0 is 1 and the unit is idle (R56-R58,
R518). -/
def writeCtrl (data : Word) (cut : Nat) (s : State) : State :=
  if data.getLsbD 31 then resetUnit cut { s with ie := data.getLsbD 1 }
  else if data.getLsbD 0 = true ∧ s.phase = .idle then go { s with ie := data.getLsbD 1 }
  else { s with ie := data.getLsbD 1 }

/-- A write of STATUS: bit 1 clears DONE, bit 2 clears ERRV and ERRCODE (R60). -/
def writeStatus (data : Word) (s : State) : State :=
  let s1 := if data.getLsbD 1 then { s with done := false } else s
  if data.getLsbD 2 then { s1 with errv := false, errCode := 0 } else s1

/-- CPC as written by the host: bits [19:2], bits [1:0] stay 0 (R54). -/
def cpcKept (data : Word) : Addr := imm20Of data &&& 0xFFFFC#20

/-- A host write: its response and the state after it (R142, R143). -/
def hostWrite (s : State) (off : HostOff) (width : Width) (data : Word) (cut : Nat) : HostResp × State :=
  match hostTarget s off width with
  | .id => (okResp 0, s)
  | .version => (okResp 0, s)
  | .ctrl => (okResp 0, writeCtrl data cut s)
  | .status => (okResp 0, writeStatus data s)
  | .cpc => if s.busy then (errorResp, s) else (okResp 0, { s with cpc := cpcKept data })
  | .errCpc => (okResp 0, s)
  | .errInfo => (okResp 0, s)
  | .cmdret => (okResp 0, s)
  | .dmemsz => (okResp 0, s)
  | .maxlen => (okResp 0, s)
  | .cfg c => if s.busy then (errorResp, s) else (okResp 0, s.writeCfg c (imm20Of data))
  | .f r => if s.busy then (errorResp, s) else (okResp 0, s.writeF r (imm8Of data))
  | .reserved => (okResp 0, s)
  | .dmem a =>
    if s.busy then (errorResp, s) else (okResp 0, { s with dmem := s.dmem.writeBytes a data width.bytes })
  | .bad => (errorResp, s)

/-- One host access, performed completely (R144); its response is kept on the port. -/
def hostAccess (access : HostAccess) (cut : Nat) (s : State) : State :=
  match access with
  | .read off width => { s with hostResp := some (hostRead s off width) }
  | .write off width data =>
    let r := hostWrite s off width data cut
    { r.2 with hostResp := some r.1 }

/-- One move of the machine (R73, R144): the engine's, a host access, the reset pin, or an entropy byte's arrival. -/
def takeTurn (t : Turn) (s : State) : Host.Outcome State Fault Refusal :=
  match t with
  | .engine => engineStep s
  | .host access cut => .next (hostAccess access cut s)
  | .reset cut => .next (resetUnit cut s)
  | .entropy b => .next { s with entropy := s.entropy ++ [b] }

/-- The next move: the first of `turns`, or the engine's when none is listed (log entry 2). -/
def move (s : State) : Host.Outcome State Fault Refusal :=
  match s.turns with
  | [] => engineStep s
  | t :: rest => takeTurn t { s with turns := rest }

/-- The state ready for its next step to run the word `w` (log entry 12): the outside has no move left, the word stands
at CPC (at address 0 where CPC is beyond DMEM), and a run is started by GO unless one is going on. -/
def placeWord (s : State) (nbits w : Nat) : State :=
  let s1 : State := { s with turns := [] }
  let s2 : State := if s.params.dmemSize < s.cpc.toNat + 4 then { s1 with cpc := 0 } else s1
  let s3 : State := if s.phase = .idle then go s2 else s2
  { s3 with dmem := s3.dmem.writeBytes s3.cpc.toNat (BitVec.ofNat 32 (w % 2 ^ nbits)) 4 }

end Sys2Proof.Machine
end

