-- ==== Sys2Proof/Machine/Step.lean ====
section
/-! DEFINITION. One step of the machine, and the state whose next step fetches a given word. -/

namespace Sys2Proof.Machine

/-- One step: a machine with legal parameters (R8) makes its next move; a state with others is no GFSSU-1. -/
def step (s : State) : Host.Outcome State Fault Refusal :=
  if s.params.Legal then move s else .fault .illegalParameters

/-- `s` with the word of `nbits` bits placed where `step` fetches its next command, and the engine running. -/
def State.withFetchWord (s : State) (nbits w : Nat) : State := placeWord s nbits w

end Sys2Proof.Machine
end

