-- ==== Sys2Proof/Safety.lean ====
section
/-! DEFINITION. The terms the statements use: the invariant of the unit, what a command leaves unchanged, what a
retirement and an error record do, and when each command is ready to complete. -/

namespace Sys2Proof.Machine

/-! ### The invariant -/

/-- What holds of every state a GFSSU is in: legal parameters (R8), DMEM in canonical form and inside DMEM_SIZE (R131),
CPC and ERR_CPC multiples of 4 (R54, R61), MODE three bits (R68), DONE and ERRV never both set and both 0 while BUSY
(R59), ERRCODE 0 exactly when ERRV is 0 and a code of R451 otherwise (R59), ERR_INFO bits [27:24] zero for every code
but ILLEGAL (R62). -/
abbrev State.Inv (s : State) : Prop :=
  s.params.Legal ∧
  s.dmem.wf ∧ (∀ c ∈ s.dmem.cells, c.1 < s.params.dmemSize) ∧
  s.cpc.toNat % 4 = 0 ∧ s.errCpc.toNat % 4 = 0 ∧
  s.cfg[CfgReg.mode.val].toNat < 8 ∧
  ¬(s.done = true ∧ s.errv = true) ∧
  (s.phase = .run → s.done = false ∧ s.errv = false) ∧
  (s.errv = false ↔ s.errCode = 0) ∧ s.errCode.toNat ≤ 6 ∧
  (s.errv = true → s.errCode ≠ 4 → bits s.errInfo 24 4 = 0)

/-! ### Frames -/

/-- Every field register but `rd` is unchanged. -/
abbrev FSameExcept (rd : RegNum) (s t : State) : Prop := ∀ r, r ≠ rd → t.readF r = s.readF r

/-- Every field register is unchanged. -/
abbrev FSame (s t : State) : Prop := ∀ r, t.readF r = s.readF r

/-- Every configuration register but `c` is unchanged. -/
abbrev CfgSameExcept (c : CfgReg) (s t : State) : Prop := ∀ d, d ≠ c → t.readCfg d = s.readCfg d

/-- Every configuration register is unchanged. -/
abbrev CfgSame (s t : State) : Prop := ∀ d, t.readCfg d = s.readCfg d

/-- Every byte of DMEM is unchanged. -/
def MemSame (s t : State) : Prop := ∀ a, t.dmem.read a = s.dmem.read a

/-- Every byte of DMEM outside `len` bytes from `base` on is unchanged. -/
def MemSameOutside (base len : Nat) (s t : State) : Prop :=
  ∀ a, (a < base ∨ base + len ≤ a) → t.dmem.read a = s.dmem.read a

/-- CTRL.IE, the parameters, and what belongs to the outside are unchanged: no command reaches them (R463). -/
abbrev OutsideSame (s t : State) : Prop :=
  t.ie = s.ie ∧ t.params = s.params ∧ t.turns = s.turns ∧ t.hostResp = s.hostResp ∧
  t.dmem.powerUp = s.dmem.powerUp

/-- ERRV, ERRCODE, ERR_CPC and ERR_INFO are unchanged. -/
abbrev ErrSame (s t : State) : Prop :=
  t.errv = s.errv ∧ t.errCode = s.errCode ∧ t.errCpc = s.errCpc ∧ t.errInfo = s.errInfo

/-- CPC and CMDRET as retirement leaves them (R402). -/
abbrev Advanced (s t : State) : Prop :=
  t.cpc.toNat = (s.cpc.toNat + 4) % 2 ^ 20 ∧ t.cmdret.toNat = (s.cmdret.toNat + 1) % 2 ^ 32

/-- A command other than HALT retired: CPC and CMDRET moved, the run goes on, and the error record, DONE and all that
no command reaches are unchanged (R402, R456, R463). -/
abbrev Retires (s t : State) : Prop :=
  Advanced s t ∧ t.phase = s.phase ∧ t.done = s.done ∧ ErrSame s t ∧ OutsideSame s t

/-- `raise Error(code, sub, value)` for a code other than ILLEGAL: ERR_CPC, ERR_INFO, ERRCODE, ERRV and the phase are
written, CPC, CMDRET and DONE stay (R456). -/
abbrev ErrorRecorded (code sub value : Nat) (s t : State) : Prop :=
  t.errCpc = s.cpc ∧ t.errInfo.toNat = sub * 2 ^ 28 + value ∧ t.errCode.toNat = code ∧ t.errv = true ∧
  t.phase = .idle ∧ t.cpc = s.cpc ∧ t.cmdret = s.cmdret ∧ t.done = s.done ∧ OutsideSame s t

/-- No field register, configuration register, DMEM byte or entropy byte changed. -/
def Untouched (s t : State) : Prop := FSame s t ∧ CfgSame s t ∧ MemSame s t ∧ t.entropy = s.entropy

/-! ### When a region fits, and when a command is ready -/

/-- check_region(base, len) finds no error (R135). -/
abbrev Fits (s : State) (base len : Nat) : Prop := len = 0 ∨ base + len ≤ s.params.dmemSize

/-- PRAND and PEVAL pass their checks (R305, R306). -/
abbrev PolyReady (s : State) : Prop :=
  1 ≤ s.cfgNat CfgReg.polyLen ∧ s.cfgNat CfgReg.polyLen ≤ 256 ∧
  s.cfgNat CfgReg.polyBase + s.cfgNat CfgReg.polyLen ≤ s.params.dmemSize

/-- check_shape finds no error (R351). -/
abbrev ShapeReady (s : State) : Prop :=
  1 ≤ s.cfgNat CfgReg.shareK ∧ s.cfgNat CfgReg.shareK ≤ s.cfgNat CfgReg.shareN ∧ s.cfgNat CfgReg.shareN ≤ 255 ∧
  s.cfgNat CfgReg.secretLen ≤ s.params.maxSecretLen

/-- The secret and the share set fit (R350). -/
abbrev RegionsReady (s : State) : Prop :=
  Fits s (s.cfgNat CfgReg.secretBase) (s.cfgNat CfgReg.secretLen) ∧
  Fits s (s.cfgNat CfgReg.shareBase) (s.cfgNat CfgReg.shareN * (s.cfgNat CfgReg.secretLen + 1))

/-- `n` x-coordinates, the i-th given by `x i`, are distinct and nonzero (R304). -/
abbrev DistinctNonzero (n : Nat) (x : Nat → Byte) : Prop :=
  (∀ i < n, x i ≠ 0) ∧ ∀ i < n, ∀ m < i, x m ≠ x i

/-- xaddr(i) (R350). -/
def State.xaddr (s : State) (i : Nat) : Nat := s.cfgNat CfgReg.shareBase + i * (s.cfgNat CfgReg.secretLen + 1)

/-- yaddr(i, j) (R350). -/
def State.yaddr (s : State) (i j : Nat) : Nat :=
  s.cfgNat CfgReg.shareBase + i * (s.cfgNat CfgReg.secretLen + 1) + 1 + j

/-- SPLIT passes its checks (R353). -/
abbrev SplitReady (s : State) : Prop :=
  s.xmode ≠ 3 ∧ ShapeReady s ∧ RegionsReady s ∧
  (s.xmode = 1 → Fits s (s.cfgNat CfgReg.xsBase) (s.cfgNat CfgReg.shareN) ∧
    DistinctNonzero (s.cfgNat CfgReg.shareN) (fun i => s.dmem.read (s.cfgNat CfgReg.xsBase + i)))

/-- JOIN passes its checks (R357). -/
abbrev JoinReady (s : State) : Prop :=
  ShapeReady s ∧ RegionsReady s ∧ DistinctNonzero (s.cfgNat CfgReg.shareN) (fun i => s.dmem.read (s.xaddr i))

/-- The address of the i-th draw from DMEM, counted from 0 (R412). -/
def State.rngAddr (s : State) (i : Nat) : Nat := (s.cfgNat CfgReg.rngPtr + i) % 2 ^ 20

/-- `n` draws from DMEM raise no error (R412). -/
abbrev DmemDraws (s : State) (n : Nat) : Prop := ∀ i < n, s.rngAddr i < s.params.dmemSize

/-- The number of coefficients SPLIT draws, L·(K - 1) (R353). -/
def State.splitDraws (s : State) : Nat := s.cfgNat CfgReg.secretLen * (s.cfgNat CfgReg.shareK - 1)

/-- Two runs of addresses, `[a, a + m)` and `[b, b + n)`, share no address. -/
abbrev RunsApart (a m b n : Nat) : Prop := m = 0 ∨ n = 0 ∨ a + m ≤ b ∨ b + n ≤ a

/-- The secret and the share set share no address. -/
abbrev SecretApart (s : State) : Prop :=
  RunsApart (s.cfgNat CfgReg.secretBase) (s.cfgNat CfgReg.secretLen) (s.cfgNat CfgReg.shareBase)
    (s.cfgNat CfgReg.shareN * (s.cfgNat CfgReg.secretLen + 1))

/-- The bytes of a list that are neither zero nor a repeat of an earlier one, in order (R352). -/
def distinctNonzero (l : List Byte) : List Byte :=
  l.foldl (fun xs b => if b = 0 ∨ b ∈ xs then xs else xs ++ [b]) []

/-- `n` bytes of the random stream a command that starts in `s` would draw before it writes: from DMEM at RNG_PTR, or
the entropy bytes (R411-R413). -/
def State.randomBytes (s : State) (n : Nat) : List Byte :=
  if s.rngFromDmem then (List.range n).map (fun i => s.dmem.read (s.rngAddr i)) else s.entropy.take n

/-- gen_x finds its N x-coordinates in `m` draws (R352): none with XMODE 0 or 1; with XMODE 2, the fewest draws that
hold N distinct nonzero bytes. -/
abbrev XsDrawn (s : State) (m : Nat) : Prop :=
  ((s.xmode = 0 ∨ s.xmode = 1) ∧ m = 0) ∨
  (s.xmode = 2 ∧ (distinctNonzero (s.randomBytes m)).length = s.cfgNat CfgReg.shareN ∧
    ∀ r < m, (distinctNonzero (s.randomBytes r)).length < s.cfgNat CfgReg.shareN)

/-- The i-th x-coordinate gen_x gives, found in `m` draws (R352). -/
def State.splitX (s : State) (m i : Nat) : Byte :=
  if s.xmode = 0 then BitVec.ofNat 8 (i + 1)
  else if s.xmode = 1 then s.dmem.read (s.cfgNat CfgReg.xsBase + i)
  else (distinctNonzero (s.randomBytes m)).getD i 0

/-! ### The bytes PRAND and SPLIT write, overlap included -/

/-- Coefficient `i` that a PRAND started in `s` writes, when `t` is the state after it or after a prefix of its writes
(R305, R411-R413). A drawn coefficient is the byte DMEM holds at the draw's address then: one written before where the
stream overlaps the polynomial (R150), the old byte elsewhere. -/
def State.prandByte (s t : State) (rs1 : RegNum) (i : Nat) : Byte :=
  let pb := s.cfgNat CfgReg.polyBase
  let a := s.rngAddr (i - 1)
  if i = 0 then s.readF rs1
  else if s.rngFromDmem then (if pb ≤ a ∧ a < pb + i then t.dmem.read a else s.dmem.read a)
  else s.entropy.getD (i - 1) 0

/-- The byte at `a` as a SPLIT started in `s` finds it at secret byte `j`, when `t` is the state after it or after a prefix
of its writes (R150, R353): inside the share set an x-coordinate, or a y-value of a secret byte before `j`, has been
written by then; every other byte is the old one. -/
def State.splitSees (s t : State) (j a : Nat) : Byte :=
  let hb := s.cfgNat CfgReg.shareBase
  let l := s.cfgNat CfgReg.secretLen
  if hb ≤ a ∧ a < hb + s.cfgNat CfgReg.shareN * (l + 1) ∧ (a - hb) % (l + 1) ≤ j
  then t.dmem.read a else s.dmem.read a

/-- The polynomial of secret byte `j`, `m` draws having given the x-coordinates: the secret byte, then the next K - 1
bytes drawn, each as SPLIT finds it at byte `j` (R353, R411-R413). -/
def State.splitPoly (s t : State) (m j : Nat) : List Byte :=
  let k := s.cfgNat CfgReg.shareK
  s.splitSees t j (s.cfgNat CfgReg.secretBase + j) ::
    (List.range (k - 1)).map (fun e =>
      if s.rngFromDmem then s.splitSees t j (s.rngAddr (m + (j * (k - 1) + e)))
      else s.entropy.getD (m + (j * (k - 1) + e)) 0)

/-- The address of SPLIT's write number `q`, counted from 0 in pseudocode order: the N x-coordinates, then for each secret
byte its N y-values (R353). -/
def State.splitWriteAddr (s : State) (q : Nat) : Nat :=
  let n := s.cfgNat CfgReg.shareN
  if q < n then s.xaddr q else s.yaddr ((q - n) % n) ((q - n) / n)

/-- The byte of SPLIT's write number `q` (R353). -/
def State.splitWriteByte (s t : State) (m q : Nat) : Byte :=
  let n := s.cfgNat CfgReg.shareN
  if q < n then s.splitX m q else peval (s.splitPoly t m ((q - n) / n)) (s.splitX m ((q - n) % n))

/-! ### Resets -/

/-- The next turn is a reset, by rst_n or by a host write of CTRL with bit 31 set (R58, R510, R511). -/
def ResetNext (s : State) (cut : Nat) : Prop :=
  ∃ rest, s.turns = .reset cut :: rest ∨
    ∃ data : Word, s.turns = .host (.write 0x008 .w4 data) cut :: rest ∧ data.getLsbD 31 = true

/-- A run of the engine is safe in `s` when its next step is no fault and no refusal. -/
def Safe (s : State) : Prop := ∃ t, step s = .next t

end Sys2Proof.Machine
end

