-- ==== Sys2Proof/Certificates/Slice0/Obligations.lean ====
section
/-! DEFINITION. The statements for the provers. Each docstring cites the rules it formalises; the terms are those of
Sys2Proof/Safety.lean. A statement over every state holds for every parameter value, every DMEM, every entropy list and
every list of turns, reachable or not. -/

open Sys2Proof Sys2Proof.Machine

/-! ### Encoding -/

/-- R190-R199: decoding the word of a well-formed command gives that command, for every command and every operand. -/
def Obligations.DecodeInvertsEncode : Prop := ∀ i : Instr, WellFormed i → decode (encode i) = .ok i

/-- R190, R191, R200: each word has at most one meaning, and it is the word that command is encoded as. -/
def Obligations.EncodeInvertsDecode : Prop :=
  ∀ (w : Word) (i : Instr), decode w = .ok i → encode i = w ∧ WellFormed i

/-- R200, R201, R202: a word decodes exactly when it equals the match of one row of R199 on that row's mask, with the
cfg field at most 11 for SETCFG. -/
def Obligations.DecodeAcceptsExactlyTheTable : Prop :=
  ∀ w : Word, (∃ i, decode w = .ok i) ↔
    ((w = 0x00000000 ∨ w = 0x01000000 ∨ w = 0x50000000 ∨ w = 0x51000000) ∨
     (w &&& 0xFF000FFF = 0x10000000 ∨ w &&& 0xFF000FFF = 0x11000000 ∨ w &&& 0xFF00FFFF = 0x12000000 ∨
      w &&& 0xFF000FFF = 0x13000000 ∨ w &&& 0xFF0FFF00 = 0x14000000 ∨ w &&& 0xFF00FFFF = 0x15000000) ∨
     (w &&& 0xFF000000 = 0x20000000 ∨ w &&& 0xFF000000 = 0x21000000) ∨
     (w &&& 0xFF000000 = 0x30000000 ∧ (bits w 20 4).toNat ≤ 11) ∨
     (w &&& 0xFFF0FFFF = 0x40000000 ∨ w &&& 0xFF00FFFF = 0x41000000 ∨ w &&& 0xFF0FFFFF = 0x42000000))

/-- Words of spec/95_test_vectors.md (D1-D14 and programs P1-P3), one at least per family, decode as R199 says. -/
def Obligations.TestVectorWordsDecode : Prop :=
  decode 0x00000000 = .ok .halt ∧ decode 0x01000000 = .ok .nop ∧
  decode 0x13642000 = .ok (.gfdiv 6 4 2) ∧ decode 0x14100057 = .ok (.gfli 1 0x57) ∧
  decode 0x2070FFFF = .ok (.gflb 7 0x0FFFF) ∧ decode 0x30B00004 = .ok (.setcfg 11 4) ∧
  decode 0x41320000 = .ok (.peval 3 2) ∧ decode 0x42500000 = .ok (.lagr0 5) ∧
  decode 0x50000000 = .ok .split ∧ decode 0x51000000 = .ok .join ∧
  decode 0x40100000 = .error .mustBeZero ∧ decode 0x30C00000 = .error .reservedCfg ∧
  decode 0xFF000000 = .error .undefinedOpcode

/-! ### The command cycle -/

/-- R400, R401, R133: when the engine moves (no turn of the outside is listed), it does nothing in IDLE; in RUN, when
the fetch is inside DMEM and the four bytes at CPC, lowest address first, decode to `i`, the step is `exec i`. -/
def Obligations.StepRunsTheDecodedCommand : Prop :=
  ∀ s : State, s.params.Legal → s.turns = [] →
    (s.phase = .idle → step s = .next s) ∧
    (∀ i, s.phase = .run → s.cpc.toNat + 4 ≤ s.params.dmemSize →
      decodeBytes (s.dmem.read s.cpc.toNat) (s.dmem.read (s.cpc.toNat + 1)) (s.dmem.read (s.cpc.toNat + 2))
        (s.dmem.read (s.cpc.toNat + 3)) = .ok i →
      step s = exec i s)

/-- R137, R401: a fetch beyond DMEM records ADDRESS/FETCH with VALUE = CPC. R200, R201, R456: a fetched word that does
not decode records ILLEGAL with ERR_INFO = the word. Either way nothing else is written. -/
def Obligations.FetchAndDecodeErrorsAreRecorded : Prop :=
  ∀ s : State, s.params.Legal → s.turns = [] → s.phase = .run →
    (s.params.dmemSize < s.cpc.toNat + 4 →
      ∃ t, step s = .next t ∧ ErrorRecorded 5 0 s.cpc.toNat s t ∧ Untouched s t) ∧
    (∀ r, s.cpc.toNat + 4 ≤ s.params.dmemSize → decode (s.dmem.readWord s.cpc.toNat) = .error r →
      ∃ t, step s = .next t ∧ t.errInfo = s.dmem.readWord s.cpc.toNat ∧ t.errCode = 4 ∧ t.errv = true ∧
        t.errCpc = s.cpc ∧ t.phase = .idle ∧ t.cpc = s.cpc ∧ t.cmdret = s.cmdret ∧ t.done = s.done ∧
        OutsideSame s t ∧ Untouched s t)

/-- R133, R401 and log entry 12: a word placed for the next fetch is the word the next step runs. -/
def Obligations.PlacedWordRunsNext : Prop :=
  ∀ (s : State) (w : Word) (i : Instr), s.params.Legal → decode w = .ok i →
    step (s.withFetchWord 32 w.toNat) = exec i (s.withFetchWord 32 w.toNat)

/-! ### The field -/

/-- R243: the iterative product is the carry-less product reduced modulo 0x11B. -/
def Obligations.ProductIsReducedPolynomialProduct : Prop := ∀ a b : Byte, gmul a b = gmulPolynomial a b

/-- R244: the iterative product is the bit-parallel one, for all 65536 pairs. -/
def Obligations.ProductIsBitParallel : Prop := ∀ a b : Byte, gmul a b = gmulParallel a b

/-- R247: the field laws. -/
def Obligations.FieldLaws : Prop :=
  ∀ a b c : Byte,
    gadd a b = gadd b a ∧ gadd (gadd a b) c = gadd a (gadd b c) ∧ gadd a a = 0 ∧ gadd a 0 = a ∧
    gmul a b = gmul b a ∧ gmul (gmul a b) c = gmul a (gmul b c) ∧ gmul a 1 = a ∧
    gmul a (gadd b c) = gadd (gmul a b) (gmul a c) ∧
    (a ≠ 0 → ∃ v, ginv a = some v ∧ gmul a v = 1 ∧ ginv v = some a)

/-- R70, R245, R246, R255: INV_ROM[a] is a^254, and for a ≠ 0 the one b with a·b = 1; entry 0 is 0; its contents are
R255's table; gdiv fails exactly on b = 0, and 0 / b is 0. -/
def Obligations.InverseRomInverts : Prop :=
  (∀ a : Byte, invRom a = gpow a 254 ∧ invTable[a.toNat]? = some (invRom a)) ∧ invRom 0 = 0 ∧
  (∀ a : Byte, a ≠ 0 → ∀ b : Byte, gmul a b = 1 ↔ b = invRom a) ∧
  (∀ a b : Byte, gdiv a b = none ↔ b = 0) ∧ (∀ b : Byte, b ≠ 0 → gdiv 0 b = some 0)

/-- R301, R302: Horner evaluation is the sum of the c[i]·x^i, and at x = 0 it is c[0]. -/
def Obligations.HornerIsThePowerSum : Prop :=
  (∀ (c : List Byte) (x : Byte),
    peval c x = ((List.range c.length).map (fun i => gmul (c.getD i 0) (gpow x i))).foldl gadd 0) ∧
  (∀ (c0 : Byte) (c : List Byte), peval (c0 :: c) 0 = c0)

/-- R303: interpolation at zero from points with distinct x-coordinates recovers the constant term of every polynomial
with no more coefficients than there are points. -/
def Obligations.LagrangeRecoversTheConstantTerm : Prop :=
  ∀ (c0 : Byte) (c xs : List Byte), xs.Nodup → c.length + 1 ≤ xs.length →
    lagrange0 xs (xs.map (peval (c0 :: c))) = c0

/-- R303, R358: interpolation at zero does not depend on the order of the points. -/
def Obligations.LagrangeIgnoresTheOrderOfPoints : Prop :=
  ∀ ps qs : List (Byte × Byte), List.Perm ps qs → (ps.map Prod.fst).Nodup →
    lagrange0 (ps.map Prod.fst) (ps.map Prod.snd) = lagrange0 (qs.map Prod.fst) (qs.map Prod.snd)

/-! ### Field commands -/

/-- R248, R249: GFADD and GFMUL complete in every state; rd gets the sum or product of the old sources (R52), nothing
else is written. -/
def Obligations.GfaddAndGfmulComplete : Prop :=
  ∀ (s : State) (rd rs1 rs2 : RegNum),
    (∃ t, exec (.gfadd rd rs1 rs2) s = .next t ∧ Retires s t ∧ t.readF rd = s.readF rs1 ^^^ s.readF rs2 ∧
      FSameExcept rd s t ∧ CfgSame s t ∧ MemSame s t ∧ t.entropy = s.entropy) ∧
    (∃ t, exec (.gfmul rd rs1 rs2) s = .next t ∧ Retires s t ∧ t.readF rd = gmul (s.readF rs1) (s.readF rs2) ∧
      FSameExcept rd s t ∧ CfgSame s t ∧ MemSame s t ∧ t.entropy = s.entropy)

/-- R250, R251: GFINV and GFDIV complete when the operand they invert is not 0: rd gets the b with a·b = 1, or the
quotient q with q·b = a. -/
def Obligations.GfinvAndGfdivComplete : Prop :=
  ∀ (s : State) (rd rs1 rs2 : RegNum),
    (s.readF rs1 ≠ 0 →
      ∃ t, exec (.gfinv rd rs1) s = .next t ∧ Retires s t ∧ gmul (s.readF rs1) (t.readF rd) = 1 ∧
        FSameExcept rd s t ∧ CfgSame s t ∧ MemSame s t ∧ t.entropy = s.entropy) ∧
    (s.readF rs2 ≠ 0 →
      ∃ t, exec (.gfdiv rd rs1 rs2) s = .next t ∧ Retires s t ∧ gmul (t.readF rd) (s.readF rs2) = s.readF rs1 ∧
        FSameExcept rd s t ∧ CfgSame s t ∧ MemSame s t ∧ t.entropy = s.entropy)

/-- R252, R253: GFLI and GFMOV complete in every state. -/
def Obligations.GfliAndGfmovComplete : Prop :=
  ∀ (s : State) (rd rs1 : RegNum) (imm8 : Byte),
    (∃ t, exec (.gfli rd imm8) s = .next t ∧ Retires s t ∧ t.readF rd = imm8 ∧
      FSameExcept rd s t ∧ CfgSame s t ∧ MemSame s t ∧ t.entropy = s.entropy) ∧
    (∃ t, exec (.gfmov rd rs1) s = .next t ∧ Retires s t ∧ t.readF rd = s.readF rs1 ∧
      FSameExcept rd s t ∧ CfgSame s t ∧ MemSame s t ∧ t.entropy = s.entropy)

/-! ### Transfer and control -/

/-- R404: GFLB completes inside DMEM and loads the byte. -/
def Obligations.GflbLoadsTheByte : Prop :=
  ∀ (s : State) (rd : RegNum) (addr20 : Addr), addr20.toNat < s.params.dmemSize →
    ∃ t, exec (.gflb rd addr20) s = .next t ∧ Retires s t ∧ t.readF rd = s.dmem.read addr20.toNat ∧
      FSameExcept rd s t ∧ CfgSame s t ∧ MemSame s t ∧ t.entropy = s.entropy

/-- R405: GFSB completes inside DMEM, stores the byte at addr20 and changes no other byte. -/
def Obligations.GfsbStoresTheByte : Prop :=
  ∀ (s : State) (rs : RegNum) (addr20 : Addr), addr20.toNat < s.params.dmemSize →
    ∃ t, exec (.gfsb rs addr20) s = .next t ∧ Retires s t ∧ t.dmem.read addr20.toNat = s.readF rs ∧
      MemSameOutside addr20.toNat 1 s t ∧ FSame s t ∧ CfgSame s t ∧ t.entropy = s.entropy

/-- R406, R66-R68: SETCFG completes for cfg 0 to 11; the register holds imm20, MODE only its bits [2:0]; the other
configuration registers and everything else stay. -/
def Obligations.SetcfgWritesTheRegister : Prop :=
  ∀ (s : State) (cfg : BitVec 4) (imm20 : Addr) (c : CfgReg), cfg.toNat = c.val →
    ∃ t, exec (.setcfg cfg imm20) s = .next t ∧ Retires s t ∧
      (t.readCfg c).toNat = (if c.val = 11 then imm20.toNat % 8 else imm20.toNat) ∧
      CfgSameExcept c s t ∧ FSame s t ∧ MemSame s t ∧ t.entropy = s.entropy

/-- R407: the word 0x01000000 is NOP; it completes in every state and does nothing but retire. -/
def Obligations.NopOnlyRetires : Prop :=
  decode 0x01000000 = .ok .nop ∧ ∀ s : State, ∃ t, exec .nop s = .next t ∧ Retires s t ∧ Untouched s t

/-- R408, R458: the word 0x00000000 is HALT; it completes in every state: it retires, sets DONE and clears BUSY; irq then
equals IE. -/
def Obligations.HaltEndsTheRun : Prop :=
  decode 0x00000000 = .ok .halt ∧
  ∀ s : State, ∃ t, exec .halt s = .next t ∧ Advanced s t ∧ t.done = true ∧ t.phase = .idle ∧ t.busy = false ∧
    t.irq = s.ie ∧ ErrSame s t ∧ OutsideSame s t ∧ Untouched s t

/-- R250, R251, R136, R452: GFINV and GFDIV of a zero operand record DOMAIN with the register field; GFLB and GFSB at or
above DMEM_SIZE record ADDRESS/DATA with the address. Nothing is written. -/
def Obligations.OperandErrorsAreRecorded : Prop :=
  ∀ (s : State) (rd rs1 rs2 : RegNum) (addr20 : Addr),
    (s.readF rs1 = 0 → ∃ t, exec (.gfinv rd rs1) s = .next t ∧ ErrorRecorded 1 0 rs1.toNat s t ∧ Untouched s t) ∧
    (s.readF rs2 = 0 →
      ∃ t, exec (.gfdiv rd rs1 rs2) s = .next t ∧ ErrorRecorded 1 1 rs2.toNat s t ∧ Untouched s t) ∧
    (s.params.dmemSize ≤ addr20.toNat →
      ∃ t, exec (.gflb rd addr20) s = .next t ∧ ErrorRecorded 5 1 addr20.toNat s t ∧ Untouched s t) ∧
    (s.params.dmemSize ≤ addr20.toNat →
      ∃ t, exec (.gfsb rs1 addr20) s = .next t ∧ ErrorRecorded 5 1 addr20.toNat s t ∧ Untouched s t)

/-! ### The polynomial engine -/

/-- R305, R413: PRAND with the entropy port completes when the checks pass and the bytes are there: the constant term is
F[rs1], coefficient i the (i - 1)-th byte drawn. -/
def Obligations.PrandFromEntropyCompletes : Prop :=
  ∀ (s : State) (rs1 : RegNum), PolyReady s → s.rngFromDmem = false →
    s.cfgNat CfgReg.polyLen - 1 ≤ s.entropy.length →
    ∃ t, exec (.prand rs1) s = .next t ∧ Retires s t ∧
      t.dmem.read (s.cfgNat CfgReg.polyBase) = s.readF rs1 ∧
      (∀ i, 1 ≤ i → i < s.cfgNat CfgReg.polyLen →
        t.dmem.read (s.cfgNat CfgReg.polyBase + i) = s.entropy.getD (i - 1) 0) ∧
      t.entropy = s.entropy.drop (s.cfgNat CfgReg.polyLen - 1) ∧
      MemSameOutside (s.cfgNat CfgReg.polyBase) (s.cfgNat CfgReg.polyLen) s t ∧ FSame s t ∧ CfgSame s t

/-- R305, R412, R150: PRAND with the DMEM stream completes when no draw is beyond DMEM. Coefficient i is the byte DMEM
holds at the (i - 1)-th draw's address: a coefficient already written where the stream overlaps the polynomial, the
old byte elsewhere. RNG_PTR moves past the draws, modulo 2^20. -/
def Obligations.PrandFromDmemCompletes : Prop :=
  ∀ (s : State) (rs1 : RegNum), PolyReady s → s.rngFromDmem = true → DmemDraws s (s.cfgNat CfgReg.polyLen - 1) →
    ∃ t, exec (.prand rs1) s = .next t ∧ Retires s t ∧
      t.dmem.read (s.cfgNat CfgReg.polyBase) = s.readF rs1 ∧
      (∀ i, 1 ≤ i → i < s.cfgNat CfgReg.polyLen →
        t.dmem.read (s.cfgNat CfgReg.polyBase + i) =
          if s.cfgNat CfgReg.polyBase ≤ s.rngAddr (i - 1) ∧ s.rngAddr (i - 1) < s.cfgNat CfgReg.polyBase + i
          then t.dmem.read (s.rngAddr (i - 1)) else s.dmem.read (s.rngAddr (i - 1))) ∧
      t.cfgNat CfgReg.rngPtr = (s.cfgNat CfgReg.rngPtr + (s.cfgNat CfgReg.polyLen - 1)) % 2 ^ 20 ∧
      MemSameOutside (s.cfgNat CfgReg.polyBase) (s.cfgNat CfgReg.polyLen) s t ∧ FSame s t ∧
      CfgSameExcept CfgReg.rngPtr s t ∧ t.entropy = s.entropy

/-- R305, R412, R455: when draw k (counted from 0) is the first beyond DMEM, PRAND records ADDRESS/RNG with that address,
RNG_PTR keeps it, the constant term and the first k drawn coefficients stand as PRAND writes them (where the stream
overlaps the polynomial, R150, a coefficient written before), and every other byte is unchanged. -/
def Obligations.PrandDrawErrorKeepsEarlierWrites : Prop :=
  ∀ (s : State) (rs1 : RegNum) (k : Nat), PolyReady s → s.rngFromDmem = true →
    k < s.cfgNat CfgReg.polyLen - 1 → DmemDraws s k → s.params.dmemSize ≤ s.rngAddr k →
    ∃ t, exec (.prand rs1) s = .next t ∧ ErrorRecorded 5 3 (s.rngAddr k) s t ∧
      t.cfgNat CfgReg.rngPtr = s.rngAddr k ∧
      (∀ i ≤ k, t.dmem.read (s.cfgNat CfgReg.polyBase + i) = s.prandByte t rs1 i) ∧
      MemSameOutside (s.cfgNat CfgReg.polyBase) (k + 1) s t ∧ FSame s t ∧
      CfgSameExcept CfgReg.rngPtr s t ∧ t.entropy = s.entropy

/-- R413, R414 and log entries 3, 4 and 18 (the model's choice of how a wait is held, and of rng_ready in it): PRAND with
too few entropy bytes waits; its step leaves the state as it is, BUSY included, and when PRAND is the command in flight
rng_ready is the free value of that wait. -/
def Obligations.PrandWaitsForEntropy : Prop :=
  ∀ (s : State) (rs1 : RegNum), PolyReady s → s.rngFromDmem = false →
    s.entropy.length < s.cfgNat CfgReg.polyLen - 1 →
    exec (.prand rs1) s = .next s ∧
    (s.phase = .run → fetchDecode s = .ok (.prand rs1) →
      rngReady s = Config.rngReadyWaiting s.cmdret s.entropy.length)

/-- R305, R306, R135: PRAND and PEVAL record SHAPE/POLY_RANGE when POLY_LEN is not in 1..256, and ADDRESS/REGION when
the polynomial does not fit; nothing is written. -/
def Obligations.PolynomialCheckErrorsAreRecorded : Prop :=
  ∀ (s : State) (i : Instr), s.params.Legal → (∃ rd rs1, i = .prand rs1 ∨ i = .peval rd rs1) →
    ((s.cfgNat CfgReg.polyLen < 1 ∨ 256 < s.cfgNat CfgReg.polyLen) →
      ∃ t, exec i s = .next t ∧ ErrorRecorded 3 3 (s.cfgNat CfgReg.polyLen) s t ∧ Untouched s t) ∧
    (1 ≤ s.cfgNat CfgReg.polyLen → s.cfgNat CfgReg.polyLen ≤ 256 →
      s.params.dmemSize < s.cfgNat CfgReg.polyBase + s.cfgNat CfgReg.polyLen →
      ∃ t, exec i s = .next t ∧ ErrorRecorded 5 2 (max (s.cfgNat CfgReg.polyBase) s.params.dmemSize) s t ∧
        Untouched s t)

/-- R306, R300, R301: PEVAL completes when its checks pass; rd gets the value at the old F[rs1]. -/
def Obligations.PevalCompletes : Prop :=
  ∀ (s : State) (rd rs1 : RegNum), PolyReady s →
    ∃ t, exec (.peval rd rs1) s = .next t ∧ Retires s t ∧
      t.readF rd = peval ((List.range (s.cfgNat CfgReg.polyLen)).map
        (fun i => s.dmem.read (s.cfgNat CfgReg.polyBase + i))) (s.readF rs1) ∧
      FSameExcept rd s t ∧ CfgSame s t ∧ MemSame s t ∧ t.entropy = s.entropy

/-- R307, R303, R304: LAGR0 completes when PT_COUNT is in 1..256, both arrays fit and no x-coordinate repeats (a zero
x-coordinate is allowed). -/
def Obligations.LagrCompletes : Prop :=
  ∀ (s : State) (rd : RegNum),
    let p := s.cfgNat CfgReg.ptCount
    let x := fun i => s.dmem.read (s.cfgNat CfgReg.xsBase + i)
    let y := fun i => s.dmem.read (s.cfgNat CfgReg.ysBase + i)
    1 ≤ p → p ≤ 256 → s.cfgNat CfgReg.xsBase + p ≤ s.params.dmemSize →
    s.cfgNat CfgReg.ysBase + p ≤ s.params.dmemSize → (∀ i < p, ∀ m < i, x m ≠ x i) →
    ∃ t, exec (.lagr0 rd) s = .next t ∧ Retires s t ∧
      t.readF rd = lagrange0 ((List.range p).map x) ((List.range p).map y) ∧
      FSameExcept rd s t ∧ CfgSame s t ∧ MemSame s t ∧ t.entropy = s.entropy

/-- R307, R304, R135, R453: LAGR0's errors in order: SHAPE/PT_RANGE, ADDRESS/REGION for the x array, then for the y
array, then DEGENERATE/DUP_X with the first index whose x repeats an earlier one. Nothing is written. -/
def Obligations.LagrErrorsAreRecordedInOrder : Prop :=
  ∀ (s : State) (rd : RegNum), s.params.Legal →
    let p := s.cfgNat CfgReg.ptCount
    let xb := s.cfgNat CfgReg.xsBase
    let yb := s.cfgNat CfgReg.ysBase
    let x := fun i => s.dmem.read (xb + i)
    let ends := fun code sub value =>
      ∃ t, exec (.lagr0 rd) s = .next t ∧ ErrorRecorded code sub value s t ∧ Untouched s t
    ((p < 1 ∨ 256 < p) → ends 3 4 p) ∧
    (1 ≤ p → p ≤ 256 → s.params.dmemSize < xb + p → ends 5 2 (max xb s.params.dmemSize)) ∧
    (1 ≤ p → p ≤ 256 → xb + p ≤ s.params.dmemSize → s.params.dmemSize < yb + p →
      ends 5 2 (max yb s.params.dmemSize)) ∧
    (∀ i < p, p ≤ 256 → xb + p ≤ s.params.dmemSize → yb + p ≤ s.params.dmemSize →
      (∃ m < i, x m = x i) → (∀ j < i, ∀ m < j, x m ≠ x j) → ends 2 0 i)

/-! ### The sequencers -/

/-- R353, R352, R301, R413: SPLIT with the entropy port completes, in every XMODE, when its checks pass and the bytes are
there: m draws that give the x-coordinates (none for XMODE 0 and 1) and L·(K - 1) for the coefficients. The
x-coordinates are 1..n, the host's, or the first N distinct nonzero bytes drawn. The y-value (i, j) is the polynomial
of secret byte j at x_i, its constant term the secret byte as DMEM holds it then (a share byte already written where
the regions overlap, R150) and its other coefficients the next K - 1 bytes drawn. Only the share set is written. -/
def Obligations.SplitFromEntropyCompletes : Prop :=
  ∀ (s : State) (m : Nat), SplitReady s → XsDrawn s m → s.rngFromDmem = false →
    m + s.splitDraws ≤ s.entropy.length →
    let n := s.cfgNat CfgReg.shareN
    let k := s.cfgNat CfgReg.shareK
    let l := s.cfgNat CfgReg.secretLen
    let sb := s.cfgNat CfgReg.secretBase
    let hb := s.cfgNat CfgReg.shareBase
    ∃ t, exec .split s = .next t ∧ Retires s t ∧
      (∀ i < n, t.dmem.read (s.xaddr i) = s.splitX m i) ∧
      (∀ j < l, ∀ i < n, t.dmem.read (s.yaddr i j) =
        peval ((if hb ≤ sb + j ∧ sb + j < hb + n * (l + 1) ∧ (sb + j - hb) % (l + 1) ≤ j
            then t.dmem.read (sb + j) else s.dmem.read (sb + j)) ::
          (s.entropy.drop (m + j * (k - 1))).take (k - 1)) (s.splitX m i)) ∧
      t.entropy = s.entropy.drop (m + s.splitDraws) ∧
      MemSameOutside hb (n * (l + 1)) s t ∧ FSame s t ∧ CfgSame s t

/-- R353, R352, R412: the same with the DMEM stream, when no draw is beyond DMEM; RNG_PTR moves past the draws, modulo
2^20. Secret and stream may overlap the share set (R150): the constant term and each coefficient of secret byte j are the
bytes DMEM holds when SPLIT reads them, a share byte written by then or the old byte (`splitPoly`). -/
def Obligations.SplitFromDmemCompletes : Prop :=
  ∀ (s : State) (m : Nat), SplitReady s → XsDrawn s m → s.rngFromDmem = true → DmemDraws s (m + s.splitDraws) →
    ∃ t, exec .split s = .next t ∧ Retires s t ∧
      (∀ i < s.cfgNat CfgReg.shareN, t.dmem.read (s.xaddr i) = s.splitX m i) ∧
      (∀ j < s.cfgNat CfgReg.secretLen, ∀ i < s.cfgNat CfgReg.shareN,
        t.dmem.read (s.yaddr i j) = peval (s.splitPoly t m j) (s.splitX m i)) ∧
      t.cfgNat CfgReg.rngPtr = s.rngAddr (m + s.splitDraws) ∧
      MemSameOutside (s.cfgNat CfgReg.shareBase)
        (s.cfgNat CfgReg.shareN * (s.cfgNat CfgReg.secretLen + 1)) s t ∧
      FSame s t ∧ CfgSameExcept CfgReg.rngPtr s t ∧ t.entropy = s.entropy

/-- R354: whenever SPLIT retires, in every mode and however the regions overlap, the x-coordinates it wrote are distinct
and nonzero, and for every secret position there is one polynomial of K coefficients whose values at the x_i are the
y-values written; its constant term is the secret byte where the secret is apart from the share set. -/
def Obligations.SplitSharesLieOnOnePolynomial : Prop :=
  ∀ s t : State, exec .split s = .next t → Advanced s t →
    DistinctNonzero (s.cfgNat CfgReg.shareN) (fun i => t.dmem.read (s.xaddr i)) ∧
    ∀ j < s.cfgNat CfgReg.secretLen, ∃ c : List Byte, c.length = s.cfgNat CfgReg.shareK ∧
      (∀ i < s.cfgNat CfgReg.shareN, t.dmem.read (s.yaddr i j) = peval c (t.dmem.read (s.xaddr i))) ∧
      (SecretApart s → c.head? = some (s.dmem.read (s.cfgNat CfgReg.secretBase + j)))

/-- R353, R412, R455: when a draw of SPLIT is the first beyond DMEM, SPLIT records ADDRESS/RNG with its address and RNG_PTR
keeps it. If it is coefficient draw d (counted from 0) after the m draws of gen_x, the x-coordinates are written, the
y-values of every secret byte before the one whose coefficient failed stand as SPLIT writes them (overlap included,
R150), and those of that byte and of every later one are not written. If it is draw d of gen_x (XMODE 2), DMEM is
unchanged. -/
def Obligations.SplitDrawErrorKeepsEarlierWrites : Prop :=
  (∀ (s : State) (m d : Nat), SplitReady s → XsDrawn s m → s.rngFromDmem = true →
    d < s.splitDraws → DmemDraws s (m + d) → s.params.dmemSize ≤ s.rngAddr (m + d) →
    ∃ t, exec .split s = .next t ∧ ErrorRecorded 5 3 (s.rngAddr (m + d)) s t ∧
      t.cfgNat CfgReg.rngPtr = s.rngAddr (m + d) ∧
      (∀ i < s.cfgNat CfgReg.shareN, t.dmem.read (s.xaddr i) = s.splitX m i) ∧
      (∀ i < s.cfgNat CfgReg.shareN, ∀ j < d / (s.cfgNat CfgReg.shareK - 1),
        t.dmem.read (s.yaddr i j) = peval (s.splitPoly t m j) (s.splitX m i)) ∧
      (∀ i < s.cfgNat CfgReg.shareN, ∀ j < s.cfgNat CfgReg.secretLen,
        d / (s.cfgNat CfgReg.shareK - 1) ≤ j → t.dmem.read (s.yaddr i j) = s.dmem.read (s.yaddr i j)) ∧
      MemSameOutside (s.cfgNat CfgReg.shareBase)
        (s.cfgNat CfgReg.shareN * (s.cfgNat CfgReg.secretLen + 1)) s t ∧
      FSame s t ∧ CfgSameExcept CfgReg.rngPtr s t ∧ t.entropy = s.entropy) ∧
  (∀ (s : State) (d : Nat), SplitReady s → s.xmode = 2 → s.rngFromDmem = true →
    (∀ r ≤ d, (distinctNonzero (s.randomBytes r)).length < s.cfgNat CfgReg.shareN) →
    DmemDraws s d → s.params.dmemSize ≤ s.rngAddr d →
    ∃ t, exec .split s = .next t ∧ ErrorRecorded 5 3 (s.rngAddr d) s t ∧ t.cfgNat CfgReg.rngPtr = s.rngAddr d ∧
      MemSame s t ∧ FSame s t ∧ CfgSameExcept CfgReg.rngPtr s t ∧ t.entropy = s.entropy)

/-- R413, R414, 93 U3 and log entries 3, 4 and 8 (the model's choice of how a wait is held): SPLIT leaves the state as it
is when it waits for an entropy byte, be it for a coefficient or (XMODE 2) for an x-coordinate, and when with XMODE 2 it
draws for ever from a DMEM of 2^20 bytes with fewer than N distinct nonzero ones. -/
def Obligations.SplitWaitsOrDrawsForEver : Prop :=
  ∀ s : State, SplitReady s →
    (∀ m, XsDrawn s m → s.rngFromDmem = false → m ≤ s.entropy.length → s.entropy.length < m + s.splitDraws →
      exec .split s = .next s) ∧
    (s.xmode = 2 → s.rngFromDmem = false →
      (distinctNonzero s.entropy).length < s.cfgNat CfgReg.shareN → exec .split s = .next s) ∧
    (s.xmode = 2 → s.rngFromDmem = true → s.params.dmemSize = 2 ^ 20 →
      (distinctNonzero (s.randomBytes (2 ^ 20))).length < s.cfgNat CfgReg.shareN → exec .split s = .next s)

/-- R357, R303, R355: JOIN completes when its checks pass: secret byte j is the interpolation at zero of the first K
shares' y-values at j, each as DMEM holds it then (a secret byte already written where the regions overlap, R150). Only
the secret is written. -/
def Obligations.JoinCompletes : Prop :=
  ∀ s : State, JoinReady s →
    let k := s.cfgNat CfgReg.shareK
    let sb := s.cfgNat CfgReg.secretBase
    ∃ t, exec .join s = .next t ∧ Retires s t ∧
      (∀ j < s.cfgNat CfgReg.secretLen, t.dmem.read (sb + j) =
        lagrange0 ((List.range k).map (fun i => s.dmem.read (s.xaddr i)))
          ((List.range k).map (fun i =>
            if sb ≤ s.yaddr i j ∧ s.yaddr i j < sb + j then t.dmem.read (s.yaddr i j)
            else s.dmem.read (s.yaddr i j)))) ∧
      MemSameOutside sb (s.cfgNat CfgReg.secretLen) s t ∧ FSame s t ∧ CfgSame s t ∧ t.entropy = s.entropy

/-- R358: a JOIN whose first K shares are any K shares, in any order, of one retired SPLIT with threshold K writes the
secret that SPLIT read. `s` to `t` is the SPLIT, its secret apart from its shares; `u` is any state with the same
secret length and threshold whose share m is share `idx m` of `t`, and whose secret region is apart from its shares. -/
def Obligations.JoinRecoversWhatSplitShared : Prop :=
  ∀ (s t u : State) (idx : Nat → Nat), exec .split s = .next t → Advanced s t → SecretApart s →
    JoinReady u → SecretApart u →
    u.cfgNat CfgReg.secretLen = s.cfgNat CfgReg.secretLen → u.cfgNat CfgReg.shareK = s.cfgNat CfgReg.shareK →
    (∀ m < u.cfgNat CfgReg.shareK, idx m < s.cfgNat CfgReg.shareN ∧
      u.dmem.read (u.xaddr m) = t.dmem.read (s.xaddr (idx m)) ∧
      ∀ j < u.cfgNat CfgReg.secretLen, u.dmem.read (u.yaddr m j) = t.dmem.read (s.yaddr (idx m) j)) →
    ∃ v, exec .join u = .next v ∧ Retires u v ∧
      ∀ j < u.cfgNat CfgReg.secretLen,
        v.dmem.read (u.cfgNat CfgReg.secretBase + j) = s.dmem.read (s.cfgNat CfgReg.secretBase + j)

/-- R351, R353, R453: SPLIT's CONFIG error comes first; then SPLIT and JOIN make the shape checks in the order K_RANGE,
N_RANGE, K_GT_N, LEN_RANGE and record the first that fails. Nothing is written. -/
def Obligations.SequencersRejectBadShapes : Prop :=
  ∀ (s : State) (i : Instr), (i = .split ∨ i = .join) →
    let k := s.cfgNat CfgReg.shareK
    let n := s.cfgNat CfgReg.shareN
    let l := s.cfgNat CfgReg.secretLen
    let ends := fun code sub value =>
      ∃ t, exec i s = .next t ∧ ErrorRecorded code sub value s t ∧ Untouched s t
    (i = .split → s.xmode = 3 → ends 6 0 (s.cfgNat CfgReg.mode)) ∧
    ((i = .split → s.xmode ≠ 3) →
      ((k < 1 ∨ 255 < k) → ends 3 0 k) ∧
      (1 ≤ k → k ≤ 255 → (n < 1 ∨ 255 < n) → ends 3 1 n) ∧
      (1 ≤ k → k ≤ 255 → 1 ≤ n → n ≤ 255 → n < k → ends 3 5 n) ∧
      (1 ≤ k → k ≤ n → n ≤ 255 → s.params.maxSecretLen < l → ends 3 2 l))

/-- R353, R357, R135, R453: after the shape checks SPLIT checks the secret, then the share set, then (XMODE 1) the x array;
JOIN checks the share set, then the secret; the first that does not fit is ADDRESS/REGION with max(base, DMEM_SIZE).
Nothing is written. -/
def Obligations.SequencersRejectRegionsBeyondDmem : Prop :=
  ∀ s : State, s.params.Legal → ShapeReady s →
    let size := s.params.dmemSize
    let n := s.cfgNat CfgReg.shareN
    let l := s.cfgNat CfgReg.secretLen
    let sb := s.cfgNat CfgReg.secretBase
    let hb := s.cfgNat CfgReg.shareBase
    let xb := s.cfgNat CfgReg.xsBase
    let ends := fun (i : Instr) base =>
      ∃ t, exec i s = .next t ∧ ErrorRecorded 5 2 (max base size) s t ∧ Untouched s t
    (s.xmode ≠ 3 → ¬Fits s sb l → ends .split sb) ∧
    (s.xmode ≠ 3 → Fits s sb l → ¬Fits s hb (n * (l + 1)) → ends .split hb) ∧
    (s.xmode = 1 → RegionsReady s → ¬Fits s xb n → ends .split xb) ∧
    (¬Fits s hb (n * (l + 1)) → ends .join hb) ∧
    (Fits s hb (n * (l + 1)) → ¬Fits s sb l → ends .join sb)

/-- R304, R353, R357: after the region checks SPLIT with XMODE 1 (over the x array) and JOIN (over all N shares) record the
first index whose x-coordinate is zero (ZERO_X) or repeats an earlier one (DUP_X), the zero check first at one index.
Nothing is written. -/
def Obligations.SequencersRejectBadPoints : Prop :=
  ∀ (s : State) (i : Nat), ShapeReady s → RegionsReady s → i < s.cfgNat CfgReg.shareN →
    let ends := fun (c : Instr) sub => ∃ t, exec c s = .next t ∧ ErrorRecorded 2 sub i s t ∧ Untouched s t
    let first := fun (x : Nat → Byte) => DistinctNonzero i x
    let xs := fun m => s.dmem.read (s.cfgNat CfgReg.xsBase + m)
    let hs := fun m => s.dmem.read (s.xaddr m)
    (s.xmode = 1 → Fits s (s.cfgNat CfgReg.xsBase) (s.cfgNat CfgReg.shareN) → first xs →
      (xs i = 0 → ends .split 1) ∧ (xs i ≠ 0 → (∃ m < i, xs m = xs i) → ends .split 0)) ∧
    (first hs → (hs i = 0 → ends .join 1) ∧ (hs i ≠ 0 → (∃ m < i, hs m = hs i) → ends .join 0))

/-! ### The whole machine -/

/-- R74 and the invariant: it holds right after reset. -/
def Obligations.InvariantHoldsAtReset : Prop := State.reset.Inv

/-- R8, R54, R59, R61, R62, R68, R131: every step keeps the invariant, whatever the next turn is. -/
def Obligations.EveryStepKeepsTheInvariant : Prop :=
  ∀ s s' : State, s.Inv → step s = .next s' → s'.Inv

/-- R409, R456, R463: every command answers a next state, and none changes CTRL.IE, the parameters, what is pending
outside, or which power-up DMEM is of. A legal machine's step therefore always answers a next state. That EVERY command
answers one rests on the model's choices too: a command that waits or draws for ever answers the unchanged state (log
entries 4 and 8), an ill-formed SETCFG raises ILLEGAL (log entry 11), and step's one fault, which Legal rules out, is the
model's own (log entry 6). -/
def Obligations.CommandsNeverStopNorReachControlState : Prop :=
  (∀ (i : Instr) (s : State), ∃ t, exec i s = .next t ∧ OutsideSame s t) ∧
  (∀ s : State, s.params.Legal → Safe s)

/-- R55, R65, R402, R403: a command either retires (CPC + 4 and CMDRET + 1, both wrapping) or leaves CPC and CMDRET
alone. -/
def Obligations.CpcMovesOnlyByRetirement : Prop :=
  ∀ (i : Instr) (s t : State), exec i s = .next t → Advanced s t ∨ (t.cpc = s.cpc ∧ t.cmdret = s.cmdret)

/-- R52, R55, R455: when a command ends with an error it has written no field register and no configuration register
but RNG_PTR, CPC and CMDRET stay, ERR_CPC is CPC, and if it is neither PRAND nor SPLIT it has written nothing at
all. -/
def Obligations.ErrorsArePrecise : Prop :=
  ∀ (i : Instr) (s t : State), exec i s = .next t → s.errv = false → t.errv = true →
    FSame s t ∧ CfgSameExcept CfgReg.rngPtr s t ∧ t.cpc = s.cpc ∧ t.cmdret = s.cmdret ∧ t.errCpc = s.cpc ∧
    t.phase = .idle ∧ ((∀ rs1, i ≠ .prand rs1) → i ≠ .split → Untouched s t)

/-- R411, R413: a command takes entropy bytes only from the front, each once; only PRAND and SPLIT with RNGSRC = 0 take
any. The engine's step takes bytes only with rng_ready asserted, and rng_ready is asserted only while PRAND or SPLIT with
RNGSRC = 0 is the command in flight. That a command's takes show in the step that ends it, and that rng_ready is a free
value in a wait, is the model's choice (log entries 4 and 18). -/
def Obligations.EntropyBytesAreTakenOnceInOrder : Prop :=
  (∀ (i : Instr) (s t : State), exec i s = .next t →
    (∃ n, t.entropy = s.entropy.drop n) ∧
    ((s.rngFromDmem = true ∨ ((∀ rs1, i ≠ .prand rs1) ∧ i ≠ .split)) → t.entropy = s.entropy)) ∧
  (∀ s t : State, engineStep s = .next t → t.entropy ≠ s.entropy → rngReady s = true) ∧
  (∀ s : State, rngReady s = true →
    s.phase = .run ∧ s.rngFromDmem = false ∧
    ∃ i, fetchDecode s = .ok i ∧ (i = .split ∨ ∃ rs1, i = .prand rs1))

/-- R51: SPLIT, JOIN, SETCFG, NOP and HALT neither read nor write a field register: run from any other field registers,
they do the same to everything else and leave those registers. -/
def Obligations.FiveCommandsIgnoreFieldRegisters : Prop :=
  ∀ (i : Instr) (s t : State) (f' : Vector Byte 16), WellFormed i →
    (i = .split ∨ i = .join ∨ i = .nop ∨ i = .halt ∨ ∃ cfg imm20, i = .setcfg cfg imm20) →
    exec i s = .next t → t.f = s.f ∧ exec i { s with f := f' } = .next { t with f := f' }

/-- R400, R408, R456, R517: from RUN with DONE and ERRV clear, the engine's step stays in RUN with both clear, or enters IDLE
with exactly one of them set; DONE is set by HALT alone. -/
def Obligations.RunsEndWithDoneOrAnError : Prop :=
  (∀ s t : State, s.phase = .run → s.done = false → s.errv = false → engineStep s = .next t →
    (t.phase = .run ∧ t.done = false ∧ t.errv = false) ∨
    (t.phase = .idle ∧ ((t.done = true ∧ t.errv = false) ∨ (t.done = false ∧ t.errv = true)))) ∧
  (∀ (i : Instr) (s t : State), exec i s = .next t → s.done = false → t.done = true → i = .halt)

/-! ### Reset and the host port -/

/-- R510, R511, R58, R74: after a hardware reset, and after a host write of CTRL with bit 31 set whatever its other bits,
every register and the phase hold their reset values and irq is 0; the parameters stay; and when no command was in
flight, DMEM is unchanged. That the bytes the entropy source will still offer and the later turns stay as they are is the
model's choice (log entry 9: R510 and R511 name no such state). -/
def Obligations.ResetsPutRegistersAtResetValues : Prop :=
  ∀ (s t : State) (cut : Nat) (data : Word) (rest : List Turn), s.params.Legal →
    (s.turns = .reset cut :: rest ∨
      (s.turns = .host (.write 0x008 .w4 data) cut :: rest ∧ data.getLsbD 31 = true)) →
    step s = .next t →
    (∀ r, t.readF r = 0) ∧ (∀ c, t.readCfg c = 0) ∧ t.cpc = 0 ∧ t.ie = false ∧ t.phase = .idle ∧
    t.statusWord = 0 ∧ t.errCpc = 0 ∧ t.errInfo = 0 ∧ t.cmdret = 0 ∧ t.irq = false ∧ t.params = s.params ∧
    t.turns = rest ∧ t.dmem.powerUp = s.dmem.powerUp ∧ (s.phase = .idle → MemSame s t ∧ t.entropy = s.entropy)

/-- R510, R511, 93 U4 and log entry 7: a PRAND in flight that either reset abandons has made a prefix of its writes: for
some n, the first n coefficients stand as PRAND writes them, be they drawn from the entropy port or from DMEM, and every
other byte of DMEM is unchanged. The bytes taken from the entropy port are those drawn for these n coefficients, or one
more whose write did not happen. -/
def Obligations.ResetCutsPrandAtAPrefixOfItsWrites : Prop :=
  ∀ (s t : State) (cut : Nat) (rs1 : RegNum), s.params.Legal → ResetNext s cut → s.phase = .run →
    fetchDecode s = .ok (.prand rs1) → PolyReady s → step s = .next t →
    ∃ n ≤ s.cfgNat CfgReg.polyLen,
      (∀ i < n, t.dmem.read (s.cfgNat CfgReg.polyBase + i) = s.prandByte t rs1 i) ∧
      MemSameOutside (s.cfgNat CfgReg.polyBase) n s t ∧
      (s.rngFromDmem = true → t.entropy = s.entropy) ∧
      (s.rngFromDmem = false → t.entropy = s.entropy.drop (n - 1) ∨ t.entropy = s.entropy.drop n)

/-- R56, R57, R518: a host write of CTRL with bit 31 clear. With bit 0 set it starts a run when the unit is idle, clearing
the record and CMDRET. When a run is going on, or when bit 0 is clear, it changes nothing but IE. IE takes bit 1 in every
case. -/
def Obligations.CtrlWriteStartsARunOrOnlySetsIe : Prop :=
  ∀ (s : State) (data : Word) (cut : Nat) (rest : List Turn), s.params.Legal →
    s.turns = .host (.write 0x008 .w4 data) cut :: rest → data.getLsbD 31 = false →
    (data.getLsbD 0 = true → s.phase = .idle → step s = .next { s with
      ie := data.getLsbD 1, done := false, errv := false, errCode := 0, errCpc := 0, errInfo := 0, cmdret := 0,
      phase := .run, turns := rest, hostResp := some { ok := true, data := 0 } }) ∧
    (data.getLsbD 0 = false ∨ s.phase = .run → step s = .next { s with
      ie := data.getLsbD 1, turns := rest, hostResp := some { ok := true, data := 0 } })

/-- R60: a host write of STATUS clears DONE where bit 1 is 1, and ERRV and ERRCODE where bit 2 is 1; it sets no bit, and
BUSY, ERR_CPC, ERR_INFO and everything else stay. -/
def Obligations.StatusBitsClearByWritingOne : Prop :=
  ∀ (s : State) (data : Word) (cut : Nat) (rest : List Turn), s.params.Legal →
    s.turns = .host (.write 0x00C .w4 data) cut :: rest →
    step s = .next { s with
      done := s.done && !data.getLsbD 1, errv := s.errv && !data.getLsbD 2,
      errCode := if data.getLsbD 2 then 0 else s.errCode,
      turns := rest, hostResp := some { ok := true, data := 0 } }

/-- R142: while BUSY = 1 every access of a configuration register, a field register or the DMEM window, and every write of
CPC, gets an ERROR response, reads 0 and changes nothing. -/
def Obligations.BusyUnitRefusesItsState : Prop :=
  ∀ (s : State) (a : HostAccess) (cut : Nat) (rest : List Turn), s.params.Legal → s.phase = .run →
    s.turns = .host a cut :: rest →
    (∃ off width data, (a = .read off width ∨ a = .write off width data) ∧
      ((0x040 ≤ off.toNat ∧ off.toNat < 0x070) ∨ (0x080 ≤ off.toNat ∧ off.toNat < 0x0C0) ∨ 0x100000 ≤ off.toNat)) ∨
    (∃ data, a = .write 0x010 .w4 data) →
    step s = .next { s with turns := rest, hostResp := some { ok := false, data := 0 } }

/-- R143, R144, R139, R140: a read's response is the one `hostRead` gives, and no read changes anything else; an access with an ERROR response reads 0 and
changes nothing else; and an access of the wrong width, misaligned, or beyond DMEM gets one. -/
def Obligations.ReadsAndRefusedAccessesHaveNoEffect : Prop :=
  ∀ (s t : State) (a : HostAccess) (cut : Nat) (rest : List Turn), s.params.Legal → s.turns = .host a cut :: rest →
    step s = .next t →
    (∀ off width, a = .read off width → t = { s with turns := rest, hostResp := some (hostRead s off width) }) ∧
    (∀ data, t.hostResp = some { ok := false, data := data } →
      data = 0 ∧ t = { s with turns := rest, hostResp := t.hostResp }) ∧
    (∀ off width data, (a = .read off width ∨ a = .write off width data) →
      ((off.toNat < 0x100000 ∧ ¬(width = .w4 ∧ off.toNat % 4 = 0)) ∨
       (0x100000 ≤ off.toNat ∧
         ¬(off.toNat % width.bytes = 0 ∧ off.toNat + width.bytes ≤ 0x100000 + s.params.dmemSize))) →
      t.hostResp = some { ok := false, data := 0 })

/-- R53, R54, R67, R68, R142, R143: an idle unit's F, CFG and CPC keep what the host writes (bits [7:0]; bits [19:0], MODE
[2:0]; bits [19:2]) and read it back zero-extended. The write and the read back get an OK response, and the write changes
nothing else: no other register, no DMEM byte, no other state. -/
def Obligations.HostWritesRegistersWhenIdle : Prop :=
  ∀ (s : State) (data : Word) (cut : Nat) (rest : List Turn), s.params.Legal → s.phase = .idle →
    (∀ (r : RegNum) (off : HostOff), off.toNat = 0x080 + 4 * r.toNat →
      s.turns = .host (.write off .w4 data) cut :: rest →
      ∃ t, step s = .next t ∧
        t = { s with f := t.f, turns := rest, hostResp := some { ok := true, data := 0 } } ∧
        (t.readF r).toNat = data.toNat % 2 ^ 8 ∧ FSameExcept r s t ∧
        hostRead t off .w4 = { ok := true, data := BitVec.ofNat 32 (data.toNat % 2 ^ 8) }) ∧
    (∀ (c : CfgReg) (off : HostOff), off.toNat = 0x040 + 4 * c.val →
      s.turns = .host (.write off .w4 data) cut :: rest →
      ∃ t, step s = .next t ∧
        t = { s with cfg := t.cfg, turns := rest, hostResp := some { ok := true, data := 0 } } ∧
        (t.readCfg c).toNat = data.toNat % (if c.val = 11 then 2 ^ 3 else 2 ^ 20) ∧ CfgSameExcept c s t ∧
        hostRead t off .w4 =
          { ok := true, data := BitVec.ofNat 32 (data.toNat % (if c.val = 11 then 2 ^ 3 else 2 ^ 20)) }) ∧
    (s.turns = .host (.write 0x010 .w4 data) cut :: rest →
      ∃ t, step s = .next t ∧
        t = { s with cpc := t.cpc, turns := rest, hostResp := some { ok := true, data := 0 } } ∧
        t.cpc.toNat = data.toNat % 2 ^ 20 / 4 * 4 ∧
        hostRead t 0x010 .w4 = { ok := true, data := BitVec.ofNat 32 (data.toNat % 2 ^ 20 / 4 * 4) })

/-- R63, R64, R141, and for the writes R61, R62, R65, R142: in every state ID, VERSION, DMEMSZ and MAXLEN read their
constants and a reserved offset reads 0, all with an OK response. A write to any of them, or to ERR_CPC, ERR_INFO or
CMDRET, idle or busy, gets an OK response and changes nothing. -/
def Obligations.ConstantsAndReservedOffsets : Prop :=
  (∀ s : State,
    hostRead s 0x000 .w4 = { ok := true, data := 0x47465353 } ∧
    hostRead s 0x004 .w4 = { ok := true, data := 0x00010000 } ∧
    (s.params.Legal → (hostRead s 0x020 .w4).ok = true ∧ (hostRead s 0x020 .w4).data.toNat = s.params.dmemSize ∧
      (hostRead s 0x024 .w4).ok = true ∧ (hostRead s 0x024 .w4).data.toNat = s.params.maxSecretLen) ∧
    ∀ off : HostOff, off.toNat % 4 = 0 →
      ((0x028 ≤ off.toNat ∧ off.toNat < 0x040) ∨ (0x070 ≤ off.toNat ∧ off.toNat < 0x080) ∨
       (0x0C0 ≤ off.toNat ∧ off.toNat < 0x100000)) →
      hostRead s off .w4 = { ok := true, data := 0 }) ∧
  (∀ (s : State) (off : HostOff) (data : Word) (cut : Nat) (rest : List Turn), s.params.Legal →
    s.turns = .host (.write off .w4 data) cut :: rest →
    ((off = 0x000 ∨ off = 0x004 ∨ off = 0x014 ∨ off = 0x018 ∨ off = 0x01C ∨ off = 0x020 ∨ off = 0x024) ∨
     (off.toNat % 4 = 0 ∧
      ((0x028 ≤ off.toNat ∧ off.toNat < 0x040) ∨ (0x070 ≤ off.toNat ∧ off.toNat < 0x080) ∨
       (0x0C0 ≤ off.toNat ∧ off.toNat < 0x100000)))) →
    step s = .next { s with turns := rest, hostResp := some { ok := true, data := 0 } })

/-- R54, R56, R59, R61, R62, R65, R142, R458: in every state, BUSY = 1 included, STATUS and CTRL read their fields at the
places the spec gives and 0 elsewhere (GO and SRST read 0), CPC, ERR_CPC, ERR_INFO and CMDRET read their registers, and
irq is IE and (DONE or ERRV). -/
def Obligations.StatusAndCtrlReadTheirFields : Prop :=
  ∀ s : State,
    (∃ d, hostRead s 0x00C .w4 = { ok := true, data := d } ∧ (d.getLsbD 0 = true ↔ s.phase = .run) ∧
      d.getLsbD 1 = s.done ∧ d.getLsbD 2 = s.errv ∧ bits d 8 4 = s.errCode ∧
      ∀ b, 3 ≤ b → (b < 8 ∨ 12 ≤ b) → d.getLsbD b = false) ∧
    (∃ d, hostRead s 0x008 .w4 = { ok := true, data := d } ∧ d.getLsbD 1 = s.ie ∧
      ∀ b, b ≠ 1 → d.getLsbD b = false) ∧
    (∃ d, hostRead s 0x010 .w4 = { ok := true, data := d } ∧ d.toNat = s.cpc.toNat) ∧
    (∃ d, hostRead s 0x014 .w4 = { ok := true, data := d } ∧ d.toNat = s.errCpc.toNat) ∧
    hostRead s 0x018 .w4 = { ok := true, data := s.errInfo } ∧
    hostRead s 0x01C .w4 = { ok := true, data := s.cmdret } ∧
    (s.irq = true ↔ s.ie = true ∧ (s.done = true ∨ s.errv = true))

/-- R133, R134, R140, R143: on an idle unit a host access of 1, 2 or 4 bytes, naturally aligned and inside the DMEM
window, gets an OK response and is little-endian. A write stores byte j of the data at the address plus j, for each byte
of its width, and changes nothing else; a 4-byte one is the command word a fetch at that address sees. A read returns
those bytes and changes nothing; that the data bits above a narrow width read 0 is the model's inference (log entry
13). -/
def Obligations.DmemWindowIsLittleEndian : Prop :=
  ∀ (s : State) (off : HostOff) (width : Width) (cut : Nat) (rest : List Turn), s.params.Legal → s.phase = .idle →
    0x100000 ≤ off.toNat → off.toNat % width.bytes = 0 →
    off.toNat + width.bytes ≤ 0x100000 + s.params.dmemSize →
    (∀ data, s.turns = .host (.write off width data) cut :: rest →
      ∃ t, step s = .next t ∧
        t = { s with dmem := t.dmem, turns := rest, hostResp := some { ok := true, data := 0 } } ∧
        (∀ j < width.bytes, (t.dmem.read (off.toNat - 0x100000 + j)).toNat = data.toNat / 2 ^ (8 * j) % 2 ^ 8) ∧
        MemSameOutside (off.toNat - 0x100000) width.bytes s t ∧
        (width = .w4 → t.dmem.readWord (off.toNat - 0x100000) = data)) ∧
    (s.turns = .host (.read off width) cut :: rest →
      ∃ d : Word, step s = .next { s with turns := rest, hostResp := some { ok := true, data := d } } ∧
        (∀ j < width.bytes,
          d.toNat / 2 ^ (8 * j) % 2 ^ 8 = (s.dmem.read (off.toNat - 0x100000 + j)).toNat) ∧
        d.toNat < 2 ^ (8 * width.bytes))

/-- R510, R511, 93 U4 and log entry 7: what either reset leaves of any other command in flight. GFSB: its byte is written
or not. SPLIT: a prefix of its writes in pseudocode order, x-coordinates first, none while gen_x draws. JOIN: a prefix of
the secret. Any other command, one that fails its fetch, its decode or its checks: DMEM is unchanged. -/
def Obligations.ResetCutsOtherCommandsAtAPrefixOfTheirWrites : Prop :=
  ∀ (s t : State) (cut : Nat), s.params.Legal → ResetNext s cut → s.phase = .run → step s = .next t →
    let unchanged := MemSame s t ∧ t.entropy = s.entropy
    let n := s.cfgNat CfgReg.shareN
    let l := s.cfgNat CfgReg.secretLen
    let sb := s.cfgNat CfgReg.secretBase
    (∀ e, fetchDecode s = .error e → unchanged) ∧
    (∀ i, fetchDecode s = .ok i → (∀ rs addr20, i ≠ .gfsb rs addr20) → (∀ rs1, i ≠ .prand rs1) → i ≠ .split →
      i ≠ .join → unchanged) ∧
    (∀ rs1, fetchDecode s = .ok (.prand rs1) → ¬PolyReady s → unchanged) ∧
    (∀ rs addr20, fetchDecode s = .ok (.gfsb rs addr20) →
      unchanged ∨ (addr20.toNat < s.params.dmemSize ∧ t.dmem.read addr20.toNat = s.readF rs ∧
        MemSameOutside addr20.toNat 1 s t ∧ t.entropy = s.entropy)) ∧
    (fetchDecode s = .ok .split →
      (¬SplitReady s → unchanged) ∧
      (SplitReady s → (∀ m, ¬XsDrawn s m) → MemSame s t) ∧
      (∀ m, SplitReady s → XsDrawn s m → ∃ p ≤ n * (l + 1),
        (∀ q < p, t.dmem.read (s.splitWriteAddr q) = s.splitWriteByte t m q) ∧
        ∀ a, (∀ q < p, a ≠ s.splitWriteAddr q) → t.dmem.read a = s.dmem.read a) ∧
      (∃ e, t.entropy = s.entropy.drop e) ∧ (s.rngFromDmem = true → t.entropy = s.entropy)) ∧
    (fetchDecode s = .ok .join →
      t.entropy = s.entropy ∧ (¬JoinReady s → MemSame s t) ∧
      (JoinReady s → ∃ p ≤ l,
        (∀ j < p, t.dmem.read (sb + j) =
          lagrange0 ((List.range (s.cfgNat CfgReg.shareK)).map (fun i => s.dmem.read (s.xaddr i)))
            ((List.range (s.cfgNat CfgReg.shareK)).map (fun i =>
              if sb ≤ s.yaddr i j ∧ s.yaddr i j < sb + j then t.dmem.read (s.yaddr i j)
              else s.dmem.read (s.yaddr i j)))) ∧
        MemSameOutside sb p s t))
end

