-- ==== Sys2Proof/Laws/Memory.lean ====
section
/-! SUPPORT. The laws of DMEM: a read after a write, and that every operation on DMEM keeps its canonical form and its
power-up. -/

namespace Sys2Proof.Machine

theorem findCell_putCell_same (l : List Host.Cell) (a : Nat) (b : Byte) : findCell (putCell l a b) a = some b := by
  induction l with
  | nil => simp [putCell, findCell]
  | cons p rest ih =>
    obtain ⟨k, v⟩ := p
    unfold putCell
    split_ifs with h1 h2
    · simp [findCell]
    · simp [findCell]
    · simpa [findCell, Ne.symm h2] using ih

theorem findCell_putCell_other (l : List Host.Cell) {a a' : Nat} (b : Byte) (h : a' ≠ a) :
    findCell (putCell l a b) a' = findCell l a' := by
  induction l with
  | nil => simp [putCell, findCell, Ne.symm h]
  | cons p rest ih =>
    obtain ⟨k, v⟩ := p
    unfold putCell
    split_ifs with h1 h2
    · simp [findCell, Ne.symm h]
    · subst h2; simp [findCell, Ne.symm h]
    · simp [findCell, ih]

/-- A read of the address just written gives the byte written (R13, R150). -/
@[simp] theorem Dmem.read_write_same (d : Dmem) (a : Nat) (b : Byte) : (d.write a b).read a = b := by
  simp [Dmem.read, Dmem.write, findCell_putCell_same]

/-- A write leaves every other byte alone. -/
theorem Dmem.read_write_other (d : Dmem) {a a' : Nat} (b : Byte) (h : a' ≠ a) :
    (d.write a b).read a' = d.read a' := by
  simp [Dmem.read, Dmem.write, findCell_putCell_other _ _ h]

/-- Reading any byte after one write. -/
theorem Dmem.read_write (d : Dmem) (a a' : Nat) (b : Byte) :
    (d.write a b).read a' = if a' = a then b else d.read a' := by
  split_ifs with h
  · subst h; simp
  · exact d.read_write_other b h

@[simp] theorem Dmem.write_powerUp (d : Dmem) (a : Nat) (b : Byte) : (d.write a b).powerUp = d.powerUp := rfl

/-- The addresses listed after a write are those before it and the one written. -/
theorem mem_putCell {l : List Host.Cell} {a : Nat} {b : Byte} {c : Host.Cell} (h : c ∈ putCell l a b) :
    c.1 = a ∨ c ∈ l := by
  induction l with
  | nil => simp [putCell] at h; simp [h]
  | cons p rest ih =>
    obtain ⟨k, v⟩ := p
    unfold putCell at h
    split_ifs at h with h1 h2
    · rcases List.mem_cons.1 h with h | h
      · exact .inl (by simp [h])
      · exact .inr h
    · rcases List.mem_cons.1 h with h | h
      · exact .inl (by simp [h])
      · exact .inr (List.mem_cons_of_mem _ h)
    · rcases List.mem_cons.1 h with h | h
      · exact .inr (by simp [h])
      · exact (ih h).imp id (List.mem_cons_of_mem _)

/-- Every write keeps the canonical form. -/
theorem Dmem.write_wf {d : Dmem} (h : d.wf) (a : Nat) (b : Byte) : (d.write a b).wf := by
  obtain ⟨pu, l⟩ := d
  simp only [Dmem.wf, Dmem.write] at h ⊢
  induction l with
  | nil => simp [putCell]
  | cons p rest ih =>
    obtain ⟨k, v⟩ := p
    have ⟨hk, hr⟩ := List.pairwise_cons.1 h
    unfold putCell
    split_ifs with h1 h2
    · refine List.pairwise_cons.2 ⟨fun c hc => ?_, h⟩
      rcases List.mem_cons.1 hc with rfl | hc
      · exact h1
      · exact lt_trans h1 (hk c hc)
    · subst h2; exact List.pairwise_cons.2 ⟨hk, hr⟩
    · refine List.pairwise_cons.2 ⟨fun c hc => ?_, ih hr⟩
      rcases mem_putCell hc with hc | hc
      · simp only [hc]; omega
      · exact hk c hc

/-- A write inside DMEM keeps every listed address inside DMEM. -/
theorem Dmem.write_inside {d : Dmem} {n a : Nat} (h : ∀ c ∈ d.cells, c.1 < n) (ha : a < n) (b : Byte) :
    ∀ c ∈ (d.write a b).cells, c.1 < n := by
  intro c hc
  rcases mem_putCell hc with hc | hc
  · simpa [hc] using ha
  · exact h c hc

/-- The host's multi-byte write keeps the canonical form. -/
theorem Dmem.writeBytes_wf {d : Dmem} (h : d.wf) (a : Nat) (w : Word) (n : Nat) : (d.writeBytes a w n).wf := by
  unfold Dmem.writeBytes
  generalize List.range n = l
  induction l generalizing d with
  | nil => exact h
  | cons j rest ih => exact ih (d.write_wf h (a + j) (byteOfWord w j))

/-- The host's multi-byte write inside DMEM keeps every listed address inside DMEM. -/
theorem Dmem.writeBytes_inside {d : Dmem} {size a n : Nat} (h : ∀ c ∈ d.cells, c.1 < size) (ha : a + n ≤ size)
    (w : Word) : ∀ c ∈ (d.writeBytes a w n).cells, c.1 < size := by
  have hl : ∀ j ∈ List.range n, a + j < size := fun j hj => by have := List.mem_range.1 hj; omega
  unfold Dmem.writeBytes
  generalize List.range n = l at hl
  induction l generalizing d with
  | nil => exact h
  | cons j rest ih =>
    exact ih (d.write_inside h (hl j (by simp)) _) (fun i hi => hl i (by simp [hi]))

@[simp] theorem Dmem.writeBytes_powerUp (d : Dmem) (a : Nat) (w : Word) (n : Nat) :
    (d.writeBytes a w n).powerUp = d.powerUp := by
  unfold Dmem.writeBytes
  generalize List.range n = l
  induction l generalizing d with
  | nil => rfl
  | cons j rest ih => simp [ih]

/-- A command's DMEM write is one write. -/
@[simp] theorem Work.write_dmem (w : Work) (a : Nat) (b : Byte) : (w.write a b).dmem = w.dmem.write a b := rfl

/-- Strided writes keep the canonical form. -/
theorem Work.writeStrided_wf {w : Work} (h : w.dmem.wf) (base stride : Nat) (bs : List Byte) :
    (w.writeStrided base stride bs).dmem.wf := by
  induction bs generalizing w base with
  | nil => exact h
  | cons b rest ih => exact ih (w.dmem.write_wf h base b) _

/-- Strided writes change no byte but those at `base + i * stride`. -/
theorem Work.writeStrided_other (w : Work) (base stride : Nat) (bs : List Byte) (a : Nat)
    (h : ∀ i < bs.length, a ≠ base + i * stride) :
    (w.writeStrided base stride bs).dmem.read a = w.dmem.read a := by
  induction bs generalizing w base with
  | nil => rfl
  | cons b rest ih =>
    unfold Work.writeStrided
    rw [ih]
    · exact Dmem.read_write_other _ _ (by simpa using h 0 (by simp))
    · intro i hi
      have := h (i + 1) (by simpa using hi)
      rw [Nat.add_mul] at this; omega

/-- Strided writes with a positive stride put byte `i` at `base + i * stride`. -/
theorem Work.writeStrided_same (w : Work) (base : Nat) {stride : Nat} (hs : 0 < stride) (bs : List Byte) (i : Nat)
    (h : i < bs.length) : (w.writeStrided base stride bs).dmem.read (base + i * stride) = bs.getD i 0 := by
  induction bs generalizing w base i with
  | nil => simp at h
  | cons b rest ih =>
    unfold Work.writeStrided
    cases i with
    | zero =>
      rw [Work.writeStrided_other]
      · simp
      · intro j hj hcon; rw [Nat.zero_mul] at hcon; omega
    | succ i =>
      have := ih (w.write base b) (base + stride) i (by simpa using h)
      rw [show base + (i + 1) * stride = base + stride + i * stride by rw [Nat.add_mul]; omega, this]
      simp

end Sys2Proof.Machine
end

