-- ==== Sys2Proof/Laws/State.lean ====
section
/-! SUPPORT. What each named update of State does to each field: true by rfl, so that no proof unfolds a record update. -/

namespace Sys2Proof.Machine

variable (s : State)

/-! ### writeF -/

@[simp] theorem writeF_cpc (r : RegNum) (v : Byte) : (s.writeF r v).cpc = s.cpc := rfl
@[simp] theorem writeF_ie (r : RegNum) (v : Byte) : (s.writeF r v).ie = s.ie := rfl
@[simp] theorem writeF_phase (r : RegNum) (v : Byte) : (s.writeF r v).phase = s.phase := rfl
@[simp] theorem writeF_done (r : RegNum) (v : Byte) : (s.writeF r v).done = s.done := rfl
@[simp] theorem writeF_errv (r : RegNum) (v : Byte) : (s.writeF r v).errv = s.errv := rfl
@[simp] theorem writeF_errCode (r : RegNum) (v : Byte) : (s.writeF r v).errCode = s.errCode := rfl
@[simp] theorem writeF_errCpc (r : RegNum) (v : Byte) : (s.writeF r v).errCpc = s.errCpc := rfl
@[simp] theorem writeF_errInfo (r : RegNum) (v : Byte) : (s.writeF r v).errInfo = s.errInfo := rfl
@[simp] theorem writeF_cmdret (r : RegNum) (v : Byte) : (s.writeF r v).cmdret = s.cmdret := rfl
@[simp] theorem writeF_cfg (r : RegNum) (v : Byte) : (s.writeF r v).cfg = s.cfg := rfl
@[simp] theorem writeF_dmem (r : RegNum) (v : Byte) : (s.writeF r v).dmem = s.dmem := rfl
@[simp] theorem writeF_params (r : RegNum) (v : Byte) : (s.writeF r v).params = s.params := rfl
@[simp] theorem writeF_entropy (r : RegNum) (v : Byte) : (s.writeF r v).entropy = s.entropy := rfl
@[simp] theorem writeF_turns (r : RegNum) (v : Byte) : (s.writeF r v).turns = s.turns := rfl
@[simp] theorem writeF_hostResp (r : RegNum) (v : Byte) : (s.writeF r v).hostResp = s.hostResp := rfl

/-! ### writeCfg -/

@[simp] theorem writeCfg_f (c : CfgReg) (v : Addr) : (s.writeCfg c v).f = s.f := rfl
@[simp] theorem writeCfg_cpc (c : CfgReg) (v : Addr) : (s.writeCfg c v).cpc = s.cpc := rfl
@[simp] theorem writeCfg_ie (c : CfgReg) (v : Addr) : (s.writeCfg c v).ie = s.ie := rfl
@[simp] theorem writeCfg_phase (c : CfgReg) (v : Addr) : (s.writeCfg c v).phase = s.phase := rfl
@[simp] theorem writeCfg_done (c : CfgReg) (v : Addr) : (s.writeCfg c v).done = s.done := rfl
@[simp] theorem writeCfg_errv (c : CfgReg) (v : Addr) : (s.writeCfg c v).errv = s.errv := rfl
@[simp] theorem writeCfg_errCode (c : CfgReg) (v : Addr) : (s.writeCfg c v).errCode = s.errCode := rfl
@[simp] theorem writeCfg_errCpc (c : CfgReg) (v : Addr) : (s.writeCfg c v).errCpc = s.errCpc := rfl
@[simp] theorem writeCfg_errInfo (c : CfgReg) (v : Addr) : (s.writeCfg c v).errInfo = s.errInfo := rfl
@[simp] theorem writeCfg_cmdret (c : CfgReg) (v : Addr) : (s.writeCfg c v).cmdret = s.cmdret := rfl
@[simp] theorem writeCfg_dmem (c : CfgReg) (v : Addr) : (s.writeCfg c v).dmem = s.dmem := rfl
@[simp] theorem writeCfg_params (c : CfgReg) (v : Addr) : (s.writeCfg c v).params = s.params := rfl
@[simp] theorem writeCfg_entropy (c : CfgReg) (v : Addr) : (s.writeCfg c v).entropy = s.entropy := rfl
@[simp] theorem writeCfg_turns (c : CfgReg) (v : Addr) : (s.writeCfg c v).turns = s.turns := rfl
@[simp] theorem writeCfg_hostResp (c : CfgReg) (v : Addr) : (s.writeCfg c v).hostResp = s.hostResp := rfl

/-! ### raise -/

@[simp] theorem raise_f (e : CmdError) : (raise e s).f = s.f := rfl
@[simp] theorem raise_cpc (e : CmdError) : (raise e s).cpc = s.cpc := rfl
@[simp] theorem raise_ie (e : CmdError) : (raise e s).ie = s.ie := rfl
@[simp] theorem raise_phase (e : CmdError) : (raise e s).phase = .idle := rfl
@[simp] theorem raise_done (e : CmdError) : (raise e s).done = s.done := rfl
@[simp] theorem raise_errv (e : CmdError) : (raise e s).errv = true := rfl
@[simp] theorem raise_errCode (e : CmdError) : (raise e s).errCode = e.code := rfl
@[simp] theorem raise_errCpc (e : CmdError) : (raise e s).errCpc = s.cpc := rfl
@[simp] theorem raise_errInfo (e : CmdError) : (raise e s).errInfo = e.info := rfl
@[simp] theorem raise_cmdret (e : CmdError) : (raise e s).cmdret = s.cmdret := rfl
@[simp] theorem raise_cfg (e : CmdError) : (raise e s).cfg = s.cfg := rfl
@[simp] theorem raise_dmem (e : CmdError) : (raise e s).dmem = s.dmem := rfl
@[simp] theorem raise_params (e : CmdError) : (raise e s).params = s.params := rfl
@[simp] theorem raise_entropy (e : CmdError) : (raise e s).entropy = s.entropy := rfl
@[simp] theorem raise_turns (e : CmdError) : (raise e s).turns = s.turns := rfl
@[simp] theorem raise_hostResp (e : CmdError) : (raise e s).hostResp = s.hostResp := rfl

/-! ### retire -/

@[simp] theorem retire_f : (retire s).f = s.f := rfl
@[simp] theorem retire_cpc : (retire s).cpc = s.cpc + 4 := rfl
@[simp] theorem retire_ie : (retire s).ie = s.ie := rfl
@[simp] theorem retire_phase : (retire s).phase = s.phase := rfl
@[simp] theorem retire_done : (retire s).done = s.done := rfl
@[simp] theorem retire_errv : (retire s).errv = s.errv := rfl
@[simp] theorem retire_errCode : (retire s).errCode = s.errCode := rfl
@[simp] theorem retire_errCpc : (retire s).errCpc = s.errCpc := rfl
@[simp] theorem retire_errInfo : (retire s).errInfo = s.errInfo := rfl
@[simp] theorem retire_cmdret : (retire s).cmdret = s.cmdret + 1 := rfl
@[simp] theorem retire_cfg : (retire s).cfg = s.cfg := rfl
@[simp] theorem retire_dmem : (retire s).dmem = s.dmem := rfl
@[simp] theorem retire_params : (retire s).params = s.params := rfl
@[simp] theorem retire_entropy : (retire s).entropy = s.entropy := rfl
@[simp] theorem retire_turns : (retire s).turns = s.turns := rfl
@[simp] theorem retire_hostResp : (retire s).hostResp = s.hostResp := rfl

/-! ### go -/

@[simp] theorem go_f : (go s).f = s.f := rfl
@[simp] theorem go_cpc : (go s).cpc = s.cpc := rfl
@[simp] theorem go_ie : (go s).ie = s.ie := rfl
@[simp] theorem go_phase : (go s).phase = .run := rfl
@[simp] theorem go_done : (go s).done = false := rfl
@[simp] theorem go_errv : (go s).errv = false := rfl
@[simp] theorem go_errCode : (go s).errCode = 0 := rfl
@[simp] theorem go_errCpc : (go s).errCpc = 0 := rfl
@[simp] theorem go_errInfo : (go s).errInfo = 0 := rfl
@[simp] theorem go_cmdret : (go s).cmdret = 0 := rfl
@[simp] theorem go_cfg : (go s).cfg = s.cfg := rfl
@[simp] theorem go_dmem : (go s).dmem = s.dmem := rfl
@[simp] theorem go_params : (go s).params = s.params := rfl
@[simp] theorem go_entropy : (go s).entropy = s.entropy := rfl
@[simp] theorem go_turns : (go s).turns = s.turns := rfl
@[simp] theorem go_hostResp : (go s).hostResp = s.hostResp := rfl

/-! ### commit -/

@[simp] theorem commit_f (w : Work) : (commit s w).f = s.f := rfl
@[simp] theorem commit_cpc (w : Work) : (commit s w).cpc = s.cpc := rfl
@[simp] theorem commit_ie (w : Work) : (commit s w).ie = s.ie := rfl
@[simp] theorem commit_phase (w : Work) : (commit s w).phase = s.phase := rfl
@[simp] theorem commit_done (w : Work) : (commit s w).done = s.done := rfl
@[simp] theorem commit_errv (w : Work) : (commit s w).errv = s.errv := rfl
@[simp] theorem commit_errCode (w : Work) : (commit s w).errCode = s.errCode := rfl
@[simp] theorem commit_errCpc (w : Work) : (commit s w).errCpc = s.errCpc := rfl
@[simp] theorem commit_errInfo (w : Work) : (commit s w).errInfo = s.errInfo := rfl
@[simp] theorem commit_cmdret (w : Work) : (commit s w).cmdret = s.cmdret := rfl
@[simp] theorem commit_dmem (w : Work) : (commit s w).dmem = w.dmem := rfl
@[simp] theorem commit_params (w : Work) : (commit s w).params = s.params := rfl
@[simp] theorem commit_entropy (w : Work) : (commit s w).entropy = w.entropy := rfl
@[simp] theorem commit_turns (w : Work) : (commit s w).turns = s.turns := rfl
@[simp] theorem commit_hostResp (w : Work) : (commit s w).hostResp = s.hostResp := rfl

end Sys2Proof.Machine
end

