-- ==== Sys2Proof/Laws/Ops.lean ====
section
/-! SUPPORT. The laws of the shared operations: registers, checks, draws and the ways a command ends. Each says once
what its operation can do; proofs cite these and do not unfold the operation. -/

namespace Sys2Proof.Machine

/-! ### Registers -/

/-- F[r] after a write of F[r] (R13). -/
@[simp] theorem readF_writeF_same (s : State) (r : RegNum) (v : Byte) : (s.writeF r v).readF r = v := by
  simp [State.readF, State.writeF]

/-- A write of F[r] leaves every other field register alone. -/
theorem readF_writeF_other (s : State) {r r' : RegNum} (v : Byte) (h : r' ≠ r) :
    (s.writeF r v).readF r' = s.readF r' := by
  have : r.toNat ≠ r'.toNat := fun e => h (BitVec.eq_of_toNat_eq e.symm)
  simp [State.readF, State.writeF, Vector.getElem_set_ne, this]

@[simp] theorem readCfg_writeF (s : State) (r : RegNum) (v : Byte) (c : CfgReg) :
    (s.writeF r v).readCfg c = s.readCfg c := rfl

@[simp] theorem readF_writeCfg (s : State) (c : CfgReg) (v : Addr) (r : RegNum) :
    (s.writeCfg c v).readF r = s.readF r := rfl

/-- What a configuration register keeps, it keeps again: MODE's upper bits stay 0. -/
@[simp] theorem cfgKept_cfgKept (c : CfgReg) (v : Addr) : cfgKept c (cfgKept c v) = cfgKept c v := by
  unfold cfgKept; split_ifs
  · rw [BitVec.and_assoc]; rfl
  · rfl

/-- CFG[c] after a write of CFG[c]: what the register keeps of the value (R66-R68). -/
@[simp] theorem readCfg_writeCfg_same (s : State) (c : CfgReg) (v : Addr) :
    (s.writeCfg c v).readCfg c = cfgKept c v := by
  simp [State.readCfg, State.writeCfg]

/-- A write of CFG[c] leaves every other configuration register alone. -/
theorem readCfg_writeCfg_other (s : State) {c d : CfgReg} (v : Addr) (h : d ≠ c) :
    (s.writeCfg c v).readCfg d = s.readCfg d := by
  have : c.val ≠ d.val := fun e => h (Fin.ext e.symm)
  simp [State.readCfg, State.writeCfg, Vector.getElem_set_ne, this]

/-! ### Retirement, errors, GO: what they leave readable -/

@[simp] theorem readF_retire (s : State) (r : RegNum) : (retire s).readF r = s.readF r := rfl

@[simp] theorem readCfg_retire (s : State) (c : CfgReg) : (retire s).readCfg c = s.readCfg c := rfl

@[simp] theorem readF_raise (e : CmdError) (s : State) (r : RegNum) : (raise e s).readF r = s.readF r := rfl

@[simp] theorem readCfg_raise (e : CmdError) (s : State) (c : CfgReg) : (raise e s).readCfg c = s.readCfg c := rfl

@[simp] theorem readF_commit (s : State) (w : Work) (r : RegNum) : (commit s w).readF r = s.readF r := rfl

/-- A command's work touches no configuration register but RNG_PTR (R412). -/
theorem readCfg_commit_other (s : State) (w : Work) {c : CfgReg} (h : c ≠ CfgReg.rngPtr) :
    (commit s w).readCfg c = s.readCfg c := by
  have : CfgReg.rngPtr.val ≠ c.val := fun e => h (Fin.ext e.symm)
  simp only [State.readCfg, commit]
  rw [Vector.getElem_set_ne _ _ this]

@[simp] theorem readCfg_commit_rngPtr (s : State) (w : Work) : (commit s w).readCfg CfgReg.rngPtr = w.rngPtr := by
  simp only [State.readCfg, commit, Vector.getElem_set_self]
  exact if_neg (by decide)

/-- The work a command starts with, put back unchanged, changes nothing. -/
@[simp] theorem commit_ofState (s : State) : commit s (Work.ofState s) = s := by
  have hne : CfgReg.rngPtr ≠ CfgReg.mode := by decide
  have h : s.readCfg CfgReg.rngPtr = s.cfg[CfgReg.rngPtr.val] := by
    simp only [State.readCfg, cfgKept, if_neg hne]
  have hset : s.cfg.set CfgReg.rngPtr.val (s.readCfg CfgReg.rngPtr) = s.cfg := by
    rw [h]; exact Vector.set_getElem_self _
  simp only [commit, Work.ofState, hset]

/-! ### Checks -/

/-- check_region finds nothing exactly when the region fits (R135). -/
theorem checkRegion_eq_none {s : State} {base len : Nat} :
    checkRegion s base len = none ↔ len = 0 ∨ base + len ≤ s.params.dmemSize := by
  unfold checkRegion; split_ifs with h <;> simp <;> omega

/-- The only error check_region raises (R135). -/
theorem checkRegion_eq_some {s : State} {base len : Nat} {e : CmdError} :
    checkRegion s base len = some e ↔
      (0 < len ∧ s.params.dmemSize < base + len) ∧ e = .region (max base s.params.dmemSize) := by
  unfold checkRegion; split_ifs with h <;> simp [h, eq_comm]

@[simp] theorem firstError_nil : firstError [] = none := rfl

@[simp] theorem firstError_some (e : CmdError) (l : List (Option CmdError)) : firstError (some e :: l) = some e := rfl

@[simp] theorem firstError_none (l : List (Option CmdError)) : firstError (none :: l) = firstError l := rfl

/-- The checks find nothing exactly when none of them does. -/
theorem firstError_eq_none {l : List (Option CmdError)} : firstError l = none ↔ ∀ c ∈ l, c = none := by
  induction l with
  | nil => simp
  | cons c rest ih => cases c <;> simp [ih]

@[simp] theorem check_true (e : CmdError) : check true e = some e := rfl

@[simp] theorem check_false (e : CmdError) : check false e = none := rfl

/-! ### Draws -/

/-- All that draw() can do (R412, R413). -/
theorem Work.draw_cases (w : Work) :
    (w.fromDmem = true ∧ w.size ≤ w.rngPtr.toNat ∧ w.draw = .error (.error (.rng w.rngPtr))) ∨
    (w.fromDmem = true ∧ w.rngPtr.toNat < w.size ∧
      w.draw = .ok (w.dmem.read w.rngPtr.toNat, { w with rngPtr := w.rngPtr + 1 })) ∨
    (w.fromDmem = false ∧ w.entropy = [] ∧ w.draw = .error .waitEntropy) ∨
    (∃ b rest, w.fromDmem = false ∧ w.entropy = b :: rest ∧
      w.draw = .ok (b, { w with entropy := rest, log := .take :: w.log })) := by
  unfold Work.draw
  cases hf : w.fromDmem with
  | true =>
    by_cases h : w.size ≤ w.rngPtr.toNat
    · simp [h]
    · simp [h]; omega
  | false =>
    cases he : w.entropy with
    | nil => simp
    | cons b rest => simp

/-- A command that starts has taken no byte. -/
@[simp] theorem Work.tookByte_ofState (s : State) : (Work.ofState s).tookByte = false := rfl

/-- A DMEM write takes no byte. -/
@[simp] theorem Work.tookByte_write (w : Work) (a : Nat) (b : Byte) : (w.write a b).tookByte = w.tookByte := by
  simp [Work.tookByte, Work.write]

/-- A draw takes a byte from the entropy port exactly when RNGSRC is 0 (R411, R413). -/
theorem Work.tookByte_draw {w w' : Work} {b : Byte} (h : w.draw = .ok (b, w')) :
    w'.tookByte = (w.tookByte || !w.fromDmem) := by
  unfold Work.draw at h
  split_ifs at h with hd hs
  · cases h; simp [Work.tookByte, hd]
  · split at h
    · cases h
    · cases h; simp [Work.tookByte, hd]

/-- A draw leaves DMEM, its bounds and its source as they are. -/
theorem Work.draw_frame {w w' : Work} {b : Byte} (h : w.draw = .ok (b, w')) :
    w'.dmem = w.dmem ∧ w'.size = w.size ∧ w'.fromDmem = w.fromDmem := by
  rcases w.draw_cases with ⟨_, _, e⟩ | ⟨_, _, e⟩ | ⟨_, _, e⟩ | ⟨_, _, _, _, e⟩ <;> rw [e] at h <;> cases h <;> simp

/-- Draws write no DMEM byte, whether they all come or not. -/
theorem Work.drawMany_frame (n : Nat) (w : Work) :
    (w.drawMany n).1.dmem = w.dmem ∧ (w.drawMany n).1.size = w.size ∧ (w.drawMany n).1.fromDmem = w.fromDmem := by
  induction n generalizing w with
  | zero => simp [Work.drawMany]
  | succ n ih =>
    unfold Work.drawMany
    cases hd : w.draw with
    | error e => simp
    | ok p =>
      obtain ⟨b, w1⟩ := p
      have hf := Work.draw_frame hd
      have h1 := ih w1
      cases hm : w1.drawMany n with
      | mk w2 r => rw [hm] at h1; cases r <;> simp_all

/-- Draws that all come are as many as were asked for. -/
theorem Work.drawMany_length {n : Nat} {w w' : Work} {bs : List Byte} (h : w.drawMany n = (w', .ok bs)) :
    bs.length = n := by
  induction n generalizing w w' bs with
  | zero => simp only [Work.drawMany, Prod.mk.injEq, Except.ok.injEq] at h; simp [← h.2]
  | succ n ih =>
    unfold Work.drawMany at h
    cases hd : w.draw with
    | error e => simp [hd] at h
    | ok p =>
      obtain ⟨b, w1⟩ := p
      simp only [hd] at h
      cases hm : w1.drawMany n with
      | mk w2 r => cases r with
        | error e => simp [hm] at h
        | ok cs =>
          simp only [hm, Prod.mk.injEq, Except.ok.injEq] at h
          simp [← h.2, ih hm]

/-! ### How a command that worked on DMEM ends -/

/-- All that `finish` can do: retire, record the error, or stay. -/
theorem finish_cases (s : State) (r : Work × Except Stop Unit) :
    (r.2 = .ok () ∧ finish s r = .next (retire (commit s r.1))) ∨
    (∃ e, r.2 = .error (.error e) ∧ finish s r = .next (raise e (commit s r.1))) ∨
    ((r.2 = .error .waitEntropy ∨ r.2 = .error .drawsForever) ∧ finish s r = .next s) := by
  obtain ⟨w, x⟩ := r
  cases x with
  | ok u => exact .inl ⟨rfl, rfl⟩
  | error e => cases e with
    | error e => exact .inr (.inl ⟨e, rfl, rfl⟩)
    | waitEntropy => exact .inr (.inr ⟨.inl rfl, rfl⟩)
    | drawsForever => exact .inr (.inr ⟨.inr rfl, rfl⟩)

/-- Every ERRCODE is one of R451's, and none is 0. -/
theorem CmdError.code_range (e : CmdError) : 1 ≤ e.code.toNat ∧ e.code.toNat ≤ 6 := by
  cases e <;> simp [CmdError.code]

/-- ERR_INFO's reserved bits [27:24] are 0 for every code but ILLEGAL (R62). -/
theorem errInfoWord_reserved (sub value : Nat) : bits (errInfoWord sub value) 24 4 = 0 := by
  ext i hi
  have h : i = 0 ∨ i = 1 ∨ i = 2 ∨ i = 3 := by omega
  rcases h with rfl | rfl | rfl | rfl <;> simp [bits, errInfoWord, fieldAt]

end Sys2Proof.Machine
end

