-- ==== Sys2Proof/Laws/PerInstr.lean ====
section
/-! SUPPORT. One law of every command as syntax: the word it is encoded as equals its row's match on its row's mask
(R199), whatever its operands. -/

namespace Sys2Proof.Laws.EncodeMatches

/-- The mask and match of a command's row in R199. -/
def row : Instr → Word × Word
  | .halt => (0xFFFFFFFF, 0x00000000)
  | .nop => (0xFFFFFFFF, 0x01000000)
  | .gfadd _ _ _ => (0xFF000FFF, 0x10000000)
  | .gfmul _ _ _ => (0xFF000FFF, 0x11000000)
  | .gfinv _ _ => (0xFF00FFFF, 0x12000000)
  | .gfdiv _ _ _ => (0xFF000FFF, 0x13000000)
  | .gfli _ _ => (0xFF0FFF00, 0x14000000)
  | .gfmov _ _ => (0xFF00FFFF, 0x15000000)
  | .gflb _ _ => (0xFF000000, 0x20000000)
  | .gfsb _ _ => (0xFF000000, 0x21000000)
  | .setcfg _ _ => (0xFF000000, 0x30000000)
  | .prand _ => (0xFFF0FFFF, 0x40000000)
  | .peval _ _ => (0xFF00FFFF, 0x41000000)
  | .lagr0 _ => (0xFF0FFFFF, 0x42000000)
  | .split => (0xFFFFFFFF, 0x50000000)
  | .join => (0xFFFFFFFF, 0x51000000)

/-- The encoded word has its row's fixed bits. -/
def Statement (i : Instr) : Prop := encode i &&& (row i).1 = (row i).2

/-- A field leaves a mask's bits alone when they share none. -/
theorem fieldAt_and {n lo : Nat} (v : BitVec n) (mask : Word)
    (h : (BitVec.allOnes n).setWidth 32 <<< lo &&& mask = 0) : fieldAt v lo &&& mask = 0 := by
  apply BitVec.eq_of_getLsbD_eq
  intro i hi
  have hb := congrArg (fun w => w.getLsbD i) h
  simp only [fieldAt, BitVec.getLsbD_and, BitVec.getLsbD_shiftLeft, BitVec.getLsbD_setWidth,
    BitVec.getLsbD_allOnes] at hb ⊢
  by_cases hv : i - lo < n
  · have h0 : (0 : Word).getLsbD i = false := by simp
    rw [h0] at hb ⊢
    simp only [hv, decide_true, Bool.and_true] at hb
    cases hm : mask.getLsbD i <;> simp_all
  · rw [BitVec.getLsbD_of_ge v _ (by omega)]; simp

theorem or_and (a b m : Word) : (a ||| b) &&& m = (a &&& m) ||| (b &&& m) := BitVec.and_or_distrib_right ..

theorem halt : Statement .halt := by simp only [Statement]; decide

theorem nop : Statement .nop := by simp only [Statement]; decide

theorem gfadd (rd rs1 rs2 : RegNum) : Statement (.gfadd rd rs1 rs2) := by
  simp only [Statement, encode, row, or_and]
  rw [fieldAt_and rd _ (by decide), fieldAt_and rs1 _ (by decide), fieldAt_and rs2 _ (by decide)]; decide

theorem gfmul (rd rs1 rs2 : RegNum) : Statement (.gfmul rd rs1 rs2) := by
  simp only [Statement, encode, row, or_and]
  rw [fieldAt_and rd _ (by decide), fieldAt_and rs1 _ (by decide), fieldAt_and rs2 _ (by decide)]; decide

theorem gfinv (rd rs1 : RegNum) : Statement (.gfinv rd rs1) := by
  simp only [Statement, encode, row, or_and]
  rw [fieldAt_and rd _ (by decide), fieldAt_and rs1 _ (by decide)]; decide

theorem gfdiv (rd rs1 rs2 : RegNum) : Statement (.gfdiv rd rs1 rs2) := by
  simp only [Statement, encode, row, or_and]
  rw [fieldAt_and rd _ (by decide), fieldAt_and rs1 _ (by decide), fieldAt_and rs2 _ (by decide)]; decide

theorem gfli (rd : RegNum) (imm8 : Byte) : Statement (.gfli rd imm8) := by
  simp only [Statement, encode, row, or_and]
  rw [fieldAt_and rd _ (by decide), fieldAt_and imm8 _ (by decide)]; decide

theorem gfmov (rd rs1 : RegNum) : Statement (.gfmov rd rs1) := by
  simp only [Statement, encode, row, or_and]
  rw [fieldAt_and rd _ (by decide), fieldAt_and rs1 _ (by decide)]; decide

theorem gflb (rd : RegNum) (addr20 : Addr) : Statement (.gflb rd addr20) := by
  simp only [Statement, encode, row, or_and]
  rw [fieldAt_and rd _ (by decide), fieldAt_and addr20 _ (by decide)]; decide

theorem gfsb (rs : RegNum) (addr20 : Addr) : Statement (.gfsb rs addr20) := by
  simp only [Statement, encode, row, or_and]
  rw [fieldAt_and rs _ (by decide), fieldAt_and addr20 _ (by decide)]; decide

theorem setcfg (cfg : BitVec 4) (imm20 : Addr) : Statement (.setcfg cfg imm20) := by
  simp only [Statement, encode, row, or_and]
  rw [fieldAt_and cfg _ (by decide), fieldAt_and imm20 _ (by decide)]; decide

theorem prand (rs1 : RegNum) : Statement (.prand rs1) := by
  simp only [Statement, encode, row, or_and]
  rw [fieldAt_and rs1 _ (by decide)]; decide

theorem peval (rd rs1 : RegNum) : Statement (.peval rd rs1) := by
  simp only [Statement, encode, row, or_and]
  rw [fieldAt_and rd _ (by decide), fieldAt_and rs1 _ (by decide)]; decide

theorem lagr0 (rd : RegNum) : Statement (.lagr0 rd) := by
  simp only [Statement, encode, row, or_and]
  rw [fieldAt_and rd _ (by decide)]; decide

theorem split : Statement .split := by simp only [Statement]; decide

theorem join : Statement .join := by simp only [Statement]; decide

end Sys2Proof.Laws.EncodeMatches
end

