-- ==== Sys2Proof/Laws/Sequences.lean ====
section
/-! SUPPORT. The laws of the loops inside PRAND, SPLIT and JOIN: what point validation finds, that each loop keeps DMEM's
canonical form, and which bytes it leaves alone. -/

namespace Sys2Proof.Machine

/-! ### Point validation (R304) -/

/-- check_points finds nothing exactly when no x is a forbidden zero and none repeats. -/
theorem checkPointsFrom_eq_none {nz : Bool} {seen l : List Byte} {i : Nat} :
    checkPointsFrom nz seen l i = none ↔
      (nz = true → ∀ x ∈ l, x ≠ 0) ∧ l.Nodup ∧ ∀ x ∈ l, x ∉ seen := by
  induction l generalizing seen i with
  | nil => simp [checkPointsFrom]
  | cons x rest ih =>
    unfold checkPointsFrom
    split_ifs with h1 h2
    · simp [h1.1, h1.2]
    · simp [h2]
    · rw [ih]
      constructor
      · rintro ⟨hz, hn, hs⟩
        refine ⟨fun hnz y hy => ?_, List.nodup_cons.2 ⟨fun hx => hs x hx (by simp), hn⟩, fun y hy => ?_⟩
        · rcases List.mem_cons.1 hy with rfl | hy
          · exact fun h0 => h1 ⟨hnz, h0⟩
          · exact hz hnz y hy
        · rcases List.mem_cons.1 hy with rfl | hy
          · exact h2
          · exact fun hm => hs y hy (List.mem_cons_of_mem _ hm)
      · rintro ⟨hz, hn, hs⟩
        have ⟨hx, hn⟩ := List.nodup_cons.1 hn
        refine ⟨fun hnz y hy => hz hnz y (List.mem_cons_of_mem _ hy), hn, fun y hy hm => ?_⟩
        rcases List.mem_cons.1 hm with rfl | hm
        · exact hx hy
        · exact hs y (List.mem_cons_of_mem _ hy) hm

/-- check_points over a whole list (R304). -/
theorem checkPoints_eq_none {nz : Bool} {l : List Byte} :
    checkPoints nz l = none ↔ (nz = true → ∀ x ∈ l, x ≠ 0) ∧ l.Nodup := by
  simp [checkPoints, checkPointsFrom_eq_none]

/-- The error check_points raises is at the first index where it finds one: the x-coordinates before it pass. -/
theorem checkPointsFrom_eq_some {nz : Bool} {seen l : List Byte} {i : Nat} {e : CmdError}
    (h : checkPointsFrom nz seen l i = some e) :
    ∃ k, ∃ hk : k < l.length, checkPointsFrom nz seen (l.take k) i = none ∧
      ((e = .zeroX (i + k) ∧ nz = true ∧ l[k] = 0) ∨
       (e = .dupX (i + k) ∧ ¬(nz = true ∧ l[k] = 0) ∧ (l[k] ∈ seen ∨ l[k] ∈ l.take k))) := by
  induction l generalizing seen i with
  | nil => simp [checkPointsFrom] at h
  | cons x rest ih =>
    unfold checkPointsFrom at h
    split_ifs at h with h1 h2
    · cases h; exact ⟨0, by simp, rfl, .inl ⟨rfl, h1⟩⟩
    · cases h; exact ⟨0, by simp, rfl, .inr ⟨rfl, h1, .inl h2⟩⟩
    · obtain ⟨k, hk, hp, hc⟩ := ih h
      refine ⟨k + 1, by simpa using hk, ?_, ?_⟩
      · rw [List.take_succ_cons, checkPointsFrom, if_neg h1, if_neg h2]; exact hp
      · rw [show i + (k + 1) = i + 1 + k by omega]
        simp only [List.getElem_cons_succ, List.take_succ_cons, List.mem_cons] at hc ⊢
        tauto

/-! ### The strided reads -/

@[simp] theorem Dmem.readStrided_length (d : Dmem) (base stride n : Nat) :
    (d.readStrided base stride n).length = n := by simp [Dmem.readStrided]

@[simp] theorem Dmem.readStrided_getElem (d : Dmem) (base stride n i : Nat)
    (h : i < (d.readStrided base stride n).length) :
    (d.readStrided base stride n)[i] = d.read (base + i * stride) := by simp [Dmem.readStrided]

/-! ### PRAND's loop -/

/-- PRAND's loop keeps the canonical form. -/
theorem drawInto_wf {n : Nat} {w : Work} (h : w.dmem.wf) (a : Nat) : (drawInto n w a).1.dmem.wf := by
  induction n generalizing w a with
  | zero => exact h
  | succ n ih =>
    unfold drawInto
    cases hd : w.draw with
    | error e => exact h
    | ok p =>
      obtain ⟨b, w1⟩ := p
      refine ih ?_ _
      rw [Work.write_dmem, (Work.draw_frame hd).1]
      exact w.dmem.write_wf h a b

/-- PRAND's loop writes only the `n` bytes from `a` on. -/
theorem drawInto_other {n : Nat} {w : Work} {a a' : Nat} (h : a' < a ∨ a + n ≤ a') :
    (drawInto n w a).1.dmem.read a' = w.dmem.read a' := by
  induction n generalizing w a with
  | zero => rfl
  | succ n ih =>
    unfold drawInto
    cases hd : w.draw with
    | error e => rfl
    | ok p =>
      obtain ⟨b, w1⟩ := p
      have hf := (Work.draw_frame hd).1
      simp only
      rw [ih (by omega), Work.write_dmem, hf]
      exact Dmem.read_write_other _ _ (by omega)

/-! ### SPLIT's loops -/

/-- gen_x's draws write no DMEM byte. -/
theorem drawDistinct_frame (fuel : Nat) (w : Work) (need : Nat) (xs : List Byte) :
    (drawDistinct fuel w need xs).1.dmem = w.dmem := by
  induction fuel generalizing w need xs with
  | zero => cases need <;> rfl
  | succ fuel ih =>
    cases need with
    | zero => rfl
    | succ need =>
      unfold drawDistinct
      cases hd : w.draw with
      | error e => rfl
      | ok p =>
        obtain ⟨b, w1⟩ := p
        simp only
        split_ifs <;> rw [ih, (Work.draw_frame hd).1]

/-- gen_x writes no DMEM byte (R352). -/
theorem genX_frame (s : State) (w : Work) : (genX s w).1.dmem = w.dmem := by
  unfold genX
  simp only
  split_ifs
  · rfl
  · split <;> rfl
  · exact drawDistinct_frame _ _ _ _

/-- SPLIT's loop keeps the canonical form. -/
theorem splitBytes_wf {sb hb stride k : Nat} {xs : List Byte} {n j : Nat} {w : Work} (h : w.dmem.wf) :
    (splitBytes sb hb stride k xs n j w).1.dmem.wf := by
  induction n generalizing j w with
  | zero => exact h
  | succ n ih =>
    unfold splitBytes
    have hf := (Work.drawMany_frame (k - 1) w).1
    cases hm : w.drawMany (k - 1) with
    | mk w1 r =>
      rw [hm] at hf
      simp only at hf
      cases r with
      | error e => simpa only [hf] using h
      | ok cs => exact ih (Work.writeStrided_wf (by rw [hf]; exact h) _ _ _)

/-- SPLIT's loop over `n` bytes from `j` on writes only y-values: the bytes at `hb + 1 + j' + i * stride`. -/
theorem splitBytes_other {sb hb stride k : Nat} {xs : List Byte} {n j : Nat} {w : Work} {a : Nat}
    (h : ∀ j', j ≤ j' → j' < j + n → ∀ i < xs.length, a ≠ hb + 1 + j' + i * stride) :
    (splitBytes sb hb stride k xs n j w).1.dmem.read a = w.dmem.read a := by
  induction n generalizing j w with
  | zero => rfl
  | succ n ih =>
    unfold splitBytes
    have hf := (Work.drawMany_frame (k - 1) w).1
    cases hm : w.drawMany (k - 1) with
    | mk w1 r =>
      rw [hm] at hf
      simp only at hf
      cases r with
      | error e => simp only [hf]
      | ok cs =>
        simp only
        rw [ih (fun j' h1 h2 => h j' (by omega) (by omega)), Work.writeStrided_other, hf]
        intro i hi
        exact h j (by omega) (by omega) i (by simpa using hi)

/-! ### JOIN's loop -/

/-- JOIN's loop keeps the canonical form. -/
theorem joinBytes_wf {sb hb stride : Nat} {xs : List Byte} {n j : Nat} {w : Work} (h : w.dmem.wf) :
    (joinBytes sb hb stride xs n j w).dmem.wf := by
  induction n generalizing j w with
  | zero => exact h
  | succ n ih => exact ih (w.dmem.write_wf h _ _)

/-- JOIN's loop over `n` bytes from `j` on writes only those secret bytes. -/
theorem joinBytes_other {sb hb stride : Nat} {xs : List Byte} {n j : Nat} {w : Work} {a : Nat}
    (h : a < sb + j ∨ sb + j + n ≤ a) : (joinBytes sb hb stride xs n j w).dmem.read a = w.dmem.read a := by
  induction n generalizing j w with
  | zero => rfl
  | succ n ih =>
    unfold joinBytes
    rw [ih (by omega)]
    exact Dmem.read_write_other _ _ (by omega)

end Sys2Proof.Machine
end

