-- ==== Sys2Proof/Machine/Assembler.lean ====
section
/-! DEFINITION. The assembler's text (R205, R206) and the pseudo-instructions (R207): from lines of characters to the
DMEM bytes the host loads. No command of the machine depends on it (D37). -/

namespace Sys2Proof.Machine

/-- A run of characters: a line, a name, an operand. -/
abbrev Text := List Char

/-- Why a source line is refused; no operand is ever truncated (R205). -/
inductive AsmError where
  | unknownMnemonic
  | wrongOperands
  | badRegister
  | badConfigName
  | badValue
  | outOfRange
  | misalignedCommand
deriving DecidableEq, Repr

/-! ### Commands and pseudo-instructions -/

/-- What a source line may ask for: a real command, or a pseudo-instruction of R207. -/
inductive AsmCommand where
  | real (i : Instr)
  | gfsub (rd rs1 rs2 : RegNum)
  | gfxor (rd rs1 rs2 : RegNum)
  | gfclr (rd : RegNum)
  | gfsqr (rd rs : RegNum)
  | splitNk (n k : Addr)
  | joinK (k : Addr)
deriving DecidableEq, Repr

/-- The expansions of R207. -/
def AsmCommand.expand : AsmCommand → List Instr
  | .real i => [i]
  | .gfsub rd rs1 rs2 => [.gfadd rd rs1 rs2]
  | .gfxor rd rs1 rs2 => [.gfadd rd rs1 rs2]
  | .gfclr rd => [.gfadd rd rd rd]
  | .gfsqr rd rs => [.gfmul rd rs rs]
  | .splitNk n k => [.setcfg 3 n, .setcfg 4 k, .split]
  | .joinK k => [.setcfg 3 k, .setcfg 4 k, .join]

/-! ### Reading operands -/

/-- Mnemonics, register names and hex digits are case-insensitive (R205). -/
def lower (t : Text) : Text := t.map Char.toLower

/-- A blank between tokens. -/
def isBlank (c : Char) : Bool := c == ' ' || c == '\t' || c == '\r'

/-- A text without the blanks at its two ends. -/
def trim (t : Text) : Text := ((t.dropWhile isBlank).reverse.dropWhile isBlank).reverse

/-- A text cut at every `sep`. -/
def cutAt (sep : Char) : Text → List Text
  | [] => [[]]
  | c :: rest =>
    match cutAt sep rest with
    | [] => [[c]]
    | t :: ts => if c = sep then [] :: t :: ts else (c :: t) :: ts

/-- The value of a digit, in hex or below. -/
def digitValue (c : Char) : Option Nat :=
  if '0' ≤ c ∧ c ≤ '9' then some (c.toNat - '0'.toNat)
  else if 'a' ≤ c ∧ c ≤ 'f' then some (c.toNat - 'a'.toNat + 10)
  else none

/-- The value of digits in a base, after `acc`. -/
def digitsValue (base : Nat) : (acc : Nat) → Text → Option Nat
  | acc, [] => some acc
  | acc, c :: rest =>
    match digitValue c with
    | none => none
    | some d => if d < base then digitsValue base (acc * base + d) rest else none

/-- A number: decimal, or hex after 0x (R205). -/
def numberValue (t : Text) : Option Nat :=
  match lower t with
  | '0' :: 'x' :: d :: ds => digitsValue 16 0 (d :: ds)
  | d :: ds => digitsValue 10 0 (d :: ds)
  | [] => none

/-- A label's name and the DMEM address it stands for (R205). -/
abbrev Label := Text × Nat

/-- A number, or the address a label stands for. A label defined twice, of which R205 is silent, stands for its first
definition (DESIGN CHOICE, log entry 15). -/
def valueOf (labels : List Label) (t : Text) : Except AsmError Nat :=
  match numberValue t with
  | some n => .ok n
  | none =>
    match labels.find? (fun l => l.1 == t) with
    | some l => .ok l.2
    | none => .error .badValue

/-- A value that must fit `n` bits; outside its range it is an error, never truncated (R205). -/
def immediate (n : Nat) (labels : List Label) (t : Text) : Except AsmError (BitVec n) :=
  match valueOf labels t with
  | .error e => .error e
  | .ok v => if v < 2 ^ n then .ok (BitVec.ofNat n v) else .error .outOfRange

/-- A register name f0 .. f15 (R205). -/
def register (t : Text) : Except AsmError RegNum :=
  match lower t with
  | 'f' :: d :: ds =>
    match digitsValue 10 0 (d :: ds) with
    | some n => if n < 16 then .ok (BitVec.ofNat 4 n) else .error .badRegister
    | none => .error .badRegister
  | _ => .error .badRegister

/-- The names of the configuration registers, index 0 first (R205). -/
def configNames : List Text :=
  [['s', 'e', 'c', 'r', 'e', 't', '_', 'b', 'a', 's', 'e'], ['s', 'e', 'c', 'r', 'e', 't', '_', 'l', 'e', 'n'],
   ['s', 'h', 'a', 'r', 'e', '_', 'b', 'a', 's', 'e'], ['s', 'h', 'a', 'r', 'e', '_', 'n'],
   ['s', 'h', 'a', 'r', 'e', '_', 'k'], ['p', 'o', 'l', 'y', '_', 'b', 'a', 's', 'e'],
   ['p', 'o', 'l', 'y', '_', 'l', 'e', 'n'], ['x', 's', '_', 'b', 'a', 's', 'e'],
   ['y', 's', '_', 'b', 'a', 's', 'e'], ['p', 't', '_', 'c', 'o', 'u', 'n', 't'],
   ['r', 'n', 'g', '_', 'p', 't', 'r'], ['m', 'o', 'd', 'e']]

/-- A configuration register's name or its index, 0 to 11 (R205). -/
def configIndex (t : Text) : Except AsmError (BitVec 4) :=
  match configNames.findIdx? (fun name => name == t) with
  | some i => .ok (BitVec.ofNat 4 i)
  | none =>
    match numberValue t with
    | some i => if i < 12 then .ok (BitVec.ofNat 4 i) else .error .badConfigName
    | none => .error .badConfigName

/-! ### Reading a command -/

/-- The operands of one line. -/
abbrev OperandReader := List Label → List Text → Except AsmError AsmCommand

/-- No operand. -/
def readNone (c : AsmCommand) : OperandReader := fun _ ops => if ops = [] then .ok c else .error .wrongOperands

/-- One register. -/
def readR (c : RegNum → AsmCommand) : OperandReader
  | _, [a] => (register a).map c
  | _, _ => .error .wrongOperands

/-- Two registers. -/
def readRR (c : RegNum → RegNum → AsmCommand) : OperandReader
  | _, [a, b] =>
    match register a, register b with
    | .ok a, .ok b => .ok (c a b)
    | .error e, _ => .error e
    | .ok _, .error e => .error e
  | _, _ => .error .wrongOperands

/-- Three registers. -/
def readRRR (c : RegNum → RegNum → RegNum → AsmCommand) : OperandReader
  | _, [a, b, d] =>
    match register a, register b, register d with
    | .ok a, .ok b, .ok d => .ok (c a b d)
    | _, _, _ => .error .badRegister
  | _, _ => .error .wrongOperands

/-- A register and an immediate of `n` bits. -/
def readRI (n : Nat) (c : RegNum → BitVec n → AsmCommand) : OperandReader
  | labels, [a, v] =>
    match register a, immediate n labels v with
    | .ok a, .ok v => .ok (c a v)
    | .error e, _ => .error e
    | .ok _, .error e => .error e
  | _, _ => .error .wrongOperands

/-- A configuration register and imm20. -/
def readCI (c : BitVec 4 → Addr → AsmCommand) : OperandReader
  | labels, [a, v] =>
    match configIndex a, immediate 20 labels v with
    | .ok a, .ok v => .ok (c a v)
    | .error e, _ => .error e
    | .ok _, .error e => .error e
  | _, _ => .error .wrongOperands

/-- One imm20. -/
def readI (c : Addr → AsmCommand) : OperandReader
  | labels, [v] => (immediate 20 labels v).map c
  | _, _ => .error .wrongOperands

/-- Two imm20. -/
def readII (c : Addr → Addr → AsmCommand) : OperandReader
  | labels, [v, w] =>
    match immediate 20 labels v, immediate 20 labels w with
    | .ok v, .ok w => .ok (c v w)
    | .error e, _ => .error e
    | .ok _, .error e => .error e
  | _, _ => .error .wrongOperands

/-- The mnemonics of R199 and R207 with their operands. -/
def mnemonics : List (Text × OperandReader) :=
  [(['h', 'a', 'l', 't'], readNone (.real .halt)),
   (['n', 'o', 'p'], readNone (.real .nop)),
   (['g', 'f', 'a', 'd', 'd'], readRRR (fun a b c => .real (.gfadd a b c))),
   (['g', 'f', 'm', 'u', 'l'], readRRR (fun a b c => .real (.gfmul a b c))),
   (['g', 'f', 'i', 'n', 'v'], readRR (fun a b => .real (.gfinv a b))),
   (['g', 'f', 'd', 'i', 'v'], readRRR (fun a b c => .real (.gfdiv a b c))),
   (['g', 'f', 'l', 'i'], readRI 8 (fun a v => .real (.gfli a v))),
   (['g', 'f', 'm', 'o', 'v'], readRR (fun a b => .real (.gfmov a b))),
   (['g', 'f', 'l', 'b'], readRI 20 (fun a v => .real (.gflb a v))),
   (['g', 'f', 's', 'b'], readRI 20 (fun a v => .real (.gfsb a v))),
   (['s', 'e', 't', 'c', 'f', 'g'], readCI (fun a v => .real (.setcfg a v))),
   (['p', 'r', 'a', 'n', 'd'], readR (fun a => .real (.prand a))),
   (['p', 'e', 'v', 'a', 'l'], readRR (fun a b => .real (.peval a b))),
   (['l', 'a', 'g', 'r', '0'], readR (fun a => .real (.lagr0 a))),
   (['s', 'p', 'l', 'i', 't'], readNone (.real .split)),
   (['j', 'o', 'i', 'n'], readNone (.real .join)),
   (['g', 'f', 's', 'u', 'b'], readRRR .gfsub),
   (['g', 'f', 'x', 'o', 'r'], readRRR .gfxor),
   (['g', 'f', 'c', 'l', 'r'], readR .gfclr),
   (['g', 'f', 's', 'q', 'r'], readRR .gfsqr),
   (['s', 'p', 'l', 'i', 't', '.', 'n', 'k'], readII .splitNk),
   (['j', 'o', 'i', 'n', '.', 'k'], readI .joinK)]

/-! ### Lines and programs -/

/-- A source line in its parts: its label, and its mnemonic or directive with the operands' texts (R205). -/
structure Line where
  label    : Option Text
  mnemonic : Text
  operands : List Text
deriving DecidableEq, Repr

/-- The parts of a line: the comment after # or ; is dropped, a label ends in a colon, operands are separated by commas
(R205). -/
def readLine (t : Text) : Line :=
  let code := trim (t.takeWhile (fun c => c != '#' && c != ';'))
  let (label, rest) :=
    match cutAt ':' code with
    | [name, more] => (some (trim name), trim more)
    | _ => (none, code)
  let word := rest.takeWhile (fun c => !isBlank c)
  let tail := trim (rest.dropWhile (fun c => !isBlank c))
  { label := label, mnemonic := lower word, operands := if tail = [] then [] else (cutAt ',' tail).map trim }

/-- The items a line emits at the address it starts at. -/
inductive Item where
  | org (addr : Nat)
  | word (v : Word)
  | bytes (vs : List Byte)
  | commands (is : List Instr)
  | nothing
deriving DecidableEq, Repr

/-- All immediates of a list, or the first error. -/
def immediates (n : Nat) (labels : List Label) : List Text → Except AsmError (List (BitVec n))
  | [] => .ok []
  | t :: ts =>
    match immediate n labels t, immediates n labels ts with
    | .ok v, .ok vs => .ok (v :: vs)
    | .error e, _ => .error e
    | .ok _, .error e => .error e

/-- The item of a line (R205, R206). -/
def itemOf (labels : List Label) (l : Line) : Except AsmError Item :=
  if l.mnemonic = [] then .ok .nothing
  else if l.mnemonic = ['.', 'o', 'r', 'g'] then
    match l.operands with
    | [a] => (immediate 20 [] a).map (fun v => .org v.toNat)
    | _ => .error .wrongOperands
  else if l.mnemonic = ['.', 'w', 'o', 'r', 'd'] then
    match l.operands with
    | [v] => (immediate 32 labels v).map .word
    | _ => .error .wrongOperands
  else if l.mnemonic = ['.', 'b', 'y', 't', 'e'] then (immediates 8 labels l.operands).map .bytes
  else
    match mnemonics.find? (fun m => m.1 == l.mnemonic) with
    | none => .error .unknownMnemonic
    | some m => (m.2 labels l.operands).map (fun c => .commands c.expand)

/-- The little-endian bytes of a word (R133, R206). -/
def bytesOfWord (w : Word) : List Byte := (List.range 4).map (byteOfWord w)

/-- The bytes of an item. -/
def Item.emitted : Item → List Byte
  | .org _ => []
  | .word v => bytesOfWord v
  | .bytes vs => vs
  | .commands is => is.flatMap (fun i => bytesOfWord (encode i))
  | .nothing => []

/-- The address after an item that starts at `addr` (R206). -/
def Item.next (addr : Nat) : Item → Nat
  | .org a => a
  | i => addr + i.emitted.length

/-- How many bytes a line takes, whatever its labels stand for; `.org` sets the address (R206). -/
def addressAfter (addr : Nat) (l : Line) : Nat :=
  if l.mnemonic = [] then addr
  else if l.mnemonic = ['.', 'o', 'r', 'g'] then
    match l.operands with
    | [a] => (numberValue a).getD addr
    | _ => addr
  else if l.mnemonic = ['.', 'b', 'y', 't', 'e'] then addr + l.operands.length
  else if l.mnemonic = ['s', 'p', 'l', 'i', 't', '.', 'n', 'k'] ∨ l.mnemonic = ['j', 'o', 'i', 'n', '.', 'k'] then
    addr + 12
  else addr + 4

/-- The address of the next item from a line on: a line without an item and an `.org` are passed over (R205, R206). -/
def nextItem : (addr : Nat) → List Line → Nat
  | addr, [] => addr
  | addr, l :: rest =>
    if l.mnemonic = [] ∨ l.mnemonic = ['.', 'o', 'r', 'g'] then nextItem (addressAfter addr l) rest else addr

/-- The labels of a program: each stands for the address of the next item (R205). -/
def labelsOf : (addr : Nat) → List Line → List Label
  | _, [] => []
  | addr, l :: rest =>
    match l.label with
    | none => labelsOf (addressAfter addr l) rest
    | some name => (name, nextItem addr (l :: rest)) :: labelsOf (addressAfter addr l) rest

/-- The bytes of a program with their addresses, in source order; a command must stand at a multiple of 4 (R206). -/
def emit (labels : List Label) : (addr : Nat) → List Line → Except AsmError (List Host.Cell)
  | _, [] => .ok []
  | addr, l :: rest =>
    match itemOf labels l with
    | .error e => .error e
    | .ok item =>
      let misaligned : Bool := item matches .commands _ && addr % 4 != 0
      if misaligned then .error .misalignedCommand
      else
        match emit labels (item.next addr) rest with
        | .error e => .error e
        | .ok cells => .ok (item.emitted.zipIdx.map (fun p => (addr + p.2, p.1)) ++ cells)

/-- Assembling a program's lines into DMEM bytes (R205-R207). -/
def assemble (source : List Text) : Except AsmError (List Host.Cell) :=
  let lines := source.map readLine
  emit (labelsOf 0 lines) 0 lines

/-- DMEM with a program's bytes loaded (R514). -/
def Dmem.load (d : Dmem) (cells : List Host.Cell) : Dmem := cells.foldl (fun d c => d.write c.1 c.2) d

/-! ### The disassembler -/

/-- The decimal digits of a number below 100. -/
def decimal (n : Nat) : Text :=
  let digit := fun d => Char.ofNat ('0'.toNat + d)
  if n < 10 then [digit n] else [digit (n / 10), digit (n % 10)]

/-- One hex digit. -/
def hexDigit (d : Nat) : Char := if d < 10 then Char.ofNat ('0'.toNat + d) else Char.ofNat ('a'.toNat + (d - 10))

/-- A number as 0x and `n` hex digits. -/
def hex (n v : Nat) : Text := ['0', 'x'] ++ ((List.range n).map (fun i => hexDigit (v / 16 ^ i % 16))).reverse

/-- A register's name. -/
def registerName (r : RegNum) : Text := 'f' :: decimal r.toNat

/-- A mnemonic with its operands. -/
def commandText (name : Text) (operands : List Text) : Text :=
  match operands with
  | [] => name
  | o :: os => name ++ [' '] ++ o ++ os.flatMap (fun p => [',', ' '] ++ p)

/-- The text of a command: the real one, never a pseudo-instruction (R207). -/
def disassemble : Instr → Text
  | .halt => ['h', 'a', 'l', 't']
  | .nop => ['n', 'o', 'p']
  | .gfadd rd rs1 rs2 =>
    commandText ['g', 'f', 'a', 'd', 'd'] [registerName rd, registerName rs1, registerName rs2]
  | .gfmul rd rs1 rs2 =>
    commandText ['g', 'f', 'm', 'u', 'l'] [registerName rd, registerName rs1, registerName rs2]
  | .gfinv rd rs1 => commandText ['g', 'f', 'i', 'n', 'v'] [registerName rd, registerName rs1]
  | .gfdiv rd rs1 rs2 =>
    commandText ['g', 'f', 'd', 'i', 'v'] [registerName rd, registerName rs1, registerName rs2]
  | .gfli rd imm8 => commandText ['g', 'f', 'l', 'i'] [registerName rd, hex 2 imm8.toNat]
  | .gfmov rd rs1 => commandText ['g', 'f', 'm', 'o', 'v'] [registerName rd, registerName rs1]
  | .gflb rd addr20 => commandText ['g', 'f', 'l', 'b'] [registerName rd, hex 5 addr20.toNat]
  | .gfsb rs addr20 => commandText ['g', 'f', 's', 'b'] [registerName rs, hex 5 addr20.toNat]
  | .setcfg cfg imm20 =>
    commandText ['s', 'e', 't', 'c', 'f', 'g']
      [configNames.getD cfg.toNat (decimal cfg.toNat), hex 5 imm20.toNat]
  | .prand rs1 => commandText ['p', 'r', 'a', 'n', 'd'] [registerName rs1]
  | .peval rd rs1 => commandText ['p', 'e', 'v', 'a', 'l'] [registerName rd, registerName rs1]
  | .lagr0 rd => commandText ['l', 'a', 'g', 'r', '0'] [registerName rd]
  | .split => ['s', 'p', 'l', 'i', 't']
  | .join => ['j', 'o', 'i', 'n']

end Sys2Proof.Machine
end

