-- ==== Sys2Proof/Tests/Slice0.lean ====
section
/-! SUPPORT. The model's own tests. Expected results come from spec/95_test_vectors.md (the vector's id stands in the
docstring) or from the rule named; then, for each statement with hypotheses, a witness that meets them. -/

namespace Sys2Proof.Tests

-- One theorem at a time: each waiting evaluation would otherwise hold a thread and its stack.
set_option Elab.async false

open Sys2Proof Sys2Proof.Machine

/-! ### Helpers -/

/-- The state an outcome goes on to, or the reset state. -/
def after : Host.Outcome State Fault Refusal → State
  | .next s => s
  | .fault _ => State.reset
  | .refused _ => State.reset

/-- Whether an outcome is a next state. -/
def isNext : Host.Outcome State Fault Refusal → Bool
  | .next _ => true
  | .fault _ => false
  | .refused _ => false

theorem eq_next_after {o : Host.Outcome State Fault Refusal} (h : isNext o = true) : o = .next (after o) := by
  cases o with
  | next s => rfl
  | fault r => simp [isNext] at h
  | refused r => simp [isNext] at h

/-- A state with bytes written from an address on. -/
def withBytes (s : State) (a : Nat) : List Byte → State
  | [] => s
  | b :: rest => withBytes { s with dmem := s.dmem.write a b } (a + 1) rest

/-- A state with configuration registers written. -/
def withCfg (s : State) : List (CfgReg × Addr) → State
  | [] => s
  | p :: rest => withCfg (s.writeCfg p.1 p.2) rest

/-- The start state of vectors T13-T22: F1 = 57, F2 = 83, CPC = 0x100, running. -/
def fieldState : State := { (State.reset.writeF 1 0x57).writeF 2 0x83 with cpc := 0x100, phase := .run }

/-- A running state at CPC with a command word placed there. -/
def running (cpc : Addr) (w : Word) : State :=
  { State.reset with cpc := cpc, phase := .run, dmem := State.reset.dmem.writeBytes cpc.toNat w 4 }

/-! ### Well-formedness and encoding -/

/-- The one check of WellFormed refuses the terms it is for (R202). -/
theorem test_wellFormed_refuses_reserved_cfg :
    ¬WellFormed (.setcfg 12 0) ∧ ¬WellFormed (.setcfg 13 0) ∧ ¬WellFormed (.setcfg 14 0) ∧
    ¬WellFormed (.setcfg 15 0) ∧ WellFormed (.setcfg 11 0) := by decide

/-- Formats N and R of the field family (95: D1, D2, T13-T18), words written out from R192-R194. -/
theorem test_decode_field :
    decode 0x10312000 = .ok (.gfadd 3 1 2) ∧ decode 0x11312000 = .ok (.gfmul 3 1 2) ∧
    decode 0x12310000 = .ok (.gfinv 3 1) ∧ decode 0x13312000 = .ok (.gfdiv 3 1 2) ∧
    decode 0x1430009A = .ok (.gfli 3 0x9A) ∧ decode 0x15310000 = .ok (.gfmov 3 1) := by decide

/-- Formats N, M and C (95: C1, C2, D9, D12, P3). -/
theorem test_decode_transfer_and_control :
    decode 0x00000000 = .ok .halt ∧ decode 0x01000000 = .ok .nop ∧
    decode 0x20200123 = .ok (.gflb 2 0x123) ∧ decode 0x21200124 = .ok (.gfsb 2 0x124) ∧
    decode 0x30B00004 = .ok (.setcfg 11 4) ∧ decode 0x50000000 = .ok .split ∧
    decode 0x51000000 = .ok .join := by decide

/-- The polynomial engine's words (95: P2). -/
theorem test_decode_polynomial :
    decode 0x40010000 = .ok (.prand 1) ∧ decode 0x41320000 = .ok (.peval 3 2) ∧
    decode 0x42500000 = .ok (.lagr0 5) := by decide

/-- A word written bit by bit from format R (R193): opcode 0001_0011, rd = 1111, rs1 = 0001, rs2 = 1000, 12 zeros. -/
theorem test_decode_bit_by_bit : decode 0b00010011111100011000000000000000#32 = .ok (.gfdiv 15 1 8) := by decide

/-- Illegal words (95: D3-D8, D10, D13, D14). -/
theorem test_decode_rejects :
    decode 0x01000001 = .error .mustBeZero ∧ decode 0x10000001 = .error .mustBeZero ∧
    decode 0x12001000 = .error .mustBeZero ∧ decode 0x40100000 = .error .mustBeZero ∧
    decode 0x42010000 = .error .mustBeZero ∧ decode 0x14301000 = .error .mustBeZero ∧
    decode 0x30C00000 = .error .reservedCfg ∧ decode 0x50000001 = .error .mustBeZero ∧
    decode 0xFFFFFFFF = .error .undefinedOpcode := by decide

/-- The undefined opcodes of 95: D11. -/
theorem test_decode_undefined_opcodes :
    decode 0x02000000 = .error .undefinedOpcode ∧ decode 0x16000000 = .error .undefinedOpcode ∧
    decode 0x22000000 = .error .undefinedOpcode ∧ decode 0x31000000 = .error .undefinedOpcode ∧
    decode 0x43000000 = .error .undefinedOpcode ∧ decode 0x52000000 = .error .undefinedOpcode ∧
    decode 0xFF000000 = .error .undefinedOpcode := by decide

/-- The encoder on words of programs P1-P3 and the byte image of 14100057 (95: L2, encoding). -/
theorem test_encode :
    encode (.gfinv 5 4) = 0x12540000 ∧ encode (.gfsb 4 0x100) = 0x21400100 ∧ encode (.setcfg 10 0x300) = 0x30A00300 ∧
    encode (.prand 1) = 0x40010000 ∧ encode (.lagr0 6) = 0x42600000 ∧ encode .join = 0x51000000 ∧
    (List.range 4).map (byteOfWord 0x14100057) = [0x57, 0x00, 0x10, 0x14] := by decide

/-- The table's numbering: bit 0 of the word is the lowest bit of the first byte (R133). -/
theorem test_decodeTableWord :
    decodeTableWord 32 0x14100057 = some (.gfli 1 0x57) ∧ decodeTableWord 32 0x30C00000 = none := by decide

/-! ### The field functions (95: T1-T12) -/

/-- T1, T2, T7, T12. -/
theorem test_gmul :
    gmul 0x57 0x83 = 0xC1 ∧ gmul 0x57 0x13 = 0xFE ∧ gmul 0xFF 0xFF = 0x13 ∧ gmul 0x80 0x80 = 0x9A ∧
    gmul 0x0E 0x09 = 0x7E ∧ gmul 0xB6 0x53 = 0x36 := by decide +kernel

/-- T4. -/
theorem test_xtime : xtime 0x80 = 0x1B ∧ xtime 0xFF = 0xE5 ∧ xtime 0x7F = 0xFE := by decide

/-- T6, T9, T10, T11. -/
theorem test_ginv_gdiv :
    ginv 0x53 = some 0xCA ∧ ginv 0x80 = some 0x83 ∧ ginv 0 = none ∧ gdiv 0xFE 0x13 = some 0x57 ∧
    gdiv 0x07 0x03 = some 0xF4 ∧ gdiv 0x57 0 = none := by decide +kernel

/-- R243's reductions of x^8 and x^14, and R244's product, on one pair each. -/
theorem test_gmul_other_forms :
    gmulPolynomial 0x80 0x02 = 0x1B ∧ gmulPolynomial 0x80 0x80 = 0x9A ∧ gmulParallel 0x57 0x83 = 0xC1 := by
  decide +kernel

/-! ### One command each -/

/-- T13 and T19: the destination is a source. -/
theorem test_gfadd :
    (after (exec (.gfadd 3 1 2) fieldState)).readF 3 = 0xD4 ∧ (after (exec (.gfadd 1 1 1) fieldState)).readF 1 = 0 ∧
    (after (exec (.gfadd 3 1 2) fieldState)).cpc = 0x104 := by decide +kernel

/-- T14 and T20: the destination is a source. -/
theorem test_gfmul :
    (after (exec (.gfmul 3 1 2) fieldState)).readF 3 = 0xC1 ∧
    (after (exec (.gfmul 1 1 1) fieldState)).readF 1 = 0xA5 := by decide +kernel

/-- T15. -/
theorem test_gfinv : (after (exec (.gfinv 3 1) fieldState)).readF 3 = 0xBF := by decide +kernel

/-- T21. -/
theorem test_gfinv_zero :
    let t := after (exec (.gfinv 3 4) fieldState)
    t.statusWord = 0x00000104 ∧ t.errCpc = 0x100 ∧ t.errInfo = 0x00000004 ∧ t.readF 3 = 0 ∧ t.cmdret = 0 ∧
    t.cpc = 0x100 := by decide +kernel

/-- T16. -/
theorem test_gfdiv : (after (exec (.gfdiv 3 1 2) fieldState)).readF 3 = 0x38 := by decide +kernel

/-- T22. -/
theorem test_gfdiv_zero :
    let t := after (exec (.gfdiv 3 1 5) fieldState)
    t.statusWord = 0x00000104 ∧ t.errInfo = 0x10000005 ∧ t.cpc = 0x100 := by decide +kernel

/-- T17. -/
theorem test_gfli : (after (exec (.gfli 3 0x9A) fieldState)).readF 3 = 0x9A := by decide

/-- T18. -/
theorem test_gfmov : (after (exec (.gfmov 3 1) fieldState)).readF 3 = 0x57 := by decide

/-- C1. -/
theorem test_gflb : (after (exec (.gflb 2 0x123) (withBytes fieldState 0x123 [0x9A]))).readF 2 = 0x9A := by decide

/-- C3: the address is DMEM_SIZE. -/
theorem test_gflb_beyond :
    (after (exec (.gflb 1 0x80000) fieldState)).errInfo = 0x10080000 ∧
    (after (exec (.gflb 1 0x80000) fieldState)).errCode = 5 := by decide

/-- C2. -/
theorem test_gfsb : (after (exec (.gfsb 2 0x124) fieldState)).dmem.read 0x124 = 0x83 := by decide

/-- C4 and C5. -/
theorem test_setcfg :
    (after (exec (.setcfg 11 0xFFFFF) fieldState)).readCfg 11 = 7 ∧
    (after (exec (.setcfg 1 0xFFFFF) fieldState)).readCfg 1 = 0xFFFFF := by decide

/-- R407 and C7: CPC wraps from 0xFFFFC to 0. -/
theorem test_nop : (after (exec .nop { fieldState with cpc := 0xFFFFC })).cpc = 0 := by decide

/-- C9. -/
theorem test_halt :
    let t := after (exec .halt { fieldState with cpc := 0, ie := true })
    t.cpc = 4 ∧ t.statusWord = 2 ∧ t.cmdret = 1 ∧ t.irq = true := by decide

/-- P-9: MODE = 4, POLY_BASE = 0x200, POLY_LEN = 3, RNG_PTR = 0x300, F1 = 4F. -/
def prandState : State :=
  withBytes (withCfg (State.reset.writeF 1 0x4F) [(11, 4), (5, 0x200), (6, 3), (10, 0x300)]) 0x300 [0x1A, 0x02]

/-- P-9. -/
theorem test_prand :
    (after (exec (.prand 1) prandState)).dmem.readList 0x200 3 = [0x4F, 0x1A, 0x02] ∧
    (after (exec (.prand 1) prandState)).readCfg 10 = 0x302 := by decide +kernel

/-- C8: the first draw is beyond DMEM. -/
theorem test_prand_rng_error :
    let t := after (exec (.prand 1) (withCfg prandState [(10, 0x80000), (6, 2)]))
    t.errInfo = 0x30080000 ∧ t.dmem.read 0x200 = 0x4F ∧ t.readCfg 10 = 0x80000 := by decide +kernel

/-- The polynomial [4F, 1A, 02] at 0x200 with POLY_LEN = 3, F1 = 02 (R306's example). -/
def pevalState : State := withBytes (withCfg (State.reset.writeF 1 0x02) [(5, 0x200), (6, 3)]) 0x200 [0x4F, 0x1A, 0x02]

/-- P-1 at x = 02 and x = 00. -/
theorem test_peval :
    (after (exec (.peval 2 1) pevalState)).readF 2 = 0x73 ∧ (after (exec (.peval 2 0) pevalState)).readF 2 = 0x4F := by
  decide +kernel

/-- P-6 and P-8. -/
theorem test_peval_errors :
    (after (exec (.peval 2 1) (withCfg pevalState [(6, 257)]))).errInfo = 0x30000101 ∧
    (after (exec (.peval 2 1) (withCfg pevalState [(5, 0x90000), (6, 1)]))).errInfo = 0x20090000 := by decide +kernel

/-- xs = 01 02 03 and ys = 57 73 6B (R307's example). -/
def lagrState : State :=
  withBytes (withBytes (withCfg State.reset [(7, 0x400), (8, 0x410), (9, 3)]) 0x400 [1, 2, 3]) 0x410 [0x57, 0x73, 0x6B]

/-- L-1, and L-5: the y at x = 0. -/
theorem test_lagr0 :
    (after (exec (.lagr0 5) lagrState)).readF 5 = 0x4F ∧
    (after (exec (.lagr0 5) (withBytes (withBytes lagrState 0x400 [1, 0, 2]) 0x410 [0x57, 0x99, 0x73]))).readF 5
      = 0x99 := by decide +kernel

/-- L-8 and L-9. -/
theorem test_lagr0_errors :
    (after (exec (.lagr0 5) (withBytes lagrState 0x400 [1, 2, 1]))).errInfo = 0x00000002 ∧
    (after (exec (.lagr0 5) (withCfg lagrState [(9, 0)]))).errInfo = 0x40000000 := by decide +kernel

/-- S1: secret 4F at 0x500, shares at 0x510, N = 5, K = 3, random bytes 1A 02 at 0x300. -/
def splitState : State :=
  withBytes (withBytes
    (withCfg State.reset [(0, 0x500), (1, 1), (2, 0x510), (3, 5), (4, 3), (10, 0x300), (11, 4)]) 0x300 [0x1A, 0x02])
    0x500 [0x4F]

/-- S1. -/
theorem test_split :
    (after (exec .split splitState)).dmem.readList 0x510 10
      = [0x01, 0x57, 0x02, 0x73, 0x03, 0x6B, 0x04, 0x07, 0x05, 0x1F] := by decide +kernel

/-- S19: XMODE = 2 with L = 0 and random bytes 00 35 35 C4 00 9E; and S8: XMODE = 3. -/
theorem test_split_modes :
    (after (exec .split (withBytes (withCfg splitState [(1, 0), (3, 3), (11, 6)]) 0x300
      [0x00, 0x35, 0x35, 0xC4, 0x00, 0x9E]))).dmem.readList 0x510 3 = [0x35, 0xC4, 0x9E] ∧
    (after (exec .split (withCfg splitState [(11, 7)]))).errInfo = 0x00000007 := by decide +kernel

/-- S17: the shares for x = 5, 3, 1, N = K = 3, secret at 0x540. -/
def joinState : State :=
  withBytes (withCfg State.reset [(0, 0x540), (1, 1), (2, 0x510), (3, 3), (4, 3)]) 0x510
    [0x05, 0x1F, 0x03, 0x6B, 0x01, 0x57]

/-- S17. -/
theorem test_join : (after (exec .join joinState)).dmem.read 0x540 = 0x4F := by decide +kernel

/-- S15 and S16. -/
theorem test_join_errors :
    (after (exec .join (withBytes joinState 0x510 [1, 0, 2, 0, 1, 0]))).errInfo = 0x00000002 ∧
    (after (exec .join (withBytes joinState 0x510 [1, 0, 0, 0, 3, 0]))).errInfo = 0x10000001 := by decide +kernel

/-! ### The cycle, reset and the host port -/

/-- A placed word runs as the first command after reset. -/
theorem test_placed_word_runs :
    (after (step (State.reset.withFetchWord 32 0x1430009A))).readF 3 = 0x9A ∧
    (after (step (State.reset.withFetchWord 32 0x1430009A))).cmdret = 1 := by decide +kernel

/-- P6, second part: an illegal word. -/
theorem test_illegal_word :
    let t := after (step (running 4 0x10000001))
    t.statusWord = 0x00000404 ∧ t.errCpc = 4 ∧ t.cpc = 4 ∧ t.errInfo = 0x10000001 := by decide +kernel

/-- C6: the fetch after CPC 0x7FFFC. -/
theorem test_fetch_beyond :
    (after (step { State.reset with cpc := 0x80000, phase := .run })).errInfo = 0x00080000 := by decide +kernel

/-- R140 and R133: a 2-byte read of the DMEM window. -/
theorem test_narrow_read :
    hostRead (withBytes State.reset 0x7FFFE [0x34, 0x12]) 0x17FFFE .w2 = okResp 0x1234 := by decide

/-- H1, H2, H3, H4. -/
theorem test_host_reads :
    hostRead State.reset 0x000 .w4 = okResp 0x47465353 ∧ hostRead State.reset 0x024 .w4 = okResp 0x400 ∧
    hostRead State.reset 0x030 .w4 = okResp 0 ∧ hostRead State.reset 0x008 .w2 = errorResp := by decide

/-- H5, H6 and H12. -/
theorem test_host_writes :
    (after (step { State.reset with turns := [.host (.write 0x100000 .w4 0x11) 0] })).dmem.readWord 0 = 0x11 ∧
    (hostWrite fieldState 0x010 .w4 0x40 0).1 = errorResp ∧ hostRead fieldState 0x080 .w4 = errorResp ∧
    (hostWrite State.reset 0x17FFFE .w4 0 0).1 = errorResp := by decide +kernel

/-- H9: SRST overrides GO and IE. H10: GO with IE. -/
theorem test_ctrl :
    (writeCtrl 0x80000003 0 fieldState).ie = false ∧ (writeCtrl 0x80000003 0 fieldState).phase = .idle ∧
    (writeCtrl 0x80000003 0 fieldState).readF 1 = 0 ∧ (writeCtrl 3 0 State.reset).ie = true ∧
    (writeCtrl 3 0 State.reset).phase = .run := by decide +kernel

/-- R511: a soft reset after one access of a GFSB in flight leaves the byte; after none it does not. -/
theorem test_reset_in_flight :
    let s := { (running 0 0x21200124).writeF 2 0x9A with turns := [] }
    (resetUnit 1 (withBytes s 0x124 [0x11])).dmem.read 0x124 = 0x9A ∧
    (resetUnit 0 (withBytes s 0x124 [0x11])).dmem.read 0x124 = 0x11 := by decide +kernel

/-- R205-R207: a labelled line, a pseudo-instruction and a comment; and the text of a command. -/
theorem test_assembler :
    assemble [['x', ':', ' ', 'G', 'F', 'C', 'L', 'R', ' ', 'f', '1', '0', ' ', '#', 'h', 'i']]
      = .ok [(0, 0x00), (1, 0xA0), (2, 0xAA), (3, 0x10)] ∧
    disassemble (.gfli 3 0x9A) = ['g', 'f', 'l', 'i', ' ', 'f', '3', ',', ' ', '0', 'x', '9', 'a'] := by
  decide +kernel

/-- R205: an immediate outside its range is an error, never truncated. -/
theorem test_assembler_range :
    assemble [['g', 'f', 'l', 'i', ' ', 'f', '1', ',', '2', '5', '6']] = .error .outOfRange := by decide +kernel

/-! ### Witnesses: each statement's hypotheses can be met -/

/-- GfinvAndGfdivComplete and OperandErrorsAreRecorded: both operand cases, and the addresses on either side of
DMEM_SIZE (GflbLoadsTheByte, GfsbStoresTheByte). -/
theorem witness_operands :
    fieldState.readF 1 ≠ 0 ∧ fieldState.readF 5 = 0 ∧
    (0x7FFFF#20).toNat < fieldState.params.dmemSize ∧ fieldState.params.dmemSize ≤ (0x80000#20).toNat := by decide

/-- DecodeInvertsEncode, EncodeInvertsDecode, SetcfgWritesTheRegister at the top cfg. -/
theorem witness_encoding :
    WellFormed (.setcfg 11 0xFFFFF) ∧ decode 0x30BFFFFF = .ok (.setcfg 11 0xFFFFF) ∧
    (11#4).toNat = CfgReg.mode.val := by decide

/-- StepRunsTheDecodedCommand: an idle state, and a running one whose bytes decode, at the last word of DMEM. -/
theorem witness_step :
    State.reset.params.Legal ∧ State.reset.turns = [] ∧ State.reset.phase = .idle ∧
    (running 0x7FFFC 0x01000000).params.Legal ∧ (running 0x7FFFC 0x01000000).turns = [] ∧
    (running 0x7FFFC 0x01000000).phase = .run ∧
    (running 0x7FFFC 0x01000000).cpc.toNat + 4 ≤ (running 0x7FFFC 0x01000000).params.dmemSize ∧
    decodeBytes ((running 0x7FFFC 0x01000000).dmem.read 0x7FFFC) ((running 0x7FFFC 0x01000000).dmem.read 0x7FFFD)
      ((running 0x7FFFC 0x01000000).dmem.read 0x7FFFE) ((running 0x7FFFC 0x01000000).dmem.read 0x7FFFF) = .ok .nop := by
  decide +kernel

/-- FetchAndDecodeErrorsAreRecorded: the first CPC beyond DMEM, and a word that does not decode. -/
theorem witness_fetch_errors :
    (running 0x80000 0).params.Legal ∧ (running 0x80000 0).turns = [] ∧ (running 0x80000 0).phase = .run ∧
    (running 0x80000 0).params.dmemSize < (running 0x80000 0).cpc.toNat + 4 ∧
    (running 4 0x10000001).cpc.toNat + 4 ≤ (running 4 0x10000001).params.dmemSize ∧
    decode ((running 4 0x10000001).dmem.readWord 4) = .error .mustBeZero := by decide +kernel

/-- LagrangeRecoversTheConstantTerm and LagrangeIgnoresTheOrderOfPoints: distinct points, one of them at 0. -/
theorem witness_lagrange :
    [0x00#8, 0x05#8, 0xFF#8].Nodup ∧ [0x1A#8, 0x02#8].length + 1 ≤ [0x00#8, 0x05#8, 0xFF#8].length ∧
    List.Perm [(0x00#8, 0x4F#8), (0x05#8, 0x1F#8)] [(0x05#8, 0x1F#8), (0x00#8, 0x4F#8)] ∧
    ([(0x00#8, 0x4F#8), (0x05#8, 0x1F#8)].map Prod.fst).Nodup := by decide

/-- PrandFromEntropyCompletes, PrandWaitsForEntropy: two bytes wanted; two there, and one. -/
theorem witness_prand_entropy :
    let s := { withCfg prandState [(11, 0)] with entropy := [0x1A, 0x02] }
    PolyReady s ∧ s.rngFromDmem = false ∧ s.cfgNat CfgReg.polyLen - 1 ≤ s.entropy.length ∧
    PolyReady { s with entropy := [0x1A] } ∧ ({ s with entropy := [0x1A] } : State).rngFromDmem = false ∧
    ({ s with entropy := [0x1A] } : State).entropy.length < s.cfgNat CfgReg.polyLen - 1 := by decide +kernel

/-- PrandWaitsForEntropy's second part: PRAND is the command in flight. -/
theorem witness_prand_in_flight :
    let s := withCfg (running 0 0x40010000) [(5, 0x200), (6, 3)]
    PolyReady s ∧ s.rngFromDmem = false ∧ s.entropy.length < s.cfgNat CfgReg.polyLen - 1 ∧ s.phase = .run ∧
    fetchDecode s = .ok (.prand 1) := by decide +kernel

/-- PrandFromDmemCompletes: a stream inside DMEM, and one that overlaps the polynomial. -/
theorem witness_prand_dmem :
    PolyReady prandState ∧ prandState.rngFromDmem = true ∧
    DmemDraws prandState (prandState.cfgNat CfgReg.polyLen - 1) ∧
    PolyReady (withCfg prandState [(10, 0x200)]) ∧ (withCfg prandState [(10, 0x200)]).rngFromDmem = true ∧
    DmemDraws (withCfg prandState [(10, 0x200)]) 2 ∧ (withCfg prandState [(10, 0x200)]).rngAddr 0 = 0x200 := by
  decide +kernel

/-- PrandDrawErrorKeepsEarlierWrites: the second of two draws is the first beyond DMEM. -/
theorem witness_prand_draw_error :
    let s := withCfg prandState [(10, 0x7FFFF)]
    PolyReady s ∧ s.rngFromDmem = true ∧ 1 < s.cfgNat CfgReg.polyLen - 1 ∧ DmemDraws s 1 ∧
    s.params.dmemSize ≤ s.rngAddr 1 := by decide +kernel

/-- PolynomialCheckErrorsAreRecorded: POLY_LEN 0 and 257, and a polynomial one byte too long (P-5, P-6, P-7). -/
theorem witness_poly_errors :
    pevalState.params.Legal ∧ (withCfg pevalState [(6, 0)]).cfgNat CfgReg.polyLen < 1 ∧
    256 < (withCfg pevalState [(6, 257)]).cfgNat CfgReg.polyLen ∧
    (let s := withCfg pevalState [(5, 0x7FFFE)]
     1 ≤ s.cfgNat CfgReg.polyLen ∧ s.cfgNat CfgReg.polyLen ≤ 256 ∧
     s.params.dmemSize < s.cfgNat CfgReg.polyBase + s.cfgNat CfgReg.polyLen) := by decide +kernel

/-- PevalCompletes: a polynomial that ends at DMEM's last byte. -/
theorem witness_peval : PolyReady (withCfg pevalState [(5, 0x7FFFD)]) := by decide +kernel

/-- LagrCompletes. -/
theorem witness_lagr :
    let p := lagrState.cfgNat CfgReg.ptCount
    1 ≤ p ∧ p ≤ 256 ∧ lagrState.cfgNat CfgReg.xsBase + p ≤ lagrState.params.dmemSize ∧
    lagrState.cfgNat CfgReg.ysBase + p ≤ lagrState.params.dmemSize ∧
    ∀ i < p, ∀ m < i, lagrState.dmem.read (lagrState.cfgNat CfgReg.xsBase + m) ≠
      lagrState.dmem.read (lagrState.cfgNat CfgReg.xsBase + i) := by decide +kernel

/-- LagrErrorsAreRecordedInOrder: PT_COUNT 0 and 257, each array one byte too long, and a repeat at index 2. -/
theorem witness_lagr_errors :
    lagrState.params.Legal ∧ (withCfg lagrState [(9, 0)]).cfgNat CfgReg.ptCount < 1 ∧
    256 < (withCfg lagrState [(9, 257)]).cfgNat CfgReg.ptCount ∧
    lagrState.params.dmemSize < (withCfg lagrState [(7, 0x7FFFE)]).cfgNat CfgReg.xsBase + 3 ∧
    lagrState.params.dmemSize < (withCfg lagrState [(8, 0x7FFFE)]).cfgNat CfgReg.ysBase + 3 ∧
    (let s := withBytes lagrState 0x400 [1, 2, 1]
     (∃ m < 2, s.dmem.read (0x400 + m) = s.dmem.read (0x400 + 2)) ∧
     ∀ j < 2, ∀ m < j, s.dmem.read (0x400 + m) ≠ s.dmem.read (0x400 + j)) := by decide +kernel

/-- S1's SPLIT, its random bytes from the entropy port. -/
def portState (bytes : List Byte) : State := { withCfg splitState [(11, 0)] with entropy := bytes }

/-- SplitFromEntropyCompletes and SplitWaitsOrDrawsForEver's first part: XMODE 0 with both bytes, and with one. -/
theorem witness_split_entropy :
    SplitReady (portState [0x1A, 0x02]) ∧ XsDrawn (portState [0x1A, 0x02]) 0 ∧
    (portState [0x1A, 0x02]).rngFromDmem = false ∧ 0 + (portState [0x1A, 0x02]).splitDraws ≤ 2 ∧
    SplitReady (portState [0x1A]) ∧ XsDrawn (portState [0x1A]) 0 ∧ (portState [0x1A]).rngFromDmem = false ∧
    1 < 0 + (portState [0x1A]).splitDraws :=
  ⟨by decide +kernel, by decide +kernel, by decide +kernel, by decide +kernel, by decide +kernel, by decide +kernel,
    by decide +kernel, by decide +kernel⟩

/-- SplitFromEntropyCompletes with XMODE 1: host x-coordinates 10 20 30 (S5). -/
theorem witness_split_host_coordinates :
    let s := { withBytes (withCfg splitState [(3, 3), (4, 2), (7, 0x600), (11, 1)]) 0x600 [0x10, 0x20, 0x30] with
      entropy := [0x1A] }
    SplitReady s ∧ XsDrawn s 0 ∧ s.rngFromDmem = false ∧ 0 + s.splitDraws ≤ s.entropy.length := by decide +kernel

/-- S19's SPLIT (XMODE 2, N = 3), its random bytes from the entropy port. -/
def drawnState (bytes : List Byte) : State :=
  { withCfg splitState [(3, 3), (4, 2), (11, 2)] with entropy := bytes }

/-- SplitFromEntropyCompletes with XMODE 2: six draws give three coordinates (S19), then one coefficient. -/
theorem witness_split_random_coordinates :
    SplitReady (drawnState [0x00, 0x35, 0x35, 0xC4, 0x00, 0x9E, 0x11]) ∧
    XsDrawn (drawnState [0x00, 0x35, 0x35, 0xC4, 0x00, 0x9E, 0x11]) 6 ∧
    (drawnState [0x00, 0x35, 0x35, 0xC4, 0x00, 0x9E, 0x11]).rngFromDmem = false ∧
    6 + (drawnState [0x00, 0x35, 0x35, 0xC4, 0x00, 0x9E, 0x11]).splitDraws ≤ 7 := by decide +kernel

/-- SplitWaitsOrDrawsForEver with XMODE 2: the wait for a coefficient's byte, and for a coordinate's. -/
theorem witness_split_waits :
    SplitReady (drawnState [0x00, 0x35, 0x35, 0xC4, 0x00, 0x9E]) ∧
    XsDrawn (drawnState [0x00, 0x35, 0x35, 0xC4, 0x00, 0x9E]) 6 ∧
    (drawnState [0x00, 0x35, 0x35, 0xC4, 0x00, 0x9E]).rngFromDmem = false ∧
    6 < 6 + (drawnState [0x00, 0x35, 0x35, 0xC4, 0x00, 0x9E]).splitDraws ∧
    SplitReady (drawnState [0x00, 0x35, 0x35, 0xC4]) ∧ (drawnState [0x00, 0x35, 0x35, 0xC4]).xmode = 2 ∧
    (drawnState [0x00, 0x35, 0x35, 0xC4]).rngFromDmem = false ∧
    (distinctNonzero [0x00, 0x35, 0x35, 0xC4]).length
      < (drawnState [0x00, 0x35, 0x35, 0xC4]).cfgNat CfgReg.shareN :=
  ⟨by decide +kernel, by decide +kernel, by decide +kernel, by decide +kernel, by decide +kernel, by decide +kernel,
    by decide +kernel, by decide +kernel⟩

/-- SplitFromDmemCompletes: secret and stream apart from the share set. -/
theorem witness_split_dmem :
    SplitReady splitState ∧ XsDrawn splitState 0 ∧ splitState.rngFromDmem = true ∧
    DmemDraws splitState (0 + splitState.splitDraws) ∧ SecretApart splitState := by decide +kernel

/-- SplitFromDmemCompletes with the secret and the stream inside the share set: the stream reads share 0's x-coordinate,
the secret is its y-value's place. -/
theorem witness_split_overlap :
    let s := withCfg splitState [(0, 0x511), (10, 0x510)]
    SplitReady s ∧ XsDrawn s 0 ∧ s.rngFromDmem = true ∧ DmemDraws s (0 + s.splitDraws) ∧
    s.rngAddr 0 = s.xaddr 0 ∧ s.cfgNat CfgReg.secretBase = s.yaddr 0 0 := by decide +kernel

/-- SplitSharesLieOnOnePolynomial: a SPLIT that retires, its secret apart from its shares. -/
theorem witness_split_retires :
    exec .split splitState = .next (after (exec .split splitState)) ∧
    Advanced splitState (after (exec .split splitState)) ∧ SecretApart splitState :=
  ⟨eq_next_after (by decide +kernel), by decide +kernel, by decide +kernel⟩

/-- SplitDrawErrorKeepsEarlierWrites: the second coefficient draw is the first beyond DMEM. -/
theorem witness_split_coefficient_error :
    let s := withCfg splitState [(10, 0x7FFFF)]
    SplitReady s ∧ XsDrawn s 0 ∧ s.rngFromDmem = true ∧ 1 < s.splitDraws ∧ DmemDraws s (0 + 1) ∧
    s.params.dmemSize ≤ s.rngAddr (0 + 1) := by decide +kernel

/-- SplitDrawErrorKeepsEarlierWrites: the coefficient of secret byte 1 fails, so the y-values of byte 0 stand. -/
theorem witness_split_second_byte_error :
    let s := withCfg splitState [(1, 2), (4, 2), (10, 0x7FFFF)]
    SplitReady s ∧ XsDrawn s 0 ∧ s.rngFromDmem = true ∧ 1 < s.splitDraws ∧ DmemDraws s (0 + 1) ∧
    s.params.dmemSize ≤ s.rngAddr (0 + 1) ∧ 1 / (s.cfgNat CfgReg.shareK - 1) = 1 := by decide +kernel

/-- SplitDrawErrorKeepsEarlierWrites: the third coordinate draw is the first beyond DMEM. -/
theorem witness_split_coordinate_error :
    let u := withBytes (withCfg splitState [(3, 3), (10, 0x7FFFE), (11, 6)]) 0x7FFFE [0x35, 0x35]
    SplitReady u ∧ u.xmode = 2 ∧ u.rngFromDmem = true ∧
    (∀ r < 3, (distinctNonzero (u.randomBytes r)).length < u.cfgNat CfgReg.shareN) ∧
    DmemDraws u 2 ∧ u.params.dmemSize ≤ u.rngAddr 2 := by decide +kernel

/-- JoinCompletes. -/
theorem witness_join : JoinReady joinState := by decide +kernel

/-- A 2-of-2 SPLIT of 4F (S2), and a state that holds its shares in the other order. -/
def pairState : State :=
  withBytes (withBytes
    (withCfg State.reset [(0, 0x500), (1, 1), (2, 0x510), (3, 2), (4, 2), (10, 0x300), (11, 4)]) 0x300 [0x1A])
    0x500 [0x4F]

/-- The shares of S2 in the other order, the secret to go to 0x540. -/
def swappedState : State :=
  withBytes (withCfg State.reset [(0, 0x540), (1, 1), (2, 0x510), (3, 2), (4, 2)]) 0x510 [0x02, 0x7B, 0x01, 0x55]

/-- JoinRecoversWhatSplitShared: all its hypotheses, the shares taken in the other order. -/
theorem witness_join_after_split :
    exec .split pairState = .next (after (exec .split pairState)) ∧
    Advanced pairState (after (exec .split pairState)) ∧ SecretApart pairState ∧
    JoinReady swappedState ∧ SecretApart swappedState ∧
    swappedState.cfgNat CfgReg.secretLen = pairState.cfgNat CfgReg.secretLen ∧
    swappedState.cfgNat CfgReg.shareK = pairState.cfgNat CfgReg.shareK ∧
    ∀ m < swappedState.cfgNat CfgReg.shareK, 1 - m < pairState.cfgNat CfgReg.shareN ∧
      swappedState.dmem.read (swappedState.xaddr m) =
        (after (exec .split pairState)).dmem.read (pairState.xaddr (1 - m)) ∧
      ∀ j < swappedState.cfgNat CfgReg.secretLen, swappedState.dmem.read (swappedState.yaddr m j) =
        (after (exec .split pairState)).dmem.read (pairState.yaddr (1 - m) j) :=
  ⟨eq_next_after (by decide +kernel), by decide +kernel, by decide +kernel, by decide +kernel, by decide +kernel,
    by decide +kernel, by decide +kernel, by decide +kernel⟩

/-- SequencersRejectBadShapes: XMODE 3, and each shape error at its boundary (S8-S13). -/
theorem witness_shapes :
    (withCfg splitState [(11, 7)]).xmode = 3 ∧ splitState.xmode ≠ 3 ∧
    (withCfg splitState [(4, 0)]).cfgNat CfgReg.shareK < 1 ∧
    255 < (withCfg splitState [(4, 256)]).cfgNat CfgReg.shareK ∧
    (withCfg splitState [(3, 0)]).cfgNat CfgReg.shareN < 1 ∧
    255 < (withCfg splitState [(3, 256)]).cfgNat CfgReg.shareN ∧
    (withCfg splitState [(3, 3), (4, 4)]).cfgNat CfgReg.shareN < 4 ∧
    splitState.params.maxSecretLen < (withCfg splitState [(1, 1025)]).cfgNat CfgReg.secretLen := by decide +kernel

/-- SequencersRejectRegionsBeyondDmem: the secret, the share set (S14) and the x array each a byte too far. -/
theorem witness_regions :
    splitState.params.Legal ∧
    (let s := withCfg splitState [(0, 0x80000)]
     ShapeReady s ∧ s.xmode ≠ 3 ∧ ¬Fits s (s.cfgNat CfgReg.secretBase) (s.cfgNat CfgReg.secretLen) ∧
     Fits s (s.cfgNat CfgReg.shareBase) (s.cfgNat CfgReg.shareN * (s.cfgNat CfgReg.secretLen + 1))) ∧
    (let s := withCfg splitState [(2, 0x7FFF7)]
     ShapeReady s ∧ s.xmode ≠ 3 ∧ Fits s (s.cfgNat CfgReg.secretBase) (s.cfgNat CfgReg.secretLen) ∧
     ¬Fits s (s.cfgNat CfgReg.shareBase) (s.cfgNat CfgReg.shareN * (s.cfgNat CfgReg.secretLen + 1))) ∧
    (let s := withCfg splitState [(7, 0x7FFFC), (11, 1)]
     ShapeReady s ∧ s.xmode = 1 ∧ RegionsReady s ∧ ¬Fits s (s.cfgNat CfgReg.xsBase) (s.cfgNat CfgReg.shareN)) := by
  decide +kernel

/-- SequencersRejectBadPoints: a zero and a repeat at index 1, for SPLIT (S6) and for JOIN (S16). -/
theorem witness_points :
    (let s := withBytes (withCfg splitState [(3, 3), (7, 0x600), (11, 1)]) 0x600 [0x10, 0x00, 0x30]
     ShapeReady s ∧ RegionsReady s ∧ 1 < s.cfgNat CfgReg.shareN ∧ s.xmode = 1 ∧
     Fits s (s.cfgNat CfgReg.xsBase) (s.cfgNat CfgReg.shareN) ∧
     DistinctNonzero 1 (fun m => s.dmem.read (s.cfgNat CfgReg.xsBase + m)) ∧
     s.dmem.read (s.cfgNat CfgReg.xsBase + 1) = 0) ∧
    (let s := withBytes joinState 0x510 [1, 0, 0, 0, 3, 0]
     ShapeReady s ∧ RegionsReady s ∧ DistinctNonzero 1 (fun m => s.dmem.read (s.xaddr m)) ∧
     s.dmem.read (s.xaddr 1) = 0) ∧
    (let s := withBytes joinState 0x510 [1, 0, 1, 0, 3, 0]
     DistinctNonzero 1 (fun m => s.dmem.read (s.xaddr m)) ∧ s.dmem.read (s.xaddr 1) ≠ 0 ∧
     ∃ m < 1, s.dmem.read (s.xaddr m) = s.dmem.read (s.xaddr 1)) := by decide +kernel

/-- EveryStepKeepsTheInvariant: a running state that meets it, with a host turn to come, and its next state. -/
theorem witness_invariant :
    let s := { running 4 0x10000001 with turns := [.host (.read 0x00C .w4) 0] }
    s.Inv ∧ step s = .next (after (step s)) :=
  ⟨by decide +kernel, eq_next_after (by decide +kernel)⟩

/-- CpcMovesOnlyByRetirement, EntropyBytesAreTakenOnceInOrder, FiveCommandsIgnoreFieldRegisters: a command that answers;
ErrorsArePrecise: one that ends with an error. -/
theorem witness_commands :
    exec .nop fieldState = .next (after (exec .nop fieldState)) ∧
    exec (.gfinv 3 4) fieldState = .next (after (exec (.gfinv 3 4) fieldState)) ∧ fieldState.errv = false ∧
    (after (exec (.gfinv 3 4) fieldState)).errv = true :=
  ⟨eq_next_after (by decide), eq_next_after (by decide +kernel), by decide, by decide +kernel⟩

/-- RunsEndWithDoneOrAnError: a run that goes on, and a HALT that sets DONE. -/
theorem witness_run_end :
    let s := running 0 0x01000000
    let h := running 0 0x00000000
    s.phase = .run ∧ s.done = false ∧ s.errv = false ∧ engineStep s = .next (after (engineStep s)) ∧
    exec .halt h = .next (after (exec .halt h)) ∧ h.done = false ∧ (after (exec .halt h)).done = true :=
  ⟨by decide, by decide, by decide, eq_next_after (by decide +kernel), eq_next_after (by decide), by decide, by decide⟩

/-- ResetsPutRegistersAtResetValues: both kinds of reset. -/
theorem witness_resets :
    let s := { fieldState with turns := [.reset 3] }
    let u := { fieldState with turns := [.host (.write 0x008 .w4 0x80000003) 3] }
    s.params.Legal ∧ (0x80000003#32).getLsbD 31 = true ∧
    step { s with phase := .idle } = .next (after (step { s with phase := .idle })) ∧
    step { u with phase := .idle } = .next (after (step { u with phase := .idle })) :=
  ⟨by decide, by decide, eq_next_after (by decide +kernel), eq_next_after (by decide +kernel)⟩

/-- A running state at CPC 0 whose command word is `w`, with configuration registers written and turns to come. -/
def flight (w : Word) (cfg : List (CfgReg × Addr)) (turns : List Turn) : State :=
  { withCfg (running 0 w) cfg with turns := turns, entropy := [0x1A, 0x02] }

/-- ResetCutsPrandAtAPrefixOfItsWrites: a PRAND in flight, its bytes from the entropy port, cut by rst_n. -/
theorem witness_reset_cuts :
    let s := flight 0x40010000 [(5, 0x200), (6, 3)] [.reset 2]
    s.params.Legal ∧ ResetNext s 2 ∧ s.phase = .run ∧ fetchDecode s = .ok (.prand 1) ∧ PolyReady s ∧
    s.rngFromDmem = false ∧ step s = .next (after (step s)) :=
  ⟨by decide, ⟨[], .inl rfl⟩, by decide, by decide +kernel, by decide +kernel, by decide +kernel,
    eq_next_after (by decide +kernel)⟩

/-- ResetCutsPrandAtAPrefixOfItsWrites: the same from the DMEM stream, cut by a soft reset. -/
theorem witness_soft_reset_cuts :
    let s := flight 0x40010000 [(5, 0x200), (6, 3), (11, 4)] [.host (.write 0x008 .w4 0x80000000) 2]
    s.params.Legal ∧ ResetNext s 2 ∧ s.phase = .run ∧ fetchDecode s = .ok (.prand 1) ∧ PolyReady s ∧
    s.rngFromDmem = true ∧ step s = .next (after (step s)) :=
  ⟨by decide, ⟨[], .inr ⟨_, rfl, by decide⟩⟩, by decide, by decide +kernel, by decide +kernel, by decide +kernel,
    eq_next_after (by decide +kernel)⟩

/-- ResetCutsOtherCommandsAtAPrefixOfTheirWrites: SPLIT and JOIN in flight with their checks passed, and not. -/
theorem witness_reset_cuts_sequencers :
    let cfg := [(1, 1), (2, 0x510), (3, 1), (4, 1)]
    let s := flight 0x50000000 cfg [.reset 1]
    let u := flight 0x51000000 cfg [.reset 1]
    fetchDecode s = .ok .split ∧ SplitReady s ∧ XsDrawn s 0 ∧ ResetNext s 1 ∧
    step s = .next (after (step s)) ∧
    fetchDecode u = .ok .join ∧ JoinReady { u with dmem := u.dmem.write 0x510 1 } ∧
    ¬SplitReady (flight 0x50000000 [] [.reset 1]) ∧ ¬JoinReady (flight 0x51000000 [] [.reset 1]) :=
  ⟨by decide +kernel, by decide +kernel, by decide +kernel, ⟨[], .inl rfl⟩, eq_next_after (by decide +kernel),
    by decide +kernel, by decide +kernel, by decide +kernel, by decide +kernel⟩

/-- ResetCutsOtherCommandsAtAPrefixOfTheirWrites: the other commands and the failures in flight. -/
theorem witness_reset_cuts_others :
    fetchDecode (flight 0x21200124 [] [.reset 1]) = .ok (.gfsb 2 0x124) ∧
    fetchDecode (flight 0x01000000 [] [.reset 1]) = .ok .nop ∧
    fetchDecode (flight 0x40010000 [] [.reset 1]) = .ok (.prand 1) ∧ ¬PolyReady (flight 0x40010000 [] [.reset 1]) ∧
    fetchDecode (flight 0xFF000000 [] [.reset 1]) = .error (.illegal 0xFF000000) := by decide +kernel

/-- EntropyBytesAreTakenOnceInOrder: a step that takes two bytes, with rng_ready asserted (R413); with the DMEM stream it
is not. -/
theorem test_rng_ready :
    let s := flight 0x40010000 [(5, 0x200), (6, 3)] []
    engineStep s = .next (after (engineStep s)) ∧ (after (engineStep s)).entropy = [] ∧ rngReady s = true ∧
    rngReady (flight 0x40010000 [(5, 0x200), (6, 3), (11, 4)] []) = false :=
  ⟨eq_next_after (by decide +kernel), by decide +kernel, by decide +kernel, by decide +kernel⟩

/-- The host statements: legal states, idle and busy, with the access as the first turn; offsets at the ends of the
ranges; the written bits of GO. -/
theorem witness_host :
    ({ State.reset with turns := [.host (.write 0x008 .w4 3) 0] } : State).params.Legal ∧
    State.reset.phase = .idle ∧ fieldState.phase = .run ∧
    (3#32).getLsbD 0 = true ∧ (3#32).getLsbD 31 = false ∧ (2#32).getLsbD 0 = false ∧ (2#32).getLsbD 31 = false ∧
    (0x06C#21).toNat < 0x070 ∧ (0x0BC#21).toNat < 0x0C0 ∧ 0x100000 ≤ (0x100000#21).toNat ∧
    (0x06C#21).toNat = 0x040 + 4 * CfgReg.mode.val ∧ (0x0BC#21).toNat = 0x080 + 4 * (15#4).toNat ∧
    (0x17FFFC#21).toNat % 4 = 0 ∧ (0x17FFFC#21).toNat + 4 ≤ 0x100000 + State.reset.params.dmemSize ∧
    (0x17FFFE#21).toNat % Width.w2.bytes = 0 ∧
    (0x17FFFE#21).toNat + Width.w2.bytes ≤ 0x100000 + State.reset.params.dmemSize ∧
    (0x17FFFF#21).toNat + Width.w1.bytes ≤ 0x100000 + State.reset.params.dmemSize ∧
    isNext (step { State.reset with turns := [.host (.read 0x180000 .w4) 0] }) = true ∧
    (after (step { State.reset with turns := [.host (.read 0x180000 .w4) 0] })).hostResp
      = some { ok := false, data := 0 } := by decide +kernel

/-! ### A DMEM of 2^20 zeros, for SPLIT's endless draws -/

/-- A cell list that holds 0 at every address below `n`, from `k` on. -/
def zeroCells (n : Nat) : List Host.Cell := (List.range n).map (fun a => (a, 0))

theorem findCell_map_zero (l : List Nat) (a : Nat) (h : a ∈ l) :
    findCell (l.map (fun k => (k, (0 : Byte)))) a = some 0 := by
  induction l with
  | nil => simp at h
  | cons k rest ih =>
    rcases List.mem_cons.1 h with rfl | h
    · simp [findCell]
    · by_cases hk : k = a
      · simp [findCell, hk]
      · simpa [findCell, hk] using ih h

/-- Zeros give no x-coordinate. -/
theorem distinctNonzero_zeros (l : List Byte) (h : ∀ b ∈ l, b = 0) : distinctNonzero l = [] := by
  unfold distinctNonzero
  induction l with
  | nil => rfl
  | cons b rest ih =>
    rw [List.foldl_cons, if_pos (.inl (h b (by simp)))]
    exact ih (fun c hc => h c (List.mem_cons_of_mem _ hc))

/-- SPLIT with XMODE 2 from DMEM, its first `n` bytes all zero. -/
def zerosState (n : Nat) : State :=
  { withCfg State.reset [(2, 0x510), (3, 1), (4, 1), (11, 6)] with
    params := { dmemSize := 2 ^ 20, maxSecretLen := 1024 }, dmem := { powerUp := 0, cells := zeroCells n } }

/-- Every address below `n` reads 0. -/
theorem zerosState_read (n a : Nat) (h : a < n) : (zerosState n).dmem.read a = 0 := by
  have hf : findCell (zerosState n).dmem.cells a = some 0 := findCell_map_zero (List.range n) a (List.mem_range.2 h)
  rw [Dmem.read, hf]

/-- The same with all 2^20 bytes of DMEM zero. -/
def endlessState : State := zerosState (2 ^ 20)

/-- SplitWaitsOrDrawsForEver's last part. -/
theorem witness_split_draws_for_ever :
    SplitReady endlessState ∧ endlessState.xmode = 2 ∧ endlessState.rngFromDmem = true ∧
    endlessState.params.dmemSize = 2 ^ 20 ∧
    (distinctNonzero (endlessState.randomBytes (2 ^ 20))).length < endlessState.cfgNat CfgReg.shareN := by
  have hr : endlessState.rngFromDmem = true := by decide
  refine ⟨by decide, by decide, hr, rfl, ?_⟩
  rw [distinctNonzero_zeros]
  · decide
  · intro b hb
    simp only [State.randomBytes, hr, if_true, List.mem_map] at hb
    obtain ⟨i, -, rfl⟩ := hb
    exact zerosState_read _ _ (Nat.mod_lt _ (Nat.two_pow_pos 20))

end Sys2Proof.Tests
end

section
/-! PROOFS. Scope (R8): every step keeps the invariant of the unit, whatever the next turn is. -/

namespace Sys2Proof.Machine

/-! ### DMEM in canonical form and inside its size -/

/-- The invariant's part about DMEM: canonical (log entry 5), every listed address inside DMEM_SIZE (R131). -/
def Dmem.Canonical (size : Nat) (d : Dmem) : Prop := d.wf ∧ ∀ c ∈ d.cells, c.1 < size

theorem Dmem.Canonical.write {d : Dmem} {size a : Nat} (h : d.Canonical size) (ha : a < size) (b : Byte) :
    (d.write a b).Canonical size :=
  ⟨Dmem.write_wf h.1 a b, Dmem.write_inside h.2 ha b⟩

theorem Dmem.Canonical.writeBytes {d : Dmem} {size a n : Nat} (h : d.Canonical size) (ha : a + n ≤ size) (w : Word) :
    (d.writeBytes a w n).Canonical size :=
  ⟨Dmem.writeBytes_wf h.1 a w n, Dmem.writeBytes_inside h.2 ha w⟩

/-! ### A command's work stays inside DMEM

A command that ends puts back its DMEM; a reset in flight replays a prefix of its log (R511). So both are kept: the DMEM
is canonical, and every write logged is inside `size`. -/

/-- The DMEM of a command's work is canonical, and every write it has made is inside `size`. -/
def Work.Inside (size : Nat) (w : Work) : Prop :=
  w.dmem.Canonical size ∧ ∀ a b, Access.write a b ∈ w.log → a < size

namespace Work.Inside

variable {size : Nat} {w : Work}

theorem write {a : Nat} (h : w.Inside size) (ha : a < size) (b : Byte) : (w.write a b).Inside size := by
  refine ⟨h.1.write ha b, fun a' b' hm => ?_⟩
  rcases List.mem_cons.1 hm with hm | hm
  · cases hm; exact ha
  · exact h.2 a' b' hm

theorem draw {w' : Work} {b : Byte} (h : w.Inside size) (hd : w.draw = .ok (b, w')) : w'.Inside size := by
  rcases w.draw_cases with ⟨_, _, e⟩ | ⟨_, _, e⟩ | ⟨_, _, e⟩ | ⟨_, _, _, _, e⟩ <;> rw [e] at hd <;> cases hd
  · exact h
  · exact ⟨h.1, by simpa using h.2⟩

theorem drawMany (h : w.Inside size) (n : Nat) : (w.drawMany n).1.Inside size := by
  induction n generalizing w with
  | zero => exact h
  | succ n ih =>
    unfold Work.drawMany
    cases hd : w.draw with
    | error e => exact h
    | ok p =>
      have h2 := ih (h.draw hd)
      cases hm : p.2.drawMany n with
      | mk w2 r => rw [hm] at h2; cases r <;> simpa [hm] using h2

theorem writeStrided {base stride : Nat} {bs : List Byte} (h : w.Inside size)
    (hin : ∀ i < bs.length, base + i * stride < size) : (w.writeStrided base stride bs).Inside size := by
  induction bs generalizing w base with
  | nil => exact h
  | cons b rest ih =>
    refine ih (h.write (by simpa using hin 0 (by simp)) b) fun i hi => ?_
    have hi' := hin (i + 1) (by simpa using hi)
    rw [Nat.add_mul] at hi'; omega

/-- PRAND's loop (R305). -/
theorem drawInto {n a : Nat} (h : w.Inside size) (ha : a + n ≤ size) : (drawInto n w a).1.Inside size := by
  induction n generalizing w a with
  | zero => exact h
  | succ n ih =>
    unfold Machine.drawInto
    cases hd : w.draw with
    | error e => exact h
    | ok p => exact ih ((h.draw hd).write (by omega) p.1) (by omega)

/-- gen_x's draws (R352). -/
theorem drawDistinct (h : w.Inside size) (fuel need : Nat) (xs : List Byte) :
    (drawDistinct fuel w need xs).1.Inside size := by
  induction fuel generalizing w need xs with
  | zero => cases need <;> exact h
  | succ fuel ih =>
    cases need with
    | zero => exact h
    | succ need =>
      unfold Machine.drawDistinct
      cases hd : w.draw with
      | error e => exact h
      | ok p =>
        simp only
        split_ifs
        · exact ih (h.draw hd) _ _
        · exact ih (h.draw hd) _ _

theorem genX (h : w.Inside size) (s : State) : (genX s w).1.Inside size := by
  unfold Machine.genX
  simp only
  split_ifs
  · exact h
  · split <;> exact h
  · exact h.drawDistinct _ _ _

/-- SPLIT's loop (R353): `hin` says where y-value `j'` of share `i` lies. -/
theorem splitBytes {sb hb stride k n j : Nat} {xs : List Byte} (h : w.Inside size)
    (hin : ∀ j' < j + n, ∀ i < xs.length, hb + 1 + j' + i * stride < size) :
    (splitBytes sb hb stride k xs n j w).1.Inside size := by
  induction n generalizing j w with
  | zero => exact h
  | succ n ih =>
    unfold Machine.splitBytes
    have h1 := h.drawMany (k - 1)
    cases hm : w.drawMany (k - 1) with
    | mk w1 r =>
      rw [hm] at h1
      cases r with
      | error e => exact h1
      | ok cs =>
        exact ih (h1.writeStrided fun i hi => hin j (by omega) i (by simpa using hi))
          fun j' hj => hin j' (by omega)

/-- JOIN's loop (R357). -/
theorem joinBytes {sb hb stride n j : Nat} {xs : List Byte} (h : w.Inside size) (hin : n = 0 ∨ sb + j + n ≤ size) :
    (joinBytes sb hb stride xs n j w).Inside size := by
  induction n generalizing j w with
  | zero => exact h
  | succ n ih => exact ih (h.write (by omega) _) (by omega)

end Work.Inside

/-! ### How many x-coordinates gen_x gives -/

theorem drawDistinct_length {fuel need : Nat} {w w' : Work} {xs ys : List Byte}
    (h : drawDistinct fuel w need xs = (w', .ok ys)) : ys.length = xs.length + need := by
  induction fuel generalizing w need xs with
  | zero => cases need <;> simp_all [drawDistinct]
  | succ fuel ih =>
    cases need with
    | zero => simp_all [drawDistinct]
    | succ need =>
      unfold drawDistinct at h
      cases hd : w.draw with
      | error e => simp [hd] at h
      | ok p =>
        simp only [hd] at h
        split_ifs at h
        · exact ih h
        · rw [ih h, List.length_append, List.length_singleton]; omega

/-- gen_x gives SHARE_N x-coordinates when it gives any (R352). -/
theorem genX_length {s : State} {w w' : Work} {xs : List Byte} (h : genX s w = (w', .ok xs)) :
    xs.length = s.cfgNat CfgReg.shareN := by
  unfold genX at h
  simp only at h
  split_ifs at h
  · cases h; simp
  · split at h
    · cases h
    · cases h; simp [Dmem.readList]
  · simpa using drawDistinct_length h

/-! ### The work of each command -/

theorem check_eq_none {bad : Bool} {e : CmdError} : check bad e = none ↔ bad = false := by
  cases bad <;> simp

/-- Byte `o` of share `i` lies inside a share set that fits (R350). -/
theorem share_byte_inside {s : State} {i o : Nat} (hc : shareRegionCheck s = none)
    (hi : i < s.cfgNat CfgReg.shareN) (ho : o < s.shareStride) :
    s.cfgNat CfgReg.shareBase + o + i * s.shareStride < s.params.dmemSize := by
  have hle : (i + 1) * s.shareStride ≤ s.cfgNat CfgReg.shareN * s.shareStride := Nat.mul_le_mul_right _ hi
  rw [Nat.succ_mul] at hle
  rcases checkRegion_eq_none.1 hc with h0 | hfit <;> omega

section CommandWork

variable {s : State} (h : s.dmem.Canonical s.params.dmemSize)
include h

theorem Work.ofState_inside : (Work.ofState s).Inside s.params.dmemSize := ⟨h, by simp [Work.ofState]⟩

theorem gfsbRun_inside (rs : RegNum) (addr20 : Addr) : (gfsbRun rs addr20 s).1.Inside s.params.dmemSize := by
  unfold gfsbRun
  simp only
  split_ifs with ha
  · exact Work.ofState_inside h
  · exact (Work.ofState_inside h).write (by omega) _

theorem prandRun_inside (rs1 : RegNum) : (prandRun rs1 s).1.Inside s.params.dmemSize := by
  unfold prandRun
  simp only
  split
  next => exact Work.ofState_inside h
  next hc =>
    simp only [polyChecks, firstError_eq_none, List.forall_mem_cons, check_eq_none, checkRegion_eq_none,
      Bool.or_eq_false_iff, decide_eq_false_iff_not] at hc
    obtain ⟨⟨hpos, -⟩, hfit, -⟩ := hc
    exact ((Work.ofState_inside h).write (by omega) _).drawInto (by omega)

theorem splitRun_inside : (splitRun s).1.Inside s.params.dmemSize := by
  unfold splitRun
  simp only
  split
  next => exact Work.ofState_inside h
  next hc =>
    have hreg : shareRegionCheck s = none := firstError_eq_none.1 hc _ (by simp)
    have hg := (Work.ofState_inside h).genX s
    cases hx : genX s (Work.ofState s) with
    | mk w1 r =>
      rw [hx] at hg
      cases r with
      | error e => exact hg
      | ok xs =>
        have hlen := genX_length hx
        have hstr : s.shareStride = s.cfgNat CfgReg.secretLen + 1 := rfl
        refine (hg.writeStrided fun i hi => ?_).splitBytes fun j hj i hi => ?_
        · exact share_byte_inside (o := 0) hreg (by omega) (by omega)
        · have := share_byte_inside (o := 1 + j) hreg (i := i) (by omega) (by omega)
          omega

theorem joinRun_inside : (joinRun s).1.Inside s.params.dmemSize := by
  unfold joinRun
  simp only
  split
  next => exact Work.ofState_inside h
  next hc =>
    have hreg : secretRegionCheck s = none := firstError_eq_none.1 hc _ (by simp)
    split
    next => exact Work.ofState_inside h
    next => exact (Work.ofState_inside h).joinBytes (checkRegion_eq_none.1 hreg)

theorem workOf_inside (i : Instr) : (workOf i s).1.Inside s.params.dmemSize := by
  cases i with
  | gfsb rs addr20 => exact gfsbRun_inside h rs addr20
  | prand rs1 => exact prandRun_inside h rs1
  | split => exact splitRun_inside h
  | join => exact joinRun_inside h
  | _ => exact Work.ofState_inside h

theorem inFlight_inside : (inFlight s).1.Inside s.params.dmemSize := by
  unfold inFlight
  split
  next => exact workOf_inside h _
  next => exact Work.ofState_inside h

end CommandWork

/-! ### The invariant under the named updates of the state -/

/-- The conjuncts of the invariant under names. -/
structure State.InvFields (s : State) : Prop where
  legal : s.params.Legal
  mem : s.dmem.Canonical s.params.dmemSize
  cpc : s.cpc.toNat % 4 = 0
  errCpc : s.errCpc.toNat % 4 = 0
  mode : s.cfg[CfgReg.mode.val].toNat < 8
  notBoth : ¬(s.done = true ∧ s.errv = true)
  run : s.phase = .run → s.done = false ∧ s.errv = false
  noCode : s.errv = false ↔ s.errCode = 0
  codeLe : s.errCode.toNat ≤ 6
  info : s.errv = true → s.errCode ≠ 4 → bits s.errInfo 24 4 = 0

theorem inv_iff {s : State} : s.Inv ↔ s.InvFields :=
  ⟨fun ⟨legal, wf, inside, cpc, errCpc, mode, notBoth, run, noCode, codeLe, info⟩ =>
    ⟨legal, ⟨wf, inside⟩, cpc, errCpc, mode, notBoth, run, noCode, codeLe, info⟩,
   fun h => ⟨h.legal, h.mem.1, h.mem.2, h.cpc, h.errCpc, h.mode, h.notBoth, h.run, h.noCode, h.codeLe, h.info⟩⟩

/-- What MODE keeps of a value is three bits (R68). -/
theorem cfgKept_mode_lt (v : Addr) : (cfgKept CfgReg.mode v).toNat < 8 := by
  have := Nat.and_le_right (n := v.toNat) (m := 7)
  simp only [cfgKept, if_true, BitVec.toNat_and, BitVec.reduceToNat]
  omega

/-- What CPC keeps of a host write is a multiple of 4 (R54). -/
theorem cpcKept_aligned (data : Word) : (cpcKept data).toNat % 4 = 0 := by
  have h : (cpcKept data).toNat &&& 3 = 0 := by
    rw [cpcKept, BitVec.toNat_and, Nat.and_assoc]; simp
  rwa [← Nat.and_two_pow_sub_one_eq_mod _ 2]

/-- ERR_INFO bits [27:24] are 0 for every error but ILLEGAL (R62). -/
theorem CmdError.info_reserved (e : CmdError) (h : e.code ≠ 4) : bits e.info 24 4 = 0 := by
  cases e with
  | illegal w => exact absurd rfl h
  | _ => exact errInfoWord_reserved _ _

/-- ERRCODE 0 says that there is no error (R451). -/
theorem CmdError.code_ne_zero (e : CmdError) : e.code ≠ 0 := by
  intro h0
  have hr := e.code_range
  simp [h0] at hr

namespace State.InvFields

variable {s : State}

theorem retire (h : s.InvFields) : (retire s).InvFields :=
  { h with
    cpc := by
      have := h.cpc
      simp only [retire_cpc, BitVec.toNat_add, BitVec.reduceToNat]; omega }

/-- An error is recorded while DONE is 0, as it is in phase RUN (R456). -/
theorem raise (h : s.InvFields) (hdone : s.done = false) (e : CmdError) : (raise e s).InvFields :=
  { h with
    errCpc := h.cpc
    notBoth := by simp [hdone]
    run := by simp
    noCode := ⟨nofun, fun h0 => absurd h0 e.code_ne_zero⟩
    codeLe := e.code_range.2
    info := fun _ => e.info_reserved }

theorem halt (h : s.InvFields) (hrun : s.phase = .run) :
    ({ Machine.retire s with done := true, phase := .idle } : State).InvFields :=
  { h.retire with
    notBoth := by simp [(h.run hrun).2]
    run := nofun }

theorem go (h : s.InvFields) : (go s).InvFields :=
  { h with
    errCpc := rfl
    notBoth := by simp
    run := by simp
    noCode := by simp
    codeLe := by simp
    info := by simp }

theorem writeCfg (h : s.InvFields) (c : CfgReg) (v : Addr) : (s.writeCfg c v).InvFields :=
  { h with
    mode := by
      by_cases hc : c = CfgReg.mode
      · subst hc; simpa [State.writeCfg] using cfgKept_mode_lt v
      · have hne : c.val ≠ CfgReg.mode.val := fun e => hc (Fin.ext e)
        simpa only [State.writeCfg, Vector.getElem_set_ne _ _ hne] using h.mode }

theorem writeF (h : s.InvFields) (r : RegNum) (v : Byte) : (s.writeF r v).InvFields := { h with }

theorem commit (h : s.InvFields) {w : Work} (hw : w.Inside s.params.dmemSize) : (commit s w).InvFields :=
  { h with
    mem := hw.1
    mode := by
      have hne : CfgReg.rngPtr.val ≠ CfgReg.mode.val := by decide
      simpa only [Machine.commit, Vector.getElem_set_ne _ _ hne] using h.mode }

theorem writeStatus (h : s.InvFields) (data : Word) : (writeStatus data s).InvFields := by
  have clearDone : ({ s with done := false } : State).InvFields :=
    { h with notBoth := by simp, run := fun hr => ⟨rfl, (h.run hr).2⟩ }
  have clearErr {u : State} (hu : u.InvFields) : ({ u with errv := false, errCode := 0 } : State).InvFields :=
    { hu with
      notBoth := by simp
      run := fun hr => ⟨(hu.run hr).1, rfl⟩
      noCode := by simp
      codeLe := by simp
      info := nofun }
  unfold Machine.writeStatus
  simp only
  split_ifs
  · exact clearErr clearDone
  · exact clearErr h
  · exact clearDone
  · exact h

end State.InvFields

/-! ### Commands -/

/-- A next state, where the outcome is one, meets the invariant. -/
def NextInv (o : Host.Outcome State Fault Refusal) : Prop := ∀ t, o = .next t → t.InvFields

theorem State.InvFields.next {t : State} (h : t.InvFields) : NextInv (.next t) := by
  rintro _ ⟨⟩; exact h

section Commands

variable {s : State} (h : s.InvFields) (hrun : s.phase = .run)

include h in
theorem writeResult_inv (rd : RegNum) (v : Byte) : NextInv (writeResult rd v s) := (h.writeF rd v).retire.next

include h hrun

theorem raised_inv (e : CmdError) : NextInv (raised e s) := (h.raise (h.run hrun).1 e).next

theorem finish_inv {r : Work × Except Stop Unit} (hw : r.1.Inside s.params.dmemSize) : NextInv (finish s r) := by
  rcases finish_cases s r with ⟨-, e⟩ | ⟨x, -, e⟩ | ⟨-, e⟩ <;> rw [e]
  · exact (h.commit hw).retire.next
  · exact ((h.commit hw).raise (h.run hrun).1 x).next
  · exact h.next

theorem execSetcfg_inv (cfg : BitVec 4) (imm20 : Addr) : NextInv (execSetcfg cfg imm20 s) := by
  unfold execSetcfg
  split
  next => exact (h.writeCfg _ _).retire.next
  next => exact raised_inv h hrun _

theorem execGfinv_inv (rd rs1 : RegNum) : NextInv (execGfinv rd rs1 s) := by
  unfold execGfinv
  split
  next => exact raised_inv h hrun _
  next => exact writeResult_inv h _ _

theorem execGfdiv_inv (rd rs1 rs2 : RegNum) : NextInv (execGfdiv rd rs1 rs2 s) := by
  unfold execGfdiv
  split
  next => exact raised_inv h hrun _
  next => exact writeResult_inv h _ _

theorem execGflb_inv (rd : RegNum) (addr20 : Addr) : NextInv (execGflb rd addr20 s) := by
  unfold execGflb
  split_ifs
  · exact raised_inv h hrun _
  · exact writeResult_inv h _ _

theorem execPeval_inv (rd rs1 : RegNum) : NextInv (execPeval rd rs1 s) := by
  unfold execPeval
  split
  next => exact raised_inv h hrun _
  next => exact writeResult_inv h _ _

theorem execLagr0_inv (rd : RegNum) : NextInv (execLagr0 rd s) := by
  unfold execLagr0
  split
  next => exact raised_inv h hrun _
  next =>
    simp only
    split
    next => exact raised_inv h hrun _
    next => exact writeResult_inv h _ _

theorem exec_inv (i : Instr) : NextInv (exec i s) := by
  cases i with
  | halt => exact (h.halt hrun).next
  | nop => exact h.retire.next
  | gfadd rd rs1 rs2 => exact writeResult_inv h rd _
  | gfmul rd rs1 rs2 => exact writeResult_inv h rd _
  | gfinv rd rs1 => exact execGfinv_inv h hrun rd rs1
  | gfdiv rd rs1 rs2 => exact execGfdiv_inv h hrun rd rs1 rs2
  | gfli rd imm8 => exact writeResult_inv h rd _
  | gfmov rd rs1 => exact writeResult_inv h rd _
  | gflb rd addr20 => exact execGflb_inv h hrun rd addr20
  | gfsb rs addr20 => exact finish_inv h hrun (gfsbRun_inside h.mem rs addr20)
  | setcfg cfg imm20 => exact execSetcfg_inv h hrun cfg imm20
  | prand rs1 => exact finish_inv h hrun (prandRun_inside h.mem rs1)
  | peval rd rs1 => exact execPeval_inv h hrun rd rs1
  | lagr0 rd => exact execLagr0_inv h hrun rd
  | split => exact finish_inv h hrun (splitRun_inside h.mem)
  | join => exact finish_inv h hrun (joinRun_inside h.mem)

theorem cycle_inv : NextInv (cycle s) := by
  unfold cycle
  split
  next => exact raised_inv h hrun _
  next => exact exec_inv h hrun _

end Commands

theorem engineStep_inv {s : State} (h : s.InvFields) : NextInv (engineStep s) := by
  unfold engineStep
  split
  next => exact h.next
  next hrun => exact cycle_inv h hrun

/-! ### Resets -/

/-- Accesses replayed from a log whose writes are inside DMEM keep DMEM canonical and the parameters. -/
theorem foldl_apply_canonical {l : List Access} {s : State} (h : s.dmem.Canonical s.params.dmemSize)
    (hl : ∀ a b, Access.write a b ∈ l → a < s.params.dmemSize) :
    (l.foldl Access.apply s).params = s.params ∧
      (l.foldl Access.apply s).dmem.Canonical s.params.dmemSize := by
  induction l generalizing s with
  | nil => exact ⟨rfl, h⟩
  | cons x rest ih =>
    have hrest : ∀ a b, Access.write a b ∈ rest → a < s.params.dmemSize :=
      fun a b hm => hl a b (List.mem_cons_of_mem _ hm)
    cases x with
    | write a b => exact ih (s := Access.apply s (.write a b)) (h.write (hl a b (by simp)) b) hrest
    | take => exact ih (s := Access.apply s .take) h hrest

/-- Abandoning the command in flight keeps DMEM canonical and the parameters, wherever it is cut (R511). -/
theorem abandon_canonical {s : State} (h : s.dmem.Canonical s.params.dmemSize) (cut : Nat) :
    (abandon cut s).params = s.params ∧ (abandon cut s).dmem.Canonical s.params.dmemSize :=
  foldl_apply_canonical h fun a b hm =>
    (inFlight_inside h).2 a b (List.mem_reverse.1 (List.mem_of_mem_take hm))

theorem State.InvFields.resetRegisters {s : State} (hl : s.params.Legal) (hm : s.dmem.Canonical s.params.dmemSize) :
    (resetRegisters s).InvFields where
  legal := hl
  mem := hm
  cpc := rfl
  errCpc := rfl
  mode := Nat.zero_lt_succ 7
  notBoth := nofun
  run := nofun
  noCode := ⟨fun _ => rfl, fun _ => rfl⟩
  codeLe := Nat.zero_le 6
  info := nofun

theorem State.InvFields.resetUnit {s : State} (h : s.InvFields) (cut : Nat) : (resetUnit cut s).InvFields := by
  obtain ⟨hp, hm⟩ := abandon_canonical h.mem cut
  exact .resetRegisters (hp ▸ h.legal) (hp ▸ hm)

/-! ### The host port -/

/-- No register offset names a DMEM byte (R138). -/
theorem registerAt_ne_dmem (o a : Nat) : registerAt o ≠ .dmem a := by
  simp [registerAt, ite_eq_iff, dite_eq_iff]

/-- The DMEM window reaches only bytes inside DMEM (R140). -/
theorem hostTarget_dmem {s : State} {off : HostOff} {width : Width} {a : Nat}
    (ht : hostTarget s off width = .dmem a) : a + width.bytes ≤ s.params.dmemSize := by
  unfold hostTarget at ht
  simp only at ht
  split at ht
  next =>
    split at ht
    next => exact absurd ht (registerAt_ne_dmem _ _)
    next => cases ht
  next =>
    split at ht
    next hd => rw [← HostTarget.dmem.inj ht]; exact hd.2
    next => cases ht

theorem State.InvFields.writeCtrl {s : State} (h : s.InvFields) (data : Word) (cut : Nat) :
    (writeCtrl data cut s).InvFields := by
  have hie : ({ s with ie := data.getLsbD 1 } : State).InvFields := { h with }
  unfold Machine.writeCtrl
  split_ifs
  · exact hie.resetUnit cut
  · exact hie.go
  · exact hie

/-- A write that is refused while BUSY = 1 (R142) leaves `s` or makes its change `t`. -/
theorem refusedWhileBusy_inv {s t : State} (h : s.InvFields) (ht : t.InvFields) :
    (if s.busy then (errorResp, s) else (okResp 0, t)).2.InvFields := by
  split_ifs
  · exact h
  · exact ht

theorem hostWrite_inv {s : State} (h : s.InvFields) (off : HostOff) (width : Width) (data : Word) (cut : Nat) :
    (hostWrite s off width data cut).2.InvFields := by
  unfold hostWrite
  cases ht : hostTarget s off width with
  | ctrl => exact h.writeCtrl data cut
  | status => exact h.writeStatus data
  | cpc => exact refusedWhileBusy_inv h { h with cpc := cpcKept_aligned data }
  | cfg c => exact refusedWhileBusy_inv h (h.writeCfg c _)
  | f r => exact refusedWhileBusy_inv h (h.writeF r _)
  | dmem a => exact refusedWhileBusy_inv h { h with mem := h.mem.writeBytes (hostTarget_dmem ht) data }
  | _ => exact h

theorem hostAccess_inv {s : State} (h : s.InvFields) (access : HostAccess) (cut : Nat) :
    (hostAccess access cut s).InvFields := by
  cases access with
  | read off width => exact { h with }
  | write off width data => exact { hostWrite_inv h off width data cut with }

/-! ### One step -/

theorem takeTurn_inv {s : State} (h : s.InvFields) (t : Turn) : NextInv (takeTurn t s) := by
  cases t with
  | engine => exact engineStep_inv h
  | host access cut => exact (hostAccess_inv h access cut).next
  | reset cut => exact (h.resetUnit cut).next
  | entropy b => exact State.InvFields.next { h with }

theorem move_inv {s : State} (h : s.InvFields) : NextInv (move s) := by
  unfold move
  split
  next => exact engineStep_inv h
  next rest _ => exact takeTurn_inv (s := { s with turns := rest }) { h with } _

/-- Settles O43: the next move is the engine's or one of the outside's turns, and each is made of updates that keep the
invariant. -/
theorem everyStepKeepsTheInvariant : Obligations.EveryStepKeepsTheInvariant := by
  intro s s' h hstep
  rw [step, if_pos h.1] at hstep
  exact inv_iff.2 (move_inv (inv_iff.1 h) s' hstep)

end Sys2Proof.Machine
end

section
/-! PROOFS. The field product (R240 to R242) is additive in each factor, commutative and associative; so the inverse ROM's
squarings make the power 254 (R70, R245). -/

namespace Sys2Proof.Machine

/-! ### The product is additive in each factor -/

/-- Choosing a value by a sum of bits is the sum of the two choices. -/
theorem ite_xor_bits (p q : Bool) (v : Byte) :
    (if (p ^^ q) = true then v else 0) = (if p = true then v else 0) ^^^ (if q = true then v else 0) := by
  cases p <;> cases q <;> simp

/-- Sums of two sums, regrouped. -/
theorem xor_xor_xor_comm (a b c d : Byte) : (a ^^^ b) ^^^ (c ^^^ d) = (a ^^^ c) ^^^ (b ^^^ d) := by ac_rfl

/-- Doubling as a shift plus the reduction that bit 7 calls for (R241). -/
theorem xtime_eq (a : Byte) : xtime a = a <<< 1 ^^^ (if a.getLsbD 7 = true then 0x1B#8 else 0) := by
  unfold xtime
  split <;> simp

/-- One turn of the product's loop: the doubled factor goes on, the chosen one is added (R242). -/
theorem gmulLoop_succ (b : Byte) (n i : Nat) (a r : Byte) :
    gmulLoop b (n + 1) i a r = gmulLoop b n (i + 1) (xtime a) (r ^^^ if b.getLsbD i = true then a else 0) := by
  rw [gmulLoop]
  congr 1
  split <;> simp

theorem xtime_xor (a a' : Byte) : xtime (a ^^^ a') = xtime a ^^^ xtime a' := by
  simp only [xtime_eq, BitVec.getLsbD_xor, BitVec.shiftLeft_xor_distrib, ite_xor_bits]
  exact xor_xor_xor_comm ..

theorem gmulLoop_xor_left (b : Byte) (n i : Nat) (a a' r r' : Byte) :
    gmulLoop b n i (a ^^^ a') (r ^^^ r') = gmulLoop b n i a r ^^^ gmulLoop b n i a' r' := by
  induction n generalizing i a a' r r' with
  | zero => rfl
  | succ n ih =>
    simp only [gmulLoop_succ, xtime_xor, ← ih]
    congr 1
    split
    · exact xor_xor_xor_comm ..
    · simp

theorem gmulLoop_xor_right (b b' : Byte) (n i : Nat) (a r r' : Byte) :
    gmulLoop (b ^^^ b') n i a (r ^^^ r') = gmulLoop b n i a r ^^^ gmulLoop b' n i a r' := by
  induction n generalizing i a r r' with
  | zero => rfl
  | succ n ih => simp only [gmulLoop_succ, ← ih, BitVec.getLsbD_xor, ite_xor_bits, xor_xor_xor_comm r]

theorem gmulLoop_xtime (b : Byte) (n i : Nat) (a r : Byte) :
    gmulLoop b n i (xtime a) (xtime r) = xtime (gmulLoop b n i a r) := by
  induction n generalizing i a r with
  | zero => rfl
  | succ n ih =>
    simp only [gmulLoop_succ, ← ih, xtime_xor]
    congr 2
    split <;> rfl

theorem gmul_xor_left (a a' b : Byte) : gmul (a ^^^ a') b = gmul a b ^^^ gmul a' b :=
  gmulLoop_xor_left b 8 0 a a' 0 0

theorem gmul_xor_right (a b b' : Byte) : gmul a (b ^^^ b') = gmul a b ^^^ gmul a b' :=
  gmulLoop_xor_right b b' 8 0 a 0 0

theorem gmul_xtime_left (a b : Byte) : gmul (xtime a) b = xtime (gmul a b) := gmulLoop_xtime b 8 0 a 0

theorem gmul_zero (a : Byte) : gmul a 0 = 0 := by
  simpa using gmul_xor_right a 0 0

theorem zero_gmul (b : Byte) : gmul 0 b = 0 := by
  simpa using gmul_xor_left 0 0 b

/-! ### Additive functions agree when they agree on the powers of x -/

/-- `r` with x^k added where bit `k` of `a` is 1. -/
def addBit (a r : Byte) (k : Nat) : Byte := r ^^^ if a.getLsbD k then 1#8 <<< k else 0

/-- A byte is the sum of the powers of x its bits name. -/
theorem byte_eq_sum_bits : ∀ a : Byte, a = (List.range 8).foldl (addBit a) 0 := by decide +kernel

/-- Two additive functions that agree on the eight powers of x agree everywhere. -/
theorem additive_ext {f g : Byte → Byte} (hf : ∀ a b, f (a ^^^ b) = f a ^^^ f b) (hg : ∀ a b, g (a ^^^ b) = g a ^^^ g b)
    (h : ∀ k < 8, f (1#8 <<< k) = g (1#8 <<< k)) (a : Byte) : f a = g a := by
  have h0 : f 0 = g 0 := by
    have f0 : f 0 = 0 := by simpa using hf 0 0
    have g0 : g 0 = 0 := by simpa using hg 0 0
    rw [f0, g0]
  have hbit {r : Byte} (hr : f r = g r) {k : Nat} (hk : k < 8) : f (addBit a r k) = g (addBit a r k) := by
    unfold addBit
    rw [hf, hg, hr]
    split
    · rw [h k hk]
    · rw [h0]
  have hsum (l : List Nat) (hl : ∀ k ∈ l, k < 8) (r : Byte) (hr : f r = g r) :
      f (l.foldl (addBit a) r) = g (l.foldl (addBit a) r) := by
    induction l generalizing r with
    | nil => exact hr
    | cons k rest ih => exact ih (fun j hj => hl j (List.mem_cons_of_mem _ hj)) _ (hbit hr (hl k (by simp)))
  rw [byte_eq_sum_bits a]
  exact hsum _ (fun k hk => List.mem_range.1 hk) 0 h0

/-- The product is commutative (R247): it is so on the powers of x. -/
theorem gmul_comm (a b : Byte) : gmul a b = gmul b a := by
  have hpow : ∀ j < 8, ∀ k < 8, gmul (1#8 <<< j) (1#8 <<< k) = gmul (1#8 <<< k) (1#8 <<< j) := by decide +kernel
  refine additive_ext (f := (gmul · b)) (g := gmul b) (fun _ _ => gmul_xor_left ..) (fun _ _ => gmul_xor_right ..) ?_ a
  intro j hj
  exact additive_ext (f := gmul (1#8 <<< j)) (g := (gmul · (1#8 <<< j))) (fun _ _ => gmul_xor_right ..)
    (fun _ _ => gmul_xor_left ..) (hpow j hj) b

theorem gmul_xtime_right (a b : Byte) : gmul a (xtime b) = xtime (gmul a b) := by
  rw [gmul_comm, gmul_xtime_left, gmul_comm]

/-- A factor can be taken out of the product's loop. -/
theorem gmulLoop_gmul (a c : Byte) (n i : Nat) (b r : Byte) :
    gmulLoop c n i (gmul a b) (gmul a r) = gmul a (gmulLoop c n i b r) := by
  induction n generalizing i b r with
  | zero => rfl
  | succ n ih =>
    simp only [gmulLoop_succ, ← ih, gmul_xtime_right, gmul_xor_right]
    congr 2
    split
    · rfl
    · exact (gmul_zero a).symm

/-- The product is associative (R247). -/
theorem gmul_assoc (a b c : Byte) : gmul (gmul a b) c = gmul a (gmul b c) := by
  have h := gmulLoop_gmul a c 8 0 b 0
  rwa [gmul_zero] at h

theorem gmul_one (a : Byte) : gmul a 1 = a := by simp [gmul, gmulLoop]

theorem one_gmul (b : Byte) : gmul 1 b = b := by rw [gmul_comm, gmul_one]

/-! ### Powers and the inverse ROM -/

theorem gpow_add (a : Byte) (m n : Nat) : gmul (gpow a m) (gpow a n) = gpow a (m + n) := by
  induction n with
  | zero => exact gmul_one _
  | succ n ih => rw [gpow, ← gmul_assoc, ih]; rfl

theorem gpow_one (a : Byte) : gpow a 1 = a := one_gmul a

theorem gpow_mul (a : Byte) (m n : Nat) : gpow (gpow a m) n = gpow a (m * n) := by
  induction n with
  | zero => rfl
  | succ n ih => rw [gpow, ih, gpow_add, Nat.mul_succ]

/-- Powers of 2^k are additive: in a square the mixed products cancel. -/
theorem gpow_two_pow_xor (k : Nat) (a b : Byte) : gpow (a ^^^ b) (2 ^ k) = gpow a (2 ^ k) ^^^ gpow b (2 ^ k) := by
  induction k with
  | zero => simp only [Nat.pow_zero, gpow_one]
  | succ k ih =>
    have hsq (c : Byte) : gpow c (2 ^ (k + 1)) = gmul (gpow c (2 ^ k)) (gpow c (2 ^ k)) := by
      rw [gpow_add, Nat.pow_succ, Nat.mul_two]
    rw [hsq, hsq, hsq, ih, gmul_xor_left, gmul_xor_right, gmul_xor_right, gmul_comm (gpow b _) (gpow a _),
      xor_xor_xor_comm, BitVec.xor_assoc]
    simp

/-- The power 256 is the identity: it is additive and multiplicative, and fixes x. -/
theorem gpow_256 (a : Byte) : gpow a 256 = a := by
  have hx : gpow 2 256 = 2 := by decide +kernel
  have hpow : ∀ k < 8, 1#8 <<< k = gpow 2 k := by decide +kernel
  refine additive_ext (f := (gpow · (2 ^ 8))) (g := id) (gpow_two_pow_xor 8) (fun _ _ => rfl) (fun k hk => ?_) a
  calc gpow (1#8 <<< k) 256 = gpow (gpow 2 256) k := by rw [hpow k hk, gpow_mul, gpow_mul, Nat.mul_comm]
    _ = 1#8 <<< k := by rw [hx, hpow k hk]

/-- The ROM's squarings are the power 254 (R70, R245). -/
theorem invRom_eq_gpow (a : Byte) : invRom a = gpow a 254 := by
  have h1 : invRom a = invRom (gpow a 1) := by rw [gpow_one]
  rw [h1]
  simp only [invRom, gpow_add, Nat.reduceAdd]

/-- R255's table lists inverses. -/
theorem gmul_invTable : ∀ a : Byte, a ≠ 0 → gmul a (invTable.getD a.toNat 0) = 1 := by decide +kernel

/-- The ROM's entry is the inverse: with `t` for the table's, a·a^254 = a^255·(a·t) = a^256·t = a·t. -/
theorem gmul_invRom {a : Byte} (ha : a ≠ 0) : gmul a (invRom a) = 1 := by
  have ht := gmul_invTable a ha
  calc gmul a (invRom a) = gpow a 255 := by rw [invRom_eq_gpow, gmul_comm]; rfl
    _ = gmul (gmul (gpow a 255) a) (invTable.getD a.toNat 0) := by rw [gmul_assoc, ht, gmul_one]
    _ = gmul (gpow a 256) (invTable.getD a.toNat 0) := rfl
    _ = 1 := by rw [gpow_256, ht]

/-- The inverse of a nonzero byte is unique (R245). -/
theorem gmul_eq_one_iff {a b : Byte} (ha : a ≠ 0) : gmul a b = 1 ↔ b = invRom a := by
  constructor
  · intro h
    calc b = gmul (gmul (invRom a) a) b := by rw [gmul_comm (invRom a), gmul_invRom ha, one_gmul]
      _ = gmul (invRom a) (gmul a b) := gmul_assoc ..
      _ = invRom a := by rw [h, gmul_one]
  · rintro rfl
    exact gmul_invRom ha

theorem invRom_zero : invRom 0 = 0 := by
  rw [invRom_eq_gpow]
  exact gmul_zero (gpow 0 253)

/-- R255's table lists the ROM. -/
theorem invTable_getElem? (a : Byte) : invTable[a.toNat]? = some (invRom a) := by
  have hentry : invTable.getD a.toNat 0 = invRom a := by
    by_cases ha : a = 0
    · subst ha; rw [invRom_zero]; rfl
    · exact (gmul_eq_one_iff ha).1 (gmul_invTable a ha)
  have hlen : invTable.length = 256 := by decide +kernel
  have hlt : a.toNat < invTable.length := hlen ▸ a.isLt
  rw [List.getElem?_eq_getElem hlt, ← hentry, List.getD_eq_getElem _ _ hlt]

theorem gdiv_of_ne_zero (a : Byte) {b : Byte} (hb : b ≠ 0) : gdiv a b = some (gmul a (invRom b)) := by
  simp only [gdiv, ginv, if_neg hb, Option.map_some]

/-- Division fails exactly on a zero divisor (R246). -/
theorem gdiv_eq_none (a b : Byte) : gdiv a b = none ↔ b = 0 := by
  simp [gdiv, ginv]

/-- Settles O11: the ROM as a power, as a table, and as the one inverse. -/
theorem inverseRomInverts : Obligations.InverseRomInverts :=
  ⟨fun a => ⟨invRom_eq_gpow a, invTable_getElem? a⟩, invRom_zero, fun _ ha _ => gmul_eq_one_iff ha, gdiv_eq_none,
    fun b hb => by rw [gdiv_of_ne_zero 0 hb, zero_gmul]⟩

end Sys2Proof.Machine
end

section
/-! PROOFS. How a command ends (R402, R408, R414, R456): said once for every command, and what follows for CPC, CMDRET, the
error record and the field registers. -/

namespace Sys2Proof.Machine

/-! ### The four ways a command ends -/

/-- `u` is `s` but for what a command computes: field and configuration registers, DMEM, and the entropy bytes left. -/
def ComputesFrom (s u : State) : Prop :=
  u = { s with f := u.f, cfg := u.cfg, dmem := u.dmem, entropy := u.entropy }

namespace ComputesFrom

variable {s u : State} (h : ComputesFrom s u)
include h

theorem cpc_eq : u.cpc = s.cpc := (congrArg State.cpc h :)
theorem cmdret_eq : u.cmdret = s.cmdret := (congrArg State.cmdret h :)
theorem errv_eq : u.errv = s.errv := (congrArg State.errv h :)

end ComputesFrom

/-- Command `i` writes nothing before it ends with an error (R455 names the two that may). -/
def ChecksFirst (i : Instr) : Prop := (∀ rs1, i ≠ .prand rs1) ∧ i ≠ .split

/-- The outcomes of command `i` in `s`. -/
inductive Ends (i : Instr) (s : State) : Host.Outcome State Fault Refusal → Prop
  /-- It retires with its results (R402). -/
  | retires {u : State} (h : ComputesFrom s u) : Ends i s (.next (retire u))
  /-- It is HALT (R408). -/
  | halts (h : i = .halt) : Ends i s (.next { retire s with done := true, phase := .idle })
  /-- It raises an error with the work it has done until then (R455, R456). -/
  | raises (e : CmdError) {w : Work} (h : ChecksFirst i → w = Work.ofState s) : Ends i s (.next (raise e (commit s w)))
  /-- It waits or draws for ever (R414). -/
  | stays : Ends i s (.next s)

section Commands

variable (i : Instr) (s : State)

theorem writeResult_ends (rd : RegNum) (v : Byte) : Ends i s (writeResult rd v s) := .retires rfl

/-- An error raised before any work. -/
theorem raised_ends (e : CmdError) : Ends i s (raised e s) := by
  have h : Ends i s (.next (raise e (commit s (Work.ofState s)))) := .raises e fun _ => rfl
  rwa [commit_ofState] at h

theorem finish_ends {r : Work × Except Stop Unit}
    (h : ChecksFirst i → ∀ e, r.2 = .error (.error e) → r.1 = Work.ofState s) : Ends i s (finish s r) := by
  rcases finish_cases s r with ⟨-, hr⟩ | ⟨e, he, hr⟩ | ⟨-, hr⟩ <;> rw [hr]
  · exact .retires rfl
  · exact .raises e fun hi => h hi e he
  · exact .stays

theorem execGfinv_ends (rd rs1 : RegNum) : Ends i s (execGfinv rd rs1 s) := by
  unfold execGfinv
  split
  next => exact raised_ends i s _
  next => exact writeResult_ends i s rd _

theorem execGfdiv_ends (rd rs1 rs2 : RegNum) : Ends i s (execGfdiv rd rs1 rs2 s) := by
  unfold execGfdiv
  split
  next => exact raised_ends i s _
  next => exact writeResult_ends i s rd _

theorem execGflb_ends (rd : RegNum) (addr20 : Addr) : Ends i s (execGflb rd addr20 s) := by
  unfold execGflb
  split_ifs
  · exact raised_ends i s _
  · exact writeResult_ends i s rd _

theorem execSetcfg_ends (cfg : BitVec 4) (imm20 : Addr) : Ends i s (execSetcfg cfg imm20 s) := by
  unfold execSetcfg
  split_ifs
  · exact .retires rfl
  · exact raised_ends i s _

theorem execPeval_ends (rd rs1 : RegNum) : Ends i s (execPeval rd rs1 s) := by
  unfold execPeval
  split
  next => exact raised_ends i s _
  next => exact writeResult_ends i s rd _

theorem execLagr0_ends (rd : RegNum) : Ends i s (execLagr0 rd s) := by
  unfold execLagr0
  split
  next => exact raised_ends i s _
  next =>
    simp only
    split
    next => exact raised_ends i s _
    next => exact writeResult_ends i s rd _

/-- GFSB checks its address before it writes (R405). -/
theorem gfsbRun_error {rs : RegNum} {addr20 : Addr} {e : Stop} (h : (gfsbRun rs addr20 s).2 = .error e) :
    (gfsbRun rs addr20 s).1 = Work.ofState s := by
  unfold gfsbRun at h ⊢
  split_ifs at h ⊢
  rfl

/-- JOIN makes all its checks before it writes (R357). -/
theorem joinRun_error {e : Stop} (h : (joinRun s).2 = .error e) : (joinRun s).1 = Work.ofState s := by
  unfold joinRun at h ⊢
  simp only at h ⊢
  split
  next => rfl
  next hc =>
    simp only [hc] at h
    split
    next => rfl
    next hp => simp [hp] at h

theorem exec_ends : Ends i s (exec i s) := by
  cases i with
  | halt => exact .halts rfl
  | nop => exact .retires rfl
  | gfadd rd rs1 rs2 => exact writeResult_ends _ s rd _
  | gfmul rd rs1 rs2 => exact writeResult_ends _ s rd _
  | gfinv rd rs1 => exact execGfinv_ends _ s rd rs1
  | gfdiv rd rs1 rs2 => exact execGfdiv_ends _ s rd rs1 rs2
  | gfli rd imm8 => exact writeResult_ends _ s rd _
  | gfmov rd rs1 => exact writeResult_ends _ s rd _
  | gflb rd addr20 => exact execGflb_ends _ s rd addr20
  | gfsb rs addr20 => exact finish_ends _ s fun _ _ => gfsbRun_error s
  | setcfg cfg imm20 => exact execSetcfg_ends _ s cfg imm20
  | prand rs1 => exact finish_ends _ s fun hi => absurd rfl (hi.1 rs1)
  | peval rd rs1 => exact execPeval_ends _ s rd rs1
  | lagr0 rd => exact execLagr0_ends _ s rd
  | split => exact finish_ends _ s fun hi => absurd rfl hi.2
  | join => exact finish_ends _ s fun _ _ => joinRun_error s

end Commands

/-! ### CPC, CMDRET and the error record -/

/-- Retirement counts one command (R402), with both counters wrapping. -/
theorem advanced_retire {s u : State} (hcpc : u.cpc = s.cpc) (hcmd : u.cmdret = s.cmdret) : Advanced s (retire u) := by
  simp [Advanced, hcpc, hcmd, BitVec.toNat_add]

/-- Settles O45: of the four ways to end, two retire and two leave CPC and CMDRET. -/
theorem cpcMovesOnlyByRetirement : Obligations.CpcMovesOnlyByRetirement := by
  intro i s t h
  have hends := exec_ends i s
  rw [h] at hends
  cases hends with
  | retires hu => exact .inl (advanced_retire hu.cpc_eq hu.cmdret_eq)
  | halts _ => exact .inl (advanced_retire (u := s) rfl rfl)
  | raises e _ => exact .inr ⟨rfl, rfl⟩
  | stays => exact .inr ⟨rfl, rfl⟩

/-- Settles O46: only `raises` sets ERRV, and it keeps the state but for the error record and the work put back. -/
theorem errorsArePrecise : Obligations.ErrorsArePrecise := by
  intro i s t h hclear hset
  have hends := exec_ends i s
  rw [h] at hends
  cases hends with
  | retires hu => exact absurd (hu.errv_eq.symm.trans hset) (by simp [hclear])
  | halts _ => exact absurd hset (by simp [hclear])
  | stays => exact absurd hset (by simp [hclear])
  | raises e hw =>
    refine ⟨fun _ => rfl, fun _ hc => readCfg_commit_other s _ hc, rfl, rfl, rfl, rfl, fun hp hs => ?_⟩
    rw [hw ⟨hp, hs⟩, commit_ofState]
    exact ⟨fun _ => rfl, fun _ => rfl, fun _ => rfl, rfl⟩

/-! ### The commands that know no field register (R51) -/

/-- Work put back, an error and retirement do not depend on the field registers. -/
theorem finish_ignores_f {s t : State} {r : Work × Except Stop Unit} (f' : Vector Byte 16) (h : finish s r = .next t) :
    t.f = s.f ∧ finish { s with f := f' } r = .next { t with f := f' } := by
  obtain ⟨w, x⟩ := r
  rcases x with e | u
  · cases e <;> cases h <;> exact ⟨rfl, rfl⟩
  · cases h; exact ⟨rfl, rfl⟩

/-- Settles O48: NOP, HALT and SETCFG by their one update; SPLIT and JOIN because their work does not read F. -/
theorem fiveCommandsIgnoreFieldRegisters : Obligations.FiveCommandsIgnoreFieldRegisters := by
  intro i s t f' hwf hi h
  rcases hi with rfl | rfl | rfl | rfl | ⟨cfg, imm20, rfl⟩
  · exact finish_ignores_f (r := splitRun s) f' h
  · exact finish_ignores_f (r := joinRun s) f' h
  · cases h; exact ⟨rfl, rfl⟩
  · cases h; exact ⟨rfl, rfl⟩
  · have hcfg : cfg.toNat < 12 := of_decide_eq_true hwf
    have hexec (u : State) : exec (.setcfg cfg imm20) u = retired (u.writeCfg ⟨cfg.toNat, hcfg⟩ imm20) := dif_pos hcfg
    rw [hexec] at h ⊢
    cases h; exact ⟨rfl, rfl⟩

/-! ### Reset -/

/-- Settles O42: after reset every register is as `resetRegisters` leaves it, and DMEM lists nothing. -/
theorem invariantHoldsAtReset : Obligations.InvariantHoldsAtReset :=
  inv_iff.2 (State.InvFields.resetRegisters (s := State.reset) (by decide) ⟨.nil, nofun⟩)

end Sys2Proof.Machine
end

section
/-! PROOFS. The host's view of the registers (R53 to R68, R138 to R144): where each offset leads, what a host write does to
the state, and what the host reads. -/

namespace Sys2Proof.Machine

/-! ### Where an offset leads -/

/-- A 4-byte aligned offset below the DMEM window names a register (R139). -/
theorem hostTarget_register (s : State) {off : HostOff} (hlt : off.toNat < 0x100000) (h4 : off.toNat % 4 = 0) :
    hostTarget s off .w4 = registerAt off.toNat := by
  simp only [hostTarget, if_pos hlt, h4, and_self, if_true]

/-- From offset 0x028 on the map holds CFG, F and reserved offsets (R138). -/
theorem registerAt_of_ge {o : Nat} (h : 0x028 ≤ o) :
    registerAt o =
      if h : 0x040 ≤ o ∧ o < 0x070 then .cfg ⟨(o - 0x040) / 4, by omega⟩
      else if 0x080 ≤ o ∧ o < 0x0C0 then .f (BitVec.ofNat 4 ((o - 0x080) / 4))
      else .reserved := by
  unfold registerAt
  repeat rw [if_neg (by omega)]

theorem hostTarget_cfg (s : State) {off : HostOff} {c : CfgReg} (ho : off.toNat = 0x040 + 4 * c.val) :
    hostTarget s off .w4 = .cfg c := by
  have hc := c.isLt
  have hi : (off.toNat - 0x040) / 4 = c.val := by omega
  rw [hostTarget_register s (by omega) (by omega), registerAt_of_ge (by omega), dif_pos (by omega)]
  simp only [hi]

theorem hostTarget_f (s : State) {off : HostOff} {r : RegNum} (ho : off.toNat = 0x080 + 4 * r.toNat) :
    hostTarget s off .w4 = .f r := by
  have hr := r.isLt
  have hi : (off.toNat - 0x080) / 4 = r.toNat := by omega
  rw [hostTarget_register s (by omega) (by omega), registerAt_of_ge (by omega), dif_neg (by omega),
    if_pos (by omega), hi, BitVec.ofNat_toNat, BitVec.setWidth_eq]

/-- The offsets R138 leaves reserved, between the registers and up to the DMEM window. -/
theorem hostTarget_reserved (s : State) {off : HostOff} (h4 : off.toNat % 4 = 0)
    (ho : (0x028 ≤ off.toNat ∧ off.toNat < 0x040) ∨ (0x070 ≤ off.toNat ∧ off.toNat < 0x080) ∨
      (0x0C0 ≤ off.toNat ∧ off.toNat < 0x100000)) :
    hostTarget s off .w4 = .reserved := by
  rw [hostTarget_register s (by omega) h4, registerAt_of_ge (by omega), dif_neg (by omega), if_neg (by omega)]

/-! ### A host write is one step -/

/-- A legal machine whose next turn is a host write takes it whole (R144). -/
theorem step_hostWrite {s t : State} {off : HostOff} {width : Width} {data : Word} {cut : Nat} {rest : List Turn}
    {resp : HostResp} (hl : s.params.Legal) (ht : s.turns = .host (.write off width data) cut :: rest)
    (hw : hostWrite { s with turns := rest } off width data cut = (resp, t)) :
    step s = .next { t with hostResp := some resp } := by
  simp only [step, if_pos hl, move, ht, takeTurn, hostAccess, hw]

/-- The targets whose writes get an OK response and have no effect (R141, R142). -/
def HostTarget.ignoresWrites : HostTarget → Bool
  | .id | .version | .errCpc | .errInfo | .cmdret | .dmemsz | .maxlen | .reserved => true
  | .ctrl | .status | .cpc | .cfg _ | .f _ | .dmem _ | .bad => false

theorem hostWrite_ignored {s : State} {off : HostOff} {width : Width}
    (h : (hostTarget s off width).ignoresWrites = true) (data : Word) (cut : Nat) :
    hostWrite s off width data cut = (okResp 0, s) := by
  unfold hostWrite
  generalize hostTarget s off width = target at h ⊢
  cases target with
  | id | version | errCpc | errInfo | cmdret | dmemsz | maxlen | reserved => rfl
  | ctrl | status | cpc | cfg | f | dmem | bad => cases h

/-- GO on an idle unit (R57). -/
theorem writeCtrl_go {s : State} {data : Word} (cut : Nat) (hsrst : data.getLsbD 31 = false)
    (hgo : data.getLsbD 0 = true) (hidle : s.phase = .idle) :
    writeCtrl data cut s = go { s with ie := data.getLsbD 1 } := by
  simp only [writeCtrl, hsrst, hgo, hidle, Bool.false_eq_true, if_false, and_self, if_true]

/-- Without SRST, and without GO or while BUSY = 1, only IE is written (R56, R518). -/
theorem writeCtrl_ie {s : State} {data : Word} (cut : Nat) (hsrst : data.getLsbD 31 = false)
    (h : data.getLsbD 0 = false ∨ s.phase = .run) :
    writeCtrl data cut s = { s with ie := data.getLsbD 1 } := by
  have hgo : ¬(data.getLsbD 0 = true ∧ s.phase = .idle) := by
    rintro ⟨hd, hi⟩
    rw [hd, hi] at h
    exact absurd h (by decide)
  simp only [writeCtrl, hsrst, Bool.false_eq_true, if_false, if_neg hgo]

/-- Each of the two write-1-to-clear bits acts on its own flag (R60). -/
theorem writeStatus_eq (data : Word) (s : State) :
    writeStatus data s = { s with
      done := s.done && !data.getLsbD 1, errv := s.errv && !data.getLsbD 2,
      errCode := if data.getLsbD 2 then 0 else s.errCode } := by
  unfold writeStatus
  generalize data.getLsbD 1 = clearDone
  generalize data.getLsbD 2 = clearErr
  cases clearDone <;> cases clearErr <;> simp

/-- Settles O52: with bit 31 clear a CTRL write is `go` or sets IE alone. -/
theorem ctrlWriteStartsARunOrOnlySetsIe : Obligations.CtrlWriteStartsARunOrOnlySetsIe := by
  intro s data cut rest hl ht hsrst
  have hw (t : State) (h : writeCtrl data cut { s with turns := rest } = t) :
      step s = .next { t with hostResp := some (okResp 0) } :=
    step_hostWrite hl ht (h ▸ rfl)
  exact ⟨fun hgo hidle => hw _ (writeCtrl_go cut hsrst hgo hidle), fun h => hw _ (writeCtrl_ie cut hsrst h)⟩

/-- Settles O53: one host turn, which is `writeStatus`. -/
theorem statusBitsClearByWritingOne : Obligations.StatusBitsClearByWritingOne := by
  intro s data cut rest hl ht
  have hw : hostWrite { s with turns := rest } 0x00C .w4 data cut =
      (okResp 0, writeStatus data { s with turns := rest }) := rfl
  rw [writeStatus_eq] at hw
  exact step_hostWrite hl ht hw

/-! ### What an idle unit's registers keep of a host write -/

theorem busy_eq_false {s : State} (h : s.phase = .idle) : s.busy = false := by simp [State.busy, h]

theorem imm8Of_toNat (w : Word) : (imm8Of w).toNat = w.toNat % 2 ^ 8 := by simp [imm8Of, bits]

theorem imm20Of_toNat (w : Word) : (imm20Of w).toNat = w.toNat % 2 ^ 20 := by simp [imm20Of, bits]

/-- MODE keeps the low three bits of a value, the other configuration registers all twenty (R67, R68). -/
theorem cfgKept_toNat (c : CfgReg) (v : Addr) :
    (cfgKept c v).toNat = v.toNat % (if c.val = 11 then 2 ^ 3 else 2 ^ 20) := by
  unfold cfgKept
  by_cases hc : c = CfgReg.mode
  · subst hc
    exact Nat.and_two_pow_sub_one_eq_mod _ 3
  · have hv : c.val ≠ 11 := fun h => hc (Fin.ext h)
    rw [if_neg hc, if_neg hv, Nat.mod_eq_of_lt v.isLt]

/-- The mask of CPC's writable bits clears the two lowest bits and no other (R54). -/
theorem cpcMask_eq_shifts (v : Addr) : v &&& 0xFFFFC#20 = v >>> 2 <<< 2 := by
  have hmask : ∀ i < 20, (0xFFFFC#20).getLsbD i = decide (2 ≤ i) := by decide
  refine BitVec.eq_of_getLsbD_eq fun i hi => ?_
  rw [BitVec.getLsbD_and, hmask i hi, BitVec.getLsbD_shiftLeft, BitVec.getLsbD_ushiftRight]
  by_cases h : 2 ≤ i
  · simp [h, hi, show ¬i < 2 by omega, show 2 + (i - 2) = i by omega]
  · simp [h, show i < 2 by omega]

/-- CPC keeps bits [19:2] of a value (R54). -/
theorem cpcKept_toNat (data : Word) : (cpcKept data).toNat = data.toNat % 2 ^ 20 / 4 * 4 := by
  rw [cpcKept, cpcMask_eq_shifts, ← imm20Of_toNat, BitVec.toNat_shiftLeft, BitVec.toNat_ushiftRight,
    Nat.shiftRight_eq_div_pow, Nat.shiftLeft_eq]
  have := (imm20Of data).isLt
  omega

/-- An idle unit's F[r] reads zero-extended (R53, R142). -/
theorem hostRead_f {s : State} {off : HostOff} {r : RegNum} {n : Nat} (ho : off.toNat = 0x080 + 4 * r.toNat)
    (hidle : s.phase = .idle) (hn : (s.readF r).toNat = n) : hostRead s off .w4 = okResp (BitVec.ofNat 32 n) := by
  simp only [hostRead, hostTarget_f s ho, busy_eq_false hidle, Bool.false_eq_true, if_false, ← hn,
    BitVec.ofNat_toNat]

/-- An idle unit's CFG[c] reads zero-extended (R67, R142). -/
theorem hostRead_cfg {s : State} {off : HostOff} {c : CfgReg} {n : Nat} (ho : off.toNat = 0x040 + 4 * c.val)
    (hidle : s.phase = .idle) (hn : (s.readCfg c).toNat = n) : hostRead s off .w4 = okResp (BitVec.ofNat 32 n) := by
  simp only [hostRead, hostTarget_cfg s ho, busy_eq_false hidle, Bool.false_eq_true, if_false, ← hn,
    BitVec.ofNat_toNat]

/-- CPC reads zero-extended, idle or busy (R54, R142). -/
theorem hostRead_cpc {s : State} {n : Nat} (hn : s.cpc.toNat = n) :
    hostRead s 0x010 .w4 = okResp (BitVec.ofNat 32 n) := by
  have ht : hostTarget s 0x010 .w4 = .cpc := rfl
  simp only [hostRead, ht, ← hn, BitVec.ofNat_toNat]

theorem hostWrite_f {s : State} {off : HostOff} {r : RegNum} (ho : off.toNat = 0x080 + 4 * r.toNat)
    (hidle : s.phase = .idle) (data : Word) (cut : Nat) :
    hostWrite s off .w4 data cut = (okResp 0, s.writeF r (imm8Of data)) := by
  simp only [hostWrite, hostTarget_f s ho, busy_eq_false hidle, Bool.false_eq_true, if_false]

theorem hostWrite_cfg {s : State} {off : HostOff} {c : CfgReg} (ho : off.toNat = 0x040 + 4 * c.val)
    (hidle : s.phase = .idle) (data : Word) (cut : Nat) :
    hostWrite s off .w4 data cut = (okResp 0, s.writeCfg c (imm20Of data)) := by
  simp only [hostWrite, hostTarget_cfg s ho, busy_eq_false hidle, Bool.false_eq_true, if_false]

theorem hostWrite_cpc {s : State} (hidle : s.phase = .idle) (data : Word) (cut : Nat) :
    hostWrite s 0x010 .w4 data cut = (okResp 0, { s with cpc := cpcKept data }) := by
  have ht : hostTarget s 0x010 .w4 = .cpc := rfl
  simp only [hostWrite, ht, busy_eq_false hidle, Bool.false_eq_true, if_false]

/-- Settles O56: each register's write is one named update of the state, and its read back is what that update kept. -/
theorem hostWritesRegistersWhenIdle : Obligations.HostWritesRegistersWhenIdle := by
  intro s data cut rest hl hidle
  let u : State := { s with turns := rest }
  refine ⟨fun r off ho ht => ?_, fun c off ho ht => ?_, fun ht => ?_⟩
  · have hkept : ((u.writeF r (imm8Of data)).readF r).toNat = data.toNat % 2 ^ 8 := by
      rw [readF_writeF_same, imm8Of_toNat]
    exact ⟨_, step_hostWrite hl ht (hostWrite_f (s := u) ho hidle data cut), rfl, hkept,
      fun _ hne => readF_writeF_other u _ hne, hostRead_f ho hidle hkept⟩
  · have hkept : ((u.writeCfg c (imm20Of data)).readCfg c).toNat =
        data.toNat % (if c.val = 11 then 2 ^ 3 else 2 ^ 20) := by
      rw [readCfg_writeCfg_same, cfgKept_toNat, imm20Of_toNat]
      split_ifs <;> omega
    exact ⟨_, step_hostWrite hl ht (hostWrite_cfg (s := u) ho hidle data cut), rfl, hkept,
      fun _ hne => readCfg_writeCfg_other u _ hne, hostRead_cfg ho hidle hkept⟩
  · exact ⟨_, step_hostWrite hl ht (hostWrite_cpc (s := u) hidle data cut), rfl, cpcKept_toNat data,
      hostRead_cpc (cpcKept_toNat data)⟩

/-! ### Constants, reserved offsets and read-only registers -/

/-- The fixed offsets of the registers that ignore writes, and the reserved offsets (R138, R141, R142). -/
theorem hostTarget_ignoresWrites (s : State) {off : HostOff}
    (h : (off = 0x000 ∨ off = 0x004 ∨ off = 0x014 ∨ off = 0x018 ∨ off = 0x01C ∨ off = 0x020 ∨ off = 0x024) ∨
      (off.toNat % 4 = 0 ∧
        ((0x028 ≤ off.toNat ∧ off.toNat < 0x040) ∨ (0x070 ≤ off.toNat ∧ off.toNat < 0x080) ∨
         (0x0C0 ≤ off.toNat ∧ off.toNat < 0x100000)))) :
    (hostTarget s off .w4).ignoresWrites = true := by
  rcases h with h | ⟨h4, h⟩
  · rcases h with rfl | rfl | rfl | rfl | rfl | rfl | rfl <;> rfl
  · rw [hostTarget_reserved s h4 h]; rfl

/-- Settles O57: reads go by the map; every write named goes to a target that ignores writes. -/
theorem constantsAndReservedOffsets : Obligations.ConstantsAndReservedOffsets := by
  refine ⟨fun s => ⟨rfl, rfl, fun hl => ?_, fun off h4 ho => ?_⟩, fun s off data cut rest hl ht hoff => ?_⟩
  · obtain ⟨-, -, hsize, -, hlen⟩ := hl
    exact ⟨rfl, Nat.mod_eq_of_lt (by omega), rfl, Nat.mod_eq_of_lt (by omega)⟩
  · simp only [hostRead, hostTarget_reserved s h4 ho, okResp]
  · exact step_hostWrite hl ht (hostWrite_ignored (hostTarget_ignoresWrites _ hoff) data cut)

/-! ### STATUS and CTRL -/

/-- A field that fits a word at bit `lo`, bit by bit. -/
theorem getLsbD_fieldAt {n lo : Nat} (v : BitVec n) (hfit : lo + n ≤ 32) (b : Nat) :
    (fieldAt v lo).getLsbD b = (decide (lo ≤ b) && v.getLsbD (b - lo)) := by
  rw [fieldAt, BitVec.getLsbD_shiftLeft, BitVec.getLsbD_setWidth]
  by_cases hb : b < 32
  · by_cases h : lo ≤ b
    · simp [hb, h, show ¬b < lo by omega, show b - lo < 32 by omega]
    · simp [h, show b < lo by omega]
  · simp [hb, BitVec.getLsbD_of_ge v (b - lo) (by omega)]

@[simp] theorem getLsbD_bit (x : Bool) (i : Nat) : (bit x).getLsbD i = (decide (i = 0) && x) := by
  cases x <;> simp [bit]

/-- STATUS bit by bit (R59). -/
theorem getLsbD_statusWord (s : State) (b : Nat) :
    s.statusWord.getLsbD b =
      (decide (b = 0) && s.busy || decide (b = 1) && s.done || decide (b = 2) && s.errv ||
        decide (8 ≤ b) && s.errCode.getLsbD (b - 8)) := by
  have h (lo : Nat) : (decide (lo ≤ b) && decide (b - lo = 0)) = decide (b = lo) := by
    rw [← Bool.decide_and, decide_eq_decide]; omega
  simp only [State.statusWord, BitVec.getLsbD_or, getLsbD_fieldAt, Nat.reduceAdd, Nat.reduceLeDiff, getLsbD_bit,
    ← Bool.and_assoc, h]

/-- CTRL bit by bit, as read: IE alone (R56). -/
theorem getLsbD_ctrlWord (s : State) (b : Nat) : s.ctrlWord.getLsbD b = (decide (b = 1) && s.ie) := by
  have h : (decide (1 ≤ b) && decide (b - 1 = 0)) = decide (b = 1) := by
    rw [← Bool.decide_and, decide_eq_decide]; omega
  rw [State.ctrlWord, getLsbD_fieldAt _ (by decide), getLsbD_bit, ← Bool.and_assoc, h]

/-- Settles O58: STATUS and CTRL from their bits, the other registers as the map reads them. -/
theorem statusAndCtrlReadTheirFields : Obligations.StatusAndCtrlReadTheirFields := by
  intro s
  refine ⟨⟨s.statusWord, rfl, ?_, ?_, ?_, ?_, fun b h3 hb => ?_⟩, ⟨s.ctrlWord, rfl, ?_, fun b hb => ?_⟩,
    ⟨_, rfl, BitVec.toNat_setWidth_of_le (by decide)⟩, ⟨_, rfl, BitVec.toNat_setWidth_of_le (by decide)⟩,
    rfl, rfl, ?_⟩
  · have hbusy : s.busy = true ↔ s.phase = .run := beq_iff_eq
    rw [getLsbD_statusWord]; simpa using hbusy
  · rw [getLsbD_statusWord]; simp
  · rw [getLsbD_statusWord]; simp
  · refine BitVec.eq_of_getLsbD_eq fun i hi => ?_
    rw [bits, BitVec.getLsbD_extractLsb', getLsbD_statusWord]
    simp [hi, show 8 + i ≠ 1 by omega, show 8 + i ≠ 2 by omega]
  · have hcode : (decide (8 ≤ b) && s.errCode.getLsbD (b - 8)) = false := by
      rcases hb with hb | hb
      · simp [show ¬8 ≤ b by omega]
      · simp [BitVec.getLsbD_of_ge s.errCode (b - 8) (by omega)]
    rw [getLsbD_statusWord, hcode]
    simp [show b ≠ 0 by omega, show b ≠ 1 by omega, show b ≠ 2 by omega]
  · rw [getLsbD_ctrlWord]; simp
  · rw [getLsbD_ctrlWord]; simp [hb]
  · simp [State.irq]

end Sys2Proof.Machine
end

section
/-! PROOFS. DMEM by bytes and by words (R133, R134), and what the fetch makes of the word at CPC (R137, R200, R401). -/

namespace Sys2Proof.Machine

/-! ### A word from its parts -/

theorem toNat_fieldAt {n lo : Nat} (v : BitVec n) (hfit : lo + n ≤ 32) :
    (fieldAt v lo).toNat = v.toNat * 2 ^ lo := by
  have hv : v.toNat < 2 ^ n := v.isLt
  have hlt : v.toNat * 2 ^ lo < 2 ^ 32 :=
    calc v.toNat * 2 ^ lo < 2 ^ n * 2 ^ lo := Nat.mul_lt_mul_of_pos_right hv (Nat.two_pow_pos lo)
      _ = 2 ^ (lo + n) := by rw [← Nat.pow_add, Nat.add_comm]
      _ ≤ 2 ^ 32 := Nat.pow_le_pow_right (by decide) hfit
  rw [fieldAt, BitVec.toNat_shiftLeft, BitVec.toNat_setWidth_of_le (by omega), Nat.shiftLeft_eq,
    Nat.mod_eq_of_lt hlt]

/-- A field placed above a word's set bits adds to it. -/
theorem toNat_or_fieldAt {n lo : Nat} {w : Word} (v : BitVec n) (hfit : lo + n ≤ 32) (hw : w.toNat < 2 ^ lo) :
    (w ||| fieldAt v lo).toNat = w.toNat + v.toNat * 2 ^ lo := by
  rw [BitVec.toNat_or, toNat_fieldAt v hfit, Nat.or_comm, ← Nat.shiftLeft_eq,
    ← Nat.shiftLeft_add_eq_or_of_lt hw, Nat.add_comm]

/-- Little-endian: byte `j` counts 2^(8j) (R133). -/
theorem toNat_wordOfBytes (b0 b1 b2 b3 : Byte) :
    (wordOfBytes b0 b1 b2 b3).toNat =
      b0.toNat + b1.toNat * 2 ^ 8 + b2.toNat * 2 ^ 16 + b3.toNat * 2 ^ 24 := by
  have h0 := b0.isLt
  have h1 := b1.isLt
  have h2 := b2.isLt
  have e0 : (b0.setWidth 32 : Word).toNat = b0.toNat := BitVec.toNat_setWidth_of_le (by decide)
  have e1 : (b0.setWidth 32 ||| fieldAt b1 8 : Word).toNat = b0.toNat + b1.toNat * 2 ^ 8 := by
    rw [toNat_or_fieldAt b1 (by decide) (by omega), e0]
  have e2 : (b0.setWidth 32 ||| fieldAt b1 8 ||| fieldAt b2 16 : Word).toNat =
      b0.toNat + b1.toNat * 2 ^ 8 + b2.toNat * 2 ^ 16 := by
    rw [toNat_or_fieldAt b2 (by decide) (by omega), e1]
  change (b0.setWidth 32 ||| fieldAt b1 8 ||| fieldAt b2 16 ||| fieldAt b3 24 : Word).toNat = _
  rw [toNat_or_fieldAt b3 (by decide) (by omega), e2]

theorem toNat_byteOfWord (w : Word) (j : Nat) : (byteOfWord w j).toNat = w.toNat / 2 ^ (8 * j) % 2 ^ 8 := by
  rw [byteOfWord, bits, BitVec.extractLsb'_toNat, Nat.shiftRight_eq_div_pow]

/-- A word is its four bytes (R133). -/
theorem wordOfBytes_byteOfWord (w : Word) :
    wordOfBytes (byteOfWord w 0) (byteOfWord w 1) (byteOfWord w 2) (byteOfWord w 3) = w := by
  have hw := w.isLt
  refine BitVec.eq_of_toNat_eq ?_
  simp only [toNat_wordOfBytes, toNat_byteOfWord]
  omega

/-- Each byte of a word is the one it was made from (R133). -/
theorem byteOfWord_wordOfBytes (f : Nat → Byte) {j : Nat} (hj : j < 4) :
    byteOfWord (wordOfBytes (f 0) (f 1) (f 2) (f 3)) j = f j := by
  have h0 := (f 0).isLt
  have h1 := (f 1).isLt
  have h2 := (f 2).isLt
  have h3 := (f 3).isLt
  refine BitVec.eq_of_toNat_eq ?_
  rw [toNat_byteOfWord, toNat_wordOfBytes]
  interval_cases j <;> omega

/-- ERR_INFO's sub-code and VALUE, each within its field (R62). -/
theorem toNat_errInfoWord {sub value : Nat} (hsub : sub < 2 ^ 4) (hval : value < 2 ^ 24) :
    (errInfoWord sub value).toNat = sub * 2 ^ 28 + value := by
  have e : (fieldAt (BitVec.ofNat 24 value) 0).toNat = value := by
    rw [toNat_fieldAt _ (by decide), BitVec.toNat_ofNat, Nat.mod_eq_of_lt hval, Nat.pow_zero, Nat.mul_one]
  rw [errInfoWord, BitVec.or_comm, toNat_or_fieldAt _ (by decide) (by omega), e, BitVec.toNat_ofNat,
    Nat.mod_eq_of_lt hsub, Nat.add_comm]

/-! ### Bytes and words of DMEM -/

namespace Dmem

variable (d : Dmem) (a : Nat) (w : Word)

theorem writeBytes_succ (n : Nat) : d.writeBytes a w (n + 1) = (d.writeBytes a w n).write (a + n) (byteOfWord w n) := by
  simp only [writeBytes, List.range_succ, List.foldl_append, List.foldl_cons, List.foldl_nil]

/-- A multi-byte write changes no byte but its own. -/
theorem read_writeBytes_outside (n : Nat) {x : Nat} (hx : x < a ∨ a + n ≤ x) :
    (d.writeBytes a w n).read x = d.read x := by
  induction n with
  | zero => rfl
  | succ n ih => rw [writeBytes_succ, read_write_other _ _ (by omega), ih (by omega)]

/-- A multi-byte write stores byte `j` at offset `j` (R133). -/
theorem read_writeBytes_inside {n j : Nat} (hj : j < n) : (d.writeBytes a w n).read (a + j) = byteOfWord w j := by
  induction n with
  | zero => omega
  | succ n ih =>
    rw [writeBytes_succ]
    rcases Nat.lt_succ_iff_lt_or_eq.1 hj with hlt | rfl
    · rw [read_write_other _ _ (by omega), ih hlt]
    · exact read_write_same _ _ _

/-- A word written is the word read (R133, R134). -/
theorem readWord_writeBytes : (d.writeBytes a w 4).readWord a = w := by
  have byte (j : Nat) (hj : j < 4) : (d.writeBytes a w 4).read (a + j) = byteOfWord w j :=
    d.read_writeBytes_inside a w hj
  have byte0 : (d.writeBytes a w 4).read a = byteOfWord w 0 := byte 0 (by decide)
  rw [readWord, byte0, byte 1 (by decide), byte 2 (by decide), byte 3 (by decide), wordOfBytes_byteOfWord]

/-- The bytes of a narrow read: those of its width, and 0 above (R133, log entry 13). -/
theorem byteOfWord_readBytes {n j : Nat} (hn : 0 < n) (hj : j < 4) :
    byteOfWord (d.readBytes a n) j = if j < n then d.read (a + j) else 0 := by
  have h := byteOfWord_wordOfBytes (fun i => if i < n then d.read (a + i) else 0) hj
  rwa [if_pos hn] at h

/-- A narrow read fits its width (log entry 13). -/
theorem toNat_readBytes_lt (width : Width) : (d.readBytes a width.bytes).toNat < 2 ^ (8 * width.bytes) := by
  have h0 := (d.read a).isLt
  have h1 := (d.read (a + 1)).isLt
  have hzero : (0 : Byte).toNat = 0 := rfl
  cases width with
  | w1 =>
    have hval := toNat_wordOfBytes (d.read a) 0 0 0
    change (wordOfBytes (d.read a) 0 0 0).toNat < 2 ^ 8
    omega
  | w2 =>
    have hval := toNat_wordOfBytes (d.read a) (d.read (a + 1)) 0 0
    change (wordOfBytes (d.read a) (d.read (a + 1)) 0 0).toNat < 2 ^ 16
    omega
  | w4 => exact (d.readBytes a 4).isLt

end Dmem

/-! ### The engine's step and the fetch -/

/-- With no turn listed, a running engine's step is one command cycle (R400). -/
theorem step_eq_cycle {s : State} (hl : s.params.Legal) (ht : s.turns = []) (hrun : s.phase = .run) :
    step s = cycle s := by
  simp only [step, if_pos hl, move, ht, engineStep, hrun]

theorem fetchDecode_beyond {s : State} (h : s.params.dmemSize < s.cpc.toNat + 4) :
    fetchDecode s = .error (.fetch s.cpc) := if_pos h

/-- A fetch inside DMEM decodes the word at CPC (R137). -/
theorem fetchDecode_inside {s : State} (h : s.cpc.toNat + 4 ≤ s.params.dmemSize) :
    fetchDecode s = (decode (s.dmem.readWord s.cpc.toNat)).mapError
      (fun _ => .illegal (s.dmem.readWord s.cpc.toNat)) := by
  rw [fetchDecode, if_neg (by omega)]
  cases decode (s.dmem.readWord s.cpc.toNat) <;> rfl

theorem cycle_of_error {s : State} {e : CmdError} (h : fetchDecode s = .error e) : cycle s = .next (raise e s) := by
  rw [cycle, h]; rfl

theorem cycle_of_ok {s : State} {i : Instr} (h : fetchDecode s = .ok i) : cycle s = exec i s := by
  rw [cycle, h]

/-- An error writes only its record (R456). -/
theorem raise_untouched (e : CmdError) (s : State) : Untouched s (raise e s) :=
  ⟨fun _ => rfl, fun _ => rfl, fun _ => rfl, rfl⟩

/-- Settles O6: the cycle raises the one error the fetch gives, and `raise` writes only the record. -/
theorem fetchAndDecodeErrorsAreRecorded : Obligations.FetchAndDecodeErrorsAreRecorded := by
  intro s hl ht hrun
  refine ⟨fun hbeyond => ?_, fun r hin hdec => ?_⟩
  · have hcpc := s.cpc.isLt
    have hinfo : (CmdError.fetch s.cpc).info.toNat = 0 * 2 ^ 28 + s.cpc.toNat :=
      toNat_errInfoWord (by decide) (by omega)
    exact ⟨_, (step_eq_cycle hl ht hrun).trans (cycle_of_error (fetchDecode_beyond hbeyond)),
      ⟨rfl, hinfo, rfl, rfl, rfl, rfl, rfl, rfl, rfl, rfl, rfl, rfl, rfl⟩, raise_untouched _ s⟩
  · have hfetch : fetchDecode s = .error (.illegal (s.dmem.readWord s.cpc.toNat)) := by
      rw [fetchDecode_inside hin, hdec]; rfl
    exact ⟨_, (step_eq_cycle hl ht hrun).trans (cycle_of_error hfetch),
      rfl, rfl, rfl, rfl, rfl, rfl, rfl, rfl, ⟨rfl, rfl, rfl, rfl, rfl⟩, raise_untouched _ s⟩

/-! ### A word placed for the next fetch (log entry 12) -/

/-- Before it stores the word, `placeWord` has brought about a state `u` with no turn left, the unit running and the
fetch inside DMEM. -/
theorem placeWord_eq {s : State} (hl : s.params.Legal) (nbits w : Nat) :
    ∃ u : State, placeWord s nbits w =
        { u with dmem := u.dmem.writeBytes u.cpc.toNat (BitVec.ofNat 32 (w % 2 ^ nbits)) 4 } ∧
      u.params = s.params ∧ u.turns = [] ∧ u.phase = .run ∧ u.cpc.toNat + 4 ≤ s.params.dmemSize := by
  have hrun (h : s.phase ≠ .idle) : s.phase = .run := by
    cases hphase : s.phase with
    | idle => exact absurd hphase h
    | run => rfl
  obtain ⟨-, hsize, -⟩ := hl
  have hzero : 0 + 4 ≤ s.params.dmemSize := by omega
  refine ⟨_, rfl, ?_⟩
  split_ifs with hidle hcpc hcpc
  · exact ⟨rfl, rfl, rfl, hzero⟩
  · exact ⟨rfl, rfl, rfl, Nat.le_of_not_lt hcpc⟩
  · exact ⟨rfl, rfl, hrun hidle, hzero⟩
  · exact ⟨rfl, rfl, hrun hidle, Nat.le_of_not_lt hcpc⟩

/-- Settles O7: `placeWord` leaves the unit running with the word where the fetch reads it. -/
theorem placedWordRunsNext : Obligations.PlacedWordRunsNext := by
  intro s w i hl hdec
  obtain ⟨u, hplace, hparams, hturns, hrun, hin⟩ := placeWord_eq hl 32 w.toNat
  have hword : BitVec.ofNat 32 (w.toNat % 2 ^ 32) = w := by
    rw [Nat.mod_eq_of_lt w.isLt, BitVec.ofNat_toNat, BitVec.setWidth_eq]
  have hfetch : fetchDecode { u with dmem := u.dmem.writeBytes u.cpc.toNat w 4 } = .ok i := by
    rw [fetchDecode_inside (hparams ▸ hin), Dmem.readWord_writeBytes, hdec]; rfl
  rw [State.withFetchWord, hplace, hword, ← cycle_of_ok hfetch]
  exact step_eq_cycle (hparams ▸ hl) hturns hrun

end Sys2Proof.Machine
end

section
/-! PROOFS. Host accesses (R139 to R144): what a read or a refused access leaves, what a busy unit refuses, and the DMEM
window byte by byte. -/

namespace Sys2Proof.Machine

/-! ### Where an offset leads -/

/-- Below the window only whole aligned words are reached (R139). -/
theorem hostTarget_bad_register (s : State) {off : HostOff} {width : Width} (hlt : off.toNat < 0x100000)
    (h : ¬(width = .w4 ∧ off.toNat % 4 = 0)) : hostTarget s off width = .bad := by
  simp only [hostTarget, if_pos hlt, if_neg h]

/-- From 0x100000 on an access naturally aligned and inside DMEM reaches the byte at the offset's distance (R140). -/
theorem hostTarget_window {s : State} {off : HostOff} {width : Width} (hge : 0x100000 ≤ off.toNat)
    (halign : off.toNat % width.bytes = 0) (hin : off.toNat + width.bytes ≤ 0x100000 + s.params.dmemSize) :
    hostTarget s off width = .dmem (off.toNat - 0x100000) := by
  have h : off.toNat % width.bytes = 0 ∧ off.toNat - 0x100000 + width.bytes ≤ s.params.dmemSize :=
    ⟨halign, by omega⟩
  simp only [hostTarget, if_neg (Nat.not_lt.2 hge), if_pos h]

/-- From 0x100000 on every other access reaches nothing (R140). -/
theorem hostTarget_bad_window {s : State} {off : HostOff} {width : Width} (hge : 0x100000 ≤ off.toNat)
    (h : ¬(off.toNat % width.bytes = 0 ∧ off.toNat + width.bytes ≤ 0x100000 + s.params.dmemSize)) :
    hostTarget s off width = .bad := by
  have h' : ¬(off.toNat % width.bytes = 0 ∧ off.toNat - 0x100000 + width.bytes ≤ s.params.dmemSize) :=
    fun ⟨halign, hin⟩ => h ⟨halign, by omega⟩
  simp only [hostTarget, if_neg (Nat.not_lt.2 hge), if_neg h']

/-! ### What is refused -/

/-- The targets an access of which gets an ERROR response, reads and writes alike (R139, R140, R142). -/
def HostTarget.refused (busy : Bool) : HostTarget → Bool
  | .bad => true
  | .cfg _ | .f _ | .dmem _ => busy
  | .id | .version | .ctrl | .status | .cpc | .errCpc | .errInfo | .cmdret | .dmemsz | .maxlen | .reserved => false

/-- A read of a refused target reads 0 with an ERROR response (R143). -/
theorem hostRead_of_refused {s : State} {off : HostOff} {width : Width}
    (h : (hostTarget s off width).refused s.busy = true) : hostRead s off width = errorResp := by
  unfold hostRead
  generalize hostTarget s off width = target at h ⊢
  cases target with
  | bad => rfl
  | cfg | f | dmem => exact if_pos h
  | _ => cases h

/-- A read of any other target gets an OK response (R143). -/
theorem hostRead_ok_of_not_refused {s : State} {off : HostOff} {width : Width}
    (h : (hostTarget s off width).refused s.busy = false) : (hostRead s off width).ok = true := by
  unfold hostRead
  generalize hostTarget s off width = target at h ⊢
  cases target with
  | bad => cases h
  | cfg | f | dmem =>
    have hidle : ¬s.busy = true := ne_true_of_eq_false h
    simp only [if_neg hidle, okResp]
  | _ => rfl

/-- A write of a refused target gets an ERROR response and changes nothing (R143). -/
theorem hostWrite_of_refused {s : State} {off : HostOff} {width : Width}
    (h : (hostTarget s off width).refused s.busy = true) (data : Word) (cut : Nat) :
    hostWrite s off width data cut = (errorResp, s) := by
  unfold hostWrite
  generalize hostTarget s off width = target at h ⊢
  cases target with
  | bad => rfl
  | cfg | f | dmem => exact if_pos h
  | _ => cases h

/-- While BUSY = 1 a write of CPC is refused too (R142). -/
theorem hostWrite_cpc_of_busy {s : State} (h : s.busy = true) (data : Word) (cut : Nat) :
    hostWrite s 0x010 .w4 data cut = (errorResp, s) := by
  have ht : hostTarget s 0x010 .w4 = .cpc := rfl
  simp only [hostWrite, ht, if_pos h]

/-- A write either is refused and changes nothing, or gets an OK response (R143). -/
theorem hostWrite_cases (s : State) (off : HostOff) (width : Width) (data : Word) (cut : Nat) :
    hostWrite s off width data cut = (errorResp, s) ∨ (hostWrite s off width data cut).1 = okResp 0 := by
  unfold hostWrite
  cases hostTarget s off width with
  | bad => exact .inl rfl
  | cpc | cfg | f | dmem =>
    cases s.busy with
    | true => exact .inl rfl
    | false => exact .inr rfl
  | _ => exact .inr rfl

/-- While BUSY = 1 the offsets of CFG, F and the DMEM window are refused at any width (R142). -/
theorem refused_of_busy {s : State} {off : HostOff} (hbusy : s.busy = true) (width : Width)
    (ho : (0x040 ≤ off.toNat ∧ off.toNat < 0x070) ∨ (0x080 ≤ off.toNat ∧ off.toNat < 0x0C0) ∨ 0x100000 ≤ off.toNat) :
    (hostTarget s off width).refused s.busy = true := by
  rw [hbusy]
  by_cases hge : 0x100000 ≤ off.toNat
  · by_cases hin : off.toNat % width.bytes = 0 ∧ off.toNat + width.bytes ≤ 0x100000 + s.params.dmemSize
    · rw [hostTarget_window hge hin.1 hin.2]; rfl
    · rw [hostTarget_bad_window hge hin]; rfl
  · by_cases hword : width = .w4 ∧ off.toNat % 4 = 0
    · obtain ⟨rfl, h4⟩ := hword
      rw [hostTarget_register s (by omega) h4, registerAt_of_ge (by omega)]
      by_cases hcfg : 0x040 ≤ off.toNat ∧ off.toNat < 0x070
      · rw [dif_pos hcfg]; rfl
      · rw [dif_neg hcfg, if_pos (by omega)]; rfl
    · rw [hostTarget_bad_register s (by omega) hword]; rfl

/-! ### A host access is one step -/

/-- A legal machine whose next turn is a host access performs it whole (R144). -/
theorem step_hostAccess {s : State} {a : HostAccess} {cut : Nat} {rest : List Turn} (hl : s.params.Legal)
    (ht : s.turns = .host a cut :: rest) : step s = .next (hostAccess a cut { s with turns := rest }) := by
  simp only [step, if_pos hl, move, ht, takeTurn]

/-- An access of a refused target, be it a read or a write, changes nothing but the response (R143). -/
theorem hostAccess_of_refused {s : State} {a : HostAccess} {off : HostOff} {width : Width} {data : Word}
    (ha : a = .read off width ∨ a = .write off width data)
    (hr : (hostTarget s off width).refused s.busy = true) (cut : Nat) :
    hostAccess a cut s = { s with hostResp := some errorResp } := by
  rcases ha with rfl | rfl
  · simp only [hostAccess, hostRead_of_refused hr]
  · simp only [hostAccess, hostWrite_of_refused hr]

/-- An access answered with ERROR reads 0 and changes nothing else (R143). -/
theorem hostAccess_error {s : State} {a : HostAccess} {cut : Nat} {data : Word}
    (h : (hostAccess a cut s).hostResp = some { ok := false, data := data }) :
    data = 0 ∧ hostAccess a cut s = { s with hostResp := some errorResp } := by
  cases a with
  | read off width =>
    have hread : hostRead s off width = { ok := false, data := data } := Option.some.inj h
    cases hr : (hostTarget s off width).refused s.busy with
    | true =>
      exact ⟨congrArg HostResp.data (hread.symm.trans (hostRead_of_refused hr)),
        hostAccess_of_refused (data := 0) (.inl rfl) hr cut⟩
    | false =>
      have hok := hostRead_ok_of_not_refused hr
      rw [hread] at hok
      cases hok
  | write off width w =>
    have hwrite : (hostWrite s off width w cut).1 = { ok := false, data := data } := Option.some.inj h
    rcases hostWrite_cases s off width w cut with hw | hok
    · refine ⟨?_, by simp only [hostAccess, hw]⟩
      rw [hw] at hwrite
      exact (congrArg HostResp.data hwrite).symm
    · rw [hok] at hwrite
      cases hwrite

/-- Settles O54: the offsets named are refused at any width, and so is a write of CPC. -/
theorem busyUnitRefusesItsState : Obligations.BusyUnitRefusesItsState := by
  intro s a cut rest hl hrun ht ha
  have hbusy : ({ s with turns := rest } : State).busy = true := beq_iff_eq.2 hrun
  rcases ha with ⟨off, width, data, ha, ho⟩ | ⟨data, rfl⟩
  · rw [step_hostAccess hl ht, hostAccess_of_refused ha (refused_of_busy hbusy width ho)]; rfl
  · exact step_hostWrite hl ht (hostWrite_cpc_of_busy hbusy data cut)

/-- Settles O55: a read sets only the response; an ERROR response leaves what `hostAccess_error` says; an access outside the
map reaches nothing, which is refused. -/
theorem readsAndRefusedAccessesHaveNoEffect : Obligations.ReadsAndRefusedAccessesHaveNoEffect := by
  intro s t a cut rest hl ht hstep
  rw [step_hostAccess hl ht] at hstep
  cases hstep
  refine ⟨fun off width ha => ?_, fun data hresp => ?_, fun off width data ha hbad => ?_⟩
  · subst ha; rfl
  · obtain ⟨hdata, hsame⟩ := hostAccess_error hresp
    exact ⟨hdata, by rw [hsame]⟩
  · have htarget : hostTarget { s with turns := rest } off width = .bad := by
      rcases hbad with ⟨hlt, h⟩ | ⟨hge, h⟩
      · exact hostTarget_bad_register _ hlt h
      · exact hostTarget_bad_window hge h
    rw [hostAccess_of_refused ha (by rw [htarget]; rfl)]; rfl

/-! ### The DMEM window of an idle unit -/

section Window

variable {s : State} {off : HostOff} {width : Width} (hidle : s.phase = .idle) (hge : 0x100000 ≤ off.toNat)
  (halign : off.toNat % width.bytes = 0) (hin : off.toNat + width.bytes ≤ 0x100000 + s.params.dmemSize)
include hidle hge halign hin

theorem hostWrite_window (data : Word) (cut : Nat) :
    hostWrite s off width data cut =
      (okResp 0, { s with dmem := s.dmem.writeBytes (off.toNat - 0x100000) data width.bytes }) := by
  simp only [hostWrite, hostTarget_window hge halign hin, busy_eq_false hidle, Bool.false_eq_true, if_false]

theorem hostRead_window :
    hostRead s off width = okResp (s.dmem.readBytes (off.toNat - 0x100000) width.bytes) := by
  simp only [hostRead, hostTarget_window hge halign hin, busy_eq_false hidle, Bool.false_eq_true, if_false]

end Window

/-- Settles O59: a write is `writeBytes`, a read `readBytes`, and both are little-endian. -/
theorem dmemWindowIsLittleEndian : Obligations.DmemWindowIsLittleEndian := by
  intro s off width cut rest hl hidle hge halign hin
  refine ⟨fun data ht => ?_, fun ht => ?_⟩
  · refine ⟨_, step_hostWrite hl ht (hostWrite_window (s := { s with turns := rest }) hidle hge halign hin data cut),
      rfl, fun j hj => ?_, fun x hx => Dmem.read_writeBytes_outside _ _ _ _ hx, fun hw => ?_⟩
    · rw [← toNat_byteOfWord]
      exact congrArg BitVec.toNat (Dmem.read_writeBytes_inside _ _ _ hj)
    · subst hw
      exact Dmem.readWord_writeBytes _ _ _
  · have hwidth : 0 < width.bytes ∧ width.bytes ≤ 4 := by cases width <;> decide
    have hread := hostRead_window (s := { s with turns := rest }) hidle hge halign hin
    refine ⟨s.dmem.readBytes (off.toNat - 0x100000) width.bytes, ?_, fun j hj => ?_, Dmem.toNat_readBytes_lt _ _ _⟩
    · rw [step_hostAccess hl ht, hostAccess, hread]; rfl
    · rw [← toNat_byteOfWord, Dmem.byteOfWord_readBytes _ _ hwidth.1 (by omega), if_pos hj]

end Sys2Proof.Machine
end

section
/-! PROOFS. Decoding and encoding (R190 to R202): what a field reads of a word put together from fields, when a word
decodes, and that the decoder and the encoder are each other's inverse. -/

namespace Sys2Proof

/-! ### A field of a word -/

theorem bits_or (v w : Word) (lo n : Nat) : bits (v ||| w) lo n = bits v lo n ||| bits w lo n :=
  BitVec.extractLsb'_or

theorem bits_and (v w : Word) (lo n : Nat) : bits (v &&& w) lo n = bits v lo n &&& bits w lo n :=
  BitVec.extractLsb'_and

/-- A field is read back from where it was placed, whole. -/
theorem bits_fieldAt_same {n lo : Nat} (v : BitVec n) (hfit : lo + n ≤ 32) : bits (fieldAt v lo) lo n = v := by
  refine BitVec.eq_of_getLsbD_eq fun i hi => ?_
  have hbit : lo + i < 32 := by omega
  simp [bits, fieldAt, hi, hbit]

/-- A field reads 0 from a word whose only field stands apart from it. -/
theorem bits_fieldAt_apart {m n lo lo' : Nat} (v : BitVec m) (hapart : lo + n ≤ lo' ∨ lo' + m ≤ lo) :
    bits (fieldAt v lo') lo n = 0 := by
  refine BitVec.eq_of_getLsbD_eq fun i hi => ?_
  rcases hapart with hbelow | habove
  · have hlt : lo + i < lo' := by omega
    simp [bits, fieldAt, hlt]
  · have hzero : v.getLsbD (lo + i - lo') = false := BitVec.getLsbD_of_ge _ _ (by omega)
    simp [bits, fieldAt, hzero]

/-- A field put back where it was read keeps the word's bits there and no other. -/
theorem fieldAt_bits (w : Word) (lo n : Nat) :
    fieldAt (bits w lo n) lo = w &&& fieldAt (BitVec.allOnes n) lo := by
  refine BitVec.eq_of_getLsbD_eq fun i hi => ?_
  by_cases hlo : lo ≤ i
  · have hi' : lo + (i - lo) = i := Nat.add_sub_cancel' hlo
    simp [bits, fieldAt, hi, hi', Nat.not_lt.2 hlo, Bool.and_comm]
  · simp [bits, fieldAt, Nat.lt_of_not_le hlo]

/-! ### When a word decodes -/

/-- Each row of R199 fixes the whole opcode (R191). -/
theorem opcodeRows_fix_opcode :
    ∀ r ∈ opcodeRows, opcodeOf r.mask = BitVec.allOnes 8 ∧ opcodeOf r.pattern = r.opcode := by
  decide

/-- No two rows of R199 have one opcode: looking up a row's opcode finds that row. -/
theorem find?_opcode_of_mem {r : OpcodeRow} (hr : r ∈ opcodeRows) :
    opcodeRows.find? (fun r' => r'.opcode == r.opcode) = some r := by
  fin_cases hr <;> rfl

/-- A word that matches a row of R199 has its opcode. -/
theorem opcodeOf_eq_of_match {r : OpcodeRow} (hr : r ∈ opcodeRows) {w : Word} (hmatch : w &&& r.mask = r.pattern) :
    opcodeOf w = r.opcode := by
  obtain ⟨hmask, hpattern⟩ := opcodeRows_fix_opcode r hr
  calc opcodeOf w = opcodeOf w &&& opcodeOf r.mask := by rw [hmask, BitVec.and_allOnes]
    _ = opcodeOf (w &&& r.mask) := (bits_and ..).symm
    _ = r.opcode := by rw [hmatch, hpattern]

/-- R200: a word decodes to what a row of R199 that it matches makes of it, when that is well formed (R202). -/
theorem decode_eq_ok_iff {w : Word} {i : Instr} :
    decode w = .ok i ↔ ∃ r ∈ opcodeRows, w &&& r.mask = r.pattern ∧ r.command w = i ∧ WellFormed i := by
  constructor
  · intro h
    unfold decode at h
    split at h
    · cases h
    · next r hfind =>
      split_ifs at h with hmatch hwf
      cases h
      exact ⟨r, List.mem_of_find?_eq_some hfind, not_not.1 hmatch, rfl, hwf⟩
  · rintro ⟨r, hr, hmatch, rfl, hwf⟩
    rw [decode, opcodeOf_eq_of_match hr hmatch, find?_opcode_of_mem hr]
    exact (if_neg (not_not.2 hmatch)).trans (if_pos hwf)

/-- R200: a word is some command's when it matches a row of R199 whose command is well formed. -/
theorem decode_ok_iff_match {w : Word} :
    (∃ i, decode w = .ok i) ↔ ∃ r ∈ opcodeRows, w &&& r.mask = r.pattern ∧ WellFormed (r.command w) := by
  simp only [decode_eq_ok_iff]
  constructor
  · rintro ⟨_, r, hr, hmatch, rfl, hwf⟩
    exact ⟨r, hr, hmatch, hwf⟩
  · rintro ⟨r, hr, hmatch, hwf⟩
    exact ⟨_, r, hr, hmatch, rfl, hwf⟩

/-! ### The row of a command -/

/-- The row of R199 that a command is encoded by. -/
def rowOf : Instr → OpcodeRow
  | .halt => opcodeRows[0]
  | .nop => opcodeRows[1]
  | .gfadd .. => opcodeRows[2]
  | .gfmul .. => opcodeRows[3]
  | .gfinv .. => opcodeRows[4]
  | .gfdiv .. => opcodeRows[5]
  | .gfli .. => opcodeRows[6]
  | .gfmov .. => opcodeRows[7]
  | .gflb .. => opcodeRows[8]
  | .gfsb .. => opcodeRows[9]
  | .setcfg .. => opcodeRows[10]
  | .prand .. => opcodeRows[11]
  | .peval .. => opcodeRows[12]
  | .lagr0 .. => opcodeRows[13]
  | .split => opcodeRows[14]
  | .join => opcodeRows[15]

theorem rowOf_mem (i : Instr) : rowOf i ∈ opcodeRows := by
  cases i <;> exact List.getElem_mem _

/-- The word of a command matches its row of R199. -/
theorem encode_matches_rowOf (i : Instr) : encode i &&& (rowOf i).mask = (rowOf i).pattern := by
  cases i with
  | halt => exact Laws.EncodeMatches.halt
  | nop => exact Laws.EncodeMatches.nop
  | gfadd rd rs1 rs2 => exact Laws.EncodeMatches.gfadd rd rs1 rs2
  | gfmul rd rs1 rs2 => exact Laws.EncodeMatches.gfmul rd rs1 rs2
  | gfinv rd rs1 => exact Laws.EncodeMatches.gfinv rd rs1
  | gfdiv rd rs1 rs2 => exact Laws.EncodeMatches.gfdiv rd rs1 rs2
  | gfli rd imm8 => exact Laws.EncodeMatches.gfli rd imm8
  | gfmov rd rs1 => exact Laws.EncodeMatches.gfmov rd rs1
  | gflb rd addr20 => exact Laws.EncodeMatches.gflb rd addr20
  | gfsb rs addr20 => exact Laws.EncodeMatches.gfsb rs addr20
  | setcfg cfg imm20 => exact Laws.EncodeMatches.setcfg cfg imm20
  | prand rs1 => exact Laws.EncodeMatches.prand rs1
  | peval rd rs1 => exact Laws.EncodeMatches.peval rd rs1
  | lagr0 rd => exact Laws.EncodeMatches.lagr0 rd
  | split => exact Laws.EncodeMatches.split
  | join => exact Laws.EncodeMatches.join

/-- The row reads every operand back from the word it was placed in: the fields of one format stand apart (R192-R196). -/
theorem rowOf_command_encode (i : Instr) : (rowOf i).command (encode i) = i := by
  cases i <;>
    simp [rowOf, opcodeRows, encode, rdOf, rs1Of, rs2Of, imm8Of, imm20Of, bits_or, bits_fieldAt_same,
      bits_fieldAt_apart]

/-- The operand fields of a row are the bits its mask leaves free, all of them, each where the row reads it. -/
theorem encode_command {r : OpcodeRow} (hr : r ∈ opcodeRows) (w : Word) :
    encode (r.command w) = r.pattern ||| (w &&& ~~~r.mask) := by
  fin_cases hr <;>
    simp only [encode, rdOf, rs1Of, rs2Of, imm8Of, imm20Of, fieldAt_bits, BitVec.or_assoc,
      ← BitVec.and_or_distrib_left] <;>
    simp [fieldAt]

/-! ### The obligations -/

/-- Settles O1: the word matches the command's row, and the row reads the operands back. -/
theorem decodeInvertsEncode : Obligations.DecodeInvertsEncode := fun i hwf =>
  decode_eq_ok_iff.2 ⟨rowOf i, rowOf_mem i, encode_matches_rowOf i, rowOf_command_encode i, hwf⟩

/-- Settles O2: the row that decoded the word fixes the bits of its mask, and its command keeps all the others. -/
theorem encodeInvertsDecode : Obligations.EncodeInvertsDecode := by
  intro w i h
  obtain ⟨r, hr, hmatch, rfl, hwf⟩ := decode_eq_ok_iff.1 h
  refine ⟨?_, hwf⟩
  calc encode (r.command w) = (w &&& r.mask) ||| (w &&& ~~~r.mask) := by rw [encode_command hr, hmatch]
    _ = w &&& (r.mask ||| ~~~r.mask) := BitVec.and_or_distrib_left.symm
    _ = w := by rw [BitVec.or_not_self, BitVec.and_allOnes]

/-- Settles O3: the statement lists the rows of `decode_ok_iff_match` in another order, and only SETCFG's row makes a
command that can be ill-formed. -/
theorem decodeAcceptsExactlyTheTable : Obligations.DecodeAcceptsExactlyTheTable := by
  intro w
  have hall : (0xFFFFFFFF : Word) = BitVec.allOnes 32 := rfl
  have hcfg : (decide ((rdOf w).toNat < 12) = true) ↔ (bits w 20 4).toNat ≤ 11 := by
    rw [decide_eq_true_iff, Nat.lt_succ_iff, rdOf]
  rw [decode_ok_iff_match]
  simp only [opcodeRows, List.mem_cons, List.not_mem_nil, or_false, exists_eq_or_imp, exists_eq_left, WellFormed,
    Instr.wellFormed, hcfg, hall, BitVec.and_allOnes, and_true]
  refine iff_of_eq ?_
  ac_rfl

/-- Settles O4: each word is evaluated. -/
theorem testVectorWordsDecode : Obligations.TestVectorWordsDecode := by
  unfold Obligations.TestVectorWordsDecode
  decide

end Sys2Proof
end

section
/-! PROOFS. The field laws (R247), and the product's two other forms (R243, R244): both are additive in each factor, as
the loop of R242 is, so the powers of x decide. -/

namespace Sys2Proof.Machine

/-! ### The field laws -/

theorem invRom_ne_zero {a : Byte} (ha : a ≠ 0) : invRom a ≠ 0 := by
  intro h0
  have h := gmul_invRom ha
  rw [h0, gmul_zero] at h
  exact absurd h (by decide)

theorem invRom_invRom {a : Byte} (ha : a ≠ 0) : invRom (invRom a) = a := by
  have h : gmul (invRom a) a = 1 := by rw [gmul_comm, gmul_invRom ha]
  exact ((gmul_eq_one_iff (invRom_ne_zero ha)).1 h).symm

theorem ginv_of_ne_zero {a : Byte} (ha : a ≠ 0) : ginv a = some (invRom a) := if_neg ha

/-- Settles O10: gadd is XOR; the laws of gmul are those of its loop, and the ROM inverts. -/
theorem fieldLaws : Obligations.FieldLaws := by
  intro a b c
  refine ⟨BitVec.xor_comm a b, BitVec.xor_assoc a b c, BitVec.xor_self, BitVec.xor_zero, gmul_comm a b,
    gmul_assoc a b c, gmul_one a, gmul_xor_right a b c, fun ha => ⟨invRom a, ginv_of_ne_zero ha, gmul_invRom ha, ?_⟩⟩
  rw [ginv_of_ne_zero (invRom_ne_zero ha), invRom_invRom ha]

/-! ### Products that agree on the powers of x -/

/-- `f` distributes over addition in each factor. -/
structure Biadditive (f : Byte → Byte → Byte) : Prop where
  left : ∀ a a' b, f (a ^^^ a') b = f a b ^^^ f a' b
  right : ∀ a b b', f a (b ^^^ b') = f a b ^^^ f a b'

/-- A biadditive function that is the product on the powers of x is the product. -/
theorem Biadditive.gmul_eq {f : Byte → Byte → Byte} (hf : Biadditive f)
    (hpow : ∀ j < 8, ∀ k < 8, gmul (1#8 <<< j) (1#8 <<< k) = f (1#8 <<< j) (1#8 <<< k)) (a b : Byte) :
    gmul a b = f a b := by
  have hleft (j : Nat) (hj : j < 8) : gmul (1#8 <<< j) b = f (1#8 <<< j) b :=
    additive_ext (gmul_xor_right _) (hf.right _) (hpow j hj) b
  exact additive_ext (f := (gmul · b)) (g := (f · b)) (fun _ _ => gmul_xor_left ..) (fun _ _ => hf.left ..) hleft a

/-! ### The reduced polynomial product (R243) -/

/-- A value added under a condition is a sum with a choice. -/
theorem ite_xor_eq {w : Nat} (c : Bool) (r v : BitVec w) :
    (if c = true then r ^^^ v else r) = r ^^^ if c = true then v else 0 := by
  cases c <;> simp

/-- Choosing by a sum of bits is the sum of the choices, at any width. -/
theorem ite_xor_cond {w : Nat} (p q : Bool) (v : BitVec w) :
    (if (p ^^ q) = true then v else 0) = (if p = true then v else 0) ^^^ (if q = true then v else 0) := by
  cases p <;> cases q <;> simp

/-- One more row of the carry-less product. -/
theorem clmul_succ (a b : Byte) (n : Nat) :
    clmul a b (n + 1) = clmul a b n ^^^ if b.getLsbD n = true then a.setWidth 16 <<< n else 0 :=
  ite_xor_eq ..

theorem clmul_xor_left (a a' b : Byte) (n : Nat) : clmul (a ^^^ a') b n = clmul a b n ^^^ clmul a' b n := by
  induction n with
  | zero => simp [clmul]
  | succ n ih =>
    simp only [clmul_succ, ih, BitVec.setWidth_xor, BitVec.shiftLeft_xor_distrib]
    split
    · ac_rfl
    · simp

theorem clmul_xor_right (a b b' : Byte) (n : Nat) : clmul a (b ^^^ b') n = clmul a b n ^^^ clmul a b' n := by
  induction n with
  | zero => simp [clmul]
  | succ n ih =>
    simp only [clmul_succ, ih, BitVec.getLsbD_xor, ite_xor_cond]
    ac_rfl

/-- One turn of the reduction: the modulus is added where the top coefficient is 1. -/
theorem reduce11B_succ (n : Nat) (p : BitVec 16) :
    reduce11B (n + 1) p = reduce11B n (p ^^^ if p.getLsbD (n + 8) = true then 0x11B#16 <<< n else 0) :=
  congrArg (reduce11B n) (ite_xor_eq ..)

theorem reduce11B_xor (n : Nat) (p q : BitVec 16) : reduce11B n (p ^^^ q) = reduce11B n p ^^^ reduce11B n q := by
  induction n generalizing p q with
  | zero => rfl
  | succ n ih =>
    simp only [reduce11B_succ, ← ih, BitVec.getLsbD_xor, ite_xor_cond]
    congr 1
    ac_rfl

theorem gmulPolynomial_biadditive : Biadditive gmulPolynomial where
  left a a' b := by simp only [gmulPolynomial, clmul_xor_left, reduce11B_xor, BitVec.setWidth_xor]
  right a b b' := by simp only [gmulPolynomial, clmul_xor_right, reduce11B_xor, BitVec.setWidth_xor]

/-- Settles O8: both products are biadditive, and they agree on the 64 pairs of powers of x. -/
theorem productIsReducedPolynomialProduct : Obligations.ProductIsReducedPolynomialProduct :=
  gmulPolynomial_biadditive.gmul_eq (by decide +kernel)

/-! ### The bit-parallel product (R244) -/

theorem xorTerms_cons (a b : Byte) (jk : Nat × Nat) (terms : List (Nat × Nat)) :
    xorTerms a b (jk :: terms) = ((a.getLsbD jk.1 && b.getLsbD jk.2) ^^ xorTerms a b terms) := by
  have hmap (l : List (Nat × Nat)) :
      xorTerms a b l = (l.map fun jk => a.getLsbD jk.1 && b.getLsbD jk.2).foldl Bool.xor false := by
    rw [List.foldl_map]; rfl
  rw [hmap, hmap, List.map_cons, List.foldl_cons, Bool.xor_comm false, List.foldl_assoc]

theorem xorTerms_xor_left (a a' b : Byte) (terms : List (Nat × Nat)) :
    xorTerms (a ^^^ a') b terms = (xorTerms a b terms ^^ xorTerms a' b terms) := by
  induction terms with
  | nil => rfl
  | cons jk terms ih =>
    simp only [xorTerms_cons, ih, BitVec.getLsbD_xor, Bool.and_xor_distrib_right, Bool.xor_assoc, Bool.xor_left_comm]

theorem xorTerms_xor_right (a b b' : Byte) (terms : List (Nat × Nat)) :
    xorTerms a (b ^^^ b') terms = (xorTerms a b terms ^^ xorTerms a b' terms) := by
  induction terms with
  | nil => rfl
  | cons jk terms ih =>
    simp only [xorTerms_cons, ih, BitVec.getLsbD_xor, Bool.and_xor_distrib_left, Bool.xor_assoc, Bool.xor_left_comm]

/-- Bit `n` of the bit-parallel product is the XOR of row `n` of R244's table. -/
theorem getLsbD_gmulParallel (a b : Byte) (n : Nat) :
    (gmulParallel a b).getLsbD n = (decide (n < 8) && xorTerms a b (andTerms.getD n [])) := by
  have hrow : (andTerms.map (xorTerms a b)).getD n (xorTerms a b []) = xorTerms a b (andTerms.getD n []) :=
    List.getD_map ..
  rw [gmulParallel, BitVec.getLsbD_setWidth, BitVec.getLsbD_ofBoolListLE, ← hrow]
  rfl

theorem gmulParallel_biadditive : Biadditive gmulParallel where
  left a a' b := BitVec.eq_of_getLsbD_eq fun n _ => by
    simp only [BitVec.getLsbD_xor, getLsbD_gmulParallel, xorTerms_xor_left, Bool.and_xor_distrib_left]
  right a b b' := BitVec.eq_of_getLsbD_eq fun n _ => by
    simp only [BitVec.getLsbD_xor, getLsbD_gmulParallel, xorTerms_xor_right, Bool.and_xor_distrib_left]

/-- Settles O9: both products are biadditive, and they agree on the 64 pairs of powers of x. -/
theorem productIsBitParallel : Obligations.ProductIsBitParallel :=
  gmulParallel_biadditive.gmul_eq (by decide +kernel)

end Sys2Proof.Machine
end

section
/-! PROOFS. The field commands (R248 to R253) and the errors of a command's operands (R136, R250, R251): each command is
its one write of rd, or its one error. -/

namespace Sys2Proof.Machine

/-! ### What completing and failing do to the state -/

/-- What a command that computes `u` leaves as it was, when it retires (R402, R456, R463). -/
theorem ComputesFrom.retires {s u : State} (h : ComputesFrom s u) (hpower : u.dmem.powerUp = s.dmem.powerUp) :
    Retires s (retire u) :=
  ⟨advanced_retire h.cpc_eq h.cmdret_eq, (congrArg State.phase h :), (congrArg State.done h :),
    ⟨h.errv_eq, (congrArg State.errCode h :), (congrArg State.errCpc h :), (congrArg State.errInfo h :)⟩,
    (congrArg State.ie h :), (congrArg State.params h :), (congrArg State.turns h :), (congrArg State.hostResp h :),
    hpower⟩

/-- A command whose result is `v` in rd completes and writes nothing else (R52, R402). -/
theorem writeResult_completes {o : Host.Outcome State Fault Refusal} {s : State} {rd : RegNum} {v : Byte}
    (ho : o = writeResult rd v s) :
    ∃ t, o = .next t ∧ Retires s t ∧ t.readF rd = v ∧
      FSameExcept rd s t ∧ CfgSame s t ∧ MemSame s t ∧ t.entropy = s.entropy := by
  have hcomputes : ComputesFrom s (s.writeF rd v) := rfl
  exact ⟨_, ho, hcomputes.retires rfl, readF_writeF_same s rd v, fun _ hne => readF_writeF_other s v hne,
    fun _ => rfl, fun _ => rfl, rfl⟩

/-- An error raised before any work is recorded, and that is all (R455, R456). -/
theorem raised_recorded {o : Host.Outcome State Fault Refusal} {e : CmdError} {s : State} {code sub value : Nat}
    (ho : o = raised e s) (hcode : e.code.toNat = code) (hinfo : e.info.toNat = sub * 2 ^ 28 + value) :
    ∃ t, o = .next t ∧ ErrorRecorded code sub value s t ∧ Untouched s t :=
  ⟨_, ho, ⟨rfl, hinfo, hcode, rfl, rfl, rfl, rfl, rfl, rfl, rfl, rfl, rfl, rfl⟩, raise_untouched e s⟩

/-! ### The two ends of a command that can fail on its operand -/

section Operands

variable {s : State} {rs1 rs2 : RegNum} {addr20 : Addr} (rd : RegNum)

theorem execGfinv_of_ne_zero (h : s.readF rs1 ≠ 0) :
    execGfinv rd rs1 s = writeResult rd (invRom (s.readF rs1)) s := by
  rw [execGfinv, ginv_of_ne_zero h]

theorem execGfinv_of_zero (h : s.readF rs1 = 0) : execGfinv rd rs1 s = raised (.invZero rs1) s := by
  rw [execGfinv, h]; rfl

theorem execGfdiv_of_ne_zero (h : s.readF rs2 ≠ 0) :
    execGfdiv rd rs1 rs2 s = writeResult rd (gmul (s.readF rs1) (invRom (s.readF rs2))) s := by
  rw [execGfdiv, gdiv_of_ne_zero _ h]

theorem execGfdiv_of_zero (h : s.readF rs2 = 0) : execGfdiv rd rs1 rs2 s = raised (.divZero rs2) s := by
  rw [execGfdiv, (gdiv_eq_none _ _).2 h]

theorem execGflb_beyond (h : s.params.dmemSize ≤ addr20.toNat) : execGflb rd addr20 s = raised (.data addr20) s :=
  if_pos h

theorem execGfsb_beyond (rs : RegNum) (h : s.params.dmemSize ≤ addr20.toNat) :
    execGfsb rs addr20 s = raised (.data addr20) s := by
  have hrun : gfsbRun rs addr20 s = (Work.ofState s, .error (.error (.data addr20))) := if_pos h
  rw [execGfsb, hrun, finish, commit_ofState]

end Operands

/-! ### The obligations -/

/-- Settles O15: each is the write of its result. -/
theorem gfaddAndGfmulComplete : Obligations.GfaddAndGfmulComplete := fun _ _ _ _ =>
  ⟨writeResult_completes rfl, writeResult_completes rfl⟩

/-- Settles O17: each is the write of its result. -/
theorem gfliAndGfmovComplete : Obligations.GfliAndGfmovComplete := fun _ _ _ _ =>
  ⟨writeResult_completes rfl, writeResult_completes rfl⟩

/-- Settles O16: the ROM's entry is the inverse, and the dividend times it is the quotient. -/
theorem gfinvAndGfdivComplete : Obligations.GfinvAndGfdivComplete := by
  intro s rd rs1 rs2
  refine ⟨fun hne => ?_, fun hne => ?_⟩
  · obtain ⟨t, hnext, hret, hrd, hframe⟩ := writeResult_completes (execGfinv_of_ne_zero rd hne)
    refine ⟨t, hnext, hret, ?_, hframe⟩
    rw [hrd, gmul_invRom hne]
  · obtain ⟨t, hnext, hret, hrd, hframe⟩ := writeResult_completes (execGfdiv_of_ne_zero (rs1 := rs1) rd hne)
    refine ⟨t, hnext, hret, ?_, hframe⟩
    rw [hrd, gmul_assoc, gmul_comm (invRom _), gmul_invRom hne, gmul_one]

/-- Settles O23: each command is its one error, whose VALUE fits ERR_INFO. -/
theorem operandErrorsAreRecorded : Obligations.OperandErrorsAreRecorded := by
  intro s rd rs1 rs2 addr20
  have hinv : (CmdError.invZero rs1).info.toNat = 0 * 2 ^ 28 + rs1.toNat :=
    toNat_errInfoWord (by decide) (by omega)
  have hdiv : (CmdError.divZero rs2).info.toNat = 1 * 2 ^ 28 + rs2.toNat :=
    toNat_errInfoWord (by decide) (by omega)
  have hdata : (CmdError.data addr20).info.toNat = 1 * 2 ^ 28 + addr20.toNat :=
    toNat_errInfoWord (by decide) (by omega)
  exact ⟨fun h => raised_recorded (execGfinv_of_zero rd h) rfl hinv,
    fun h => raised_recorded (execGfdiv_of_zero rd h) rfl hdiv,
    fun h => raised_recorded (execGflb_beyond rd h) rfl hdata,
    fun h => raised_recorded (execGfsb_beyond rs1 h) rfl hdata⟩

end Sys2Proof.Machine
end

section
/-! PROOFS. Horner evaluation and interpolation at zero (R301 to R303). Bytes with the unit's sum and product are a
field, so both are statements about polynomials over a field: they are carried into one and read off there. -/

namespace Sys2Proof.Machine

open Polynomial

/-! ### The unit's field as a field -/

/-- `F` computes as the unit does (R240 to R242), a byte `a` standing there as `φ a`. -/
structure CarriesField {F : Type} [Field F] (φ : Byte → F) : Prop where
  injective : Function.Injective φ
  map_zero : φ 0 = 0
  map_one : φ 1 = 1
  map_xor : ∀ a b, φ (a ^^^ b) = φ a + φ b
  map_gmul : ∀ a b, φ (gmul a b) = φ a * φ b

/-- Bytes under gadd and gmul (R247), each byte its own negative. -/
@[reducible] def byteField : Field Byte :=
  @Field.ofMinimalAxioms Byte ⟨gadd⟩ ⟨gmul⟩ ⟨id⟩ ⟨invRom⟩ ⟨0⟩ ⟨1⟩ BitVec.xor_assoc (fun _ => BitVec.zero_xor)
    (fun _ => BitVec.xor_self) gmul_assoc gmul_comm one_gmul (fun _ ha => gmul_invRom ha) invRom_zero gmul_xor_right
    ⟨0, 1, by decide⟩

/-- Proofs about the unit's field go through this, so that Byte's own ring of 256 residues never gets in the way. -/
theorem exists_carriesField : ∃ (F : Type) (_ : Field F) (φ : Byte → F), CarriesField φ :=
  ⟨Byte, byteField, id,
    @CarriesField.mk Byte byteField id Function.injective_id rfl rfl (fun _ _ => rfl) (fun _ _ => rfl)⟩

section Carried

variable {F : Type} [Field F] (φ : Byte → F)

/-- The polynomial over `F` with the coefficients `c`, constant term first. -/
noncomputable def coeffPoly (c : List Byte) : F[X] := ∑ i : Fin c.length, C (φ (c.getD i 0)) * X ^ (i : Nat)

theorem degree_coeffPoly_lt (c : List Byte) : (coeffPoly φ c).degree < c.length := degree_sum_fin_lt _

/-- What the point at `xm` contributes to the weight of the point at `xj` (R303), where no x-coordinate repeats. -/
def lagrangeFactor (xj xm : Byte) : F := if xm = xj then 1 else φ xm * (φ xm + φ xj)⁻¹

end Carried

namespace CarriesField

variable {F : Type} [Field F] {φ : Byte → F} (h : CarriesField φ)
include h

theorem neg_eq (a : Byte) : -φ a = φ a := by
  refine neg_eq_of_add_eq_zero_left ?_
  rw [← h.map_xor, BitVec.xor_self]
  exact h.map_zero

theorem map_invRom (a : Byte) : φ (invRom a) = (φ a)⁻¹ := by
  by_cases ha : a = 0
  · subst ha; rw [invRom_zero, h.map_zero, inv_zero]
  · refine eq_inv_of_mul_eq_one_right ?_
    rw [← h.map_gmul, gmul_invRom ha, h.map_one]

theorem map_gpow (a : Byte) (n : Nat) : φ (gpow a n) = φ a ^ n := by
  induction n with
  | zero => rw [gpow, h.map_one, pow_zero]
  | succ n ih => rw [gpow, h.map_gmul, ih, pow_succ]

theorem map_foldl_gadd (l : List Byte) (r : Byte) : φ (l.foldl gadd r) = φ r + (l.map φ).sum := by
  induction l generalizing r with
  | nil => simp
  | cons a rest ih => rw [List.foldl_cons, ih, gadd, h.map_xor, List.map_cons, List.sum_cons, add_assoc]

/-! ### Horner evaluation -/

/-- One turn of Horner's loop adds the constant term to the rest times x (R301). -/
theorem map_peval (c : List Byte) (x : Byte) :
    φ (peval c x) = ∑ i ∈ Finset.range c.length, φ (c.getD i 0) * φ x ^ i := by
  induction c with
  | nil => exact h.map_zero
  | cons c0 c ih =>
    have hturn : peval (c0 :: c) x = gmul (peval c x) x ^^^ c0 := rfl
    rw [hturn, h.map_xor, h.map_gmul, ih, Finset.sum_mul, List.length_cons, Finset.sum_range_succ']
    simp [pow_succ, mul_assoc]

/-- The power sum of R301. -/
theorem map_powerSum (c : List Byte) (x : Byte) :
    φ (((List.range c.length).map fun i => gmul (c.getD i 0) (gpow x i)).foldl gadd 0) =
      ∑ i ∈ Finset.range c.length, φ (c.getD i 0) * φ x ^ i := by
  rw [h.map_foldl_gadd, h.map_zero, zero_add, ← List.toFinset_range, List.sum_toFinset _ List.nodup_range]
  simp only [List.map_map, Function.comp_def, h.map_gmul, h.map_gpow]

theorem eval_coeffPoly (c : List Byte) (x : Byte) : (coeffPoly φ c).eval (φ x) = φ (peval c x) := by
  simp only [coeffPoly, h.map_peval, Finset.sum_range, eval_finsetSum, eval_mul, eval_C, eval_pow, eval_X]

/-! ### Interpolation at zero -/

/-- R303's inner loop multiplies by the factors of the points, when index `j` is the one with x-coordinate `xj`. -/
theorem map_lagrangeTerm {xj : Byte} {j m : Nat} {l : List Byte} (term : Byte)
    (hj : ∀ k x, l[k]? = some x → (m + k = j ↔ x = xj)) :
    φ (lagrangeTerm xj j m l term) = φ term * (l.map (lagrangeFactor φ xj)).prod := by
  induction l generalizing m term with
  | nil => simp [lagrangeTerm]
  | cons x rest ih =>
    have hx : m = j ↔ x = xj := hj 0 x rfl
    have hrest (k : Nat) (y : Byte) (hy : rest[k]? = some y) : m + 1 + k = j ↔ y = xj := by
      rw [← hj (k + 1) y hy, Nat.add_right_comm, Nat.add_assoc]
    rw [lagrangeTerm, ih _ hrest, List.map_cons, List.prod_cons, ← mul_assoc]
    congr 1
    by_cases hm : m = j
    · rw [if_pos hm, lagrangeFactor, if_pos (hx.1 hm), mul_one]
    · rw [if_neg hm, lagrangeFactor, if_neg (hx.not.1 hm), h.map_gmul, h.map_gmul, h.map_invRom, h.map_xor]

/-- R303's outer loop adds the weighted y-coordinates; `ps` are the points from index `j` on. -/
theorem map_lagrangeSum {xs : List Byte} (hxs : xs.Nodup) {j : Nat} {ps : List (Byte × Byte)} (acc : Byte)
    (hps : ∀ k p, ps[k]? = some p → xs[j + k]? = some p.1) :
    φ (lagrangeSum xs j ps acc) =
      φ acc + (ps.map fun p => φ p.2 * (xs.map (lagrangeFactor φ p.1)).prod).sum := by
  induction ps generalizing j acc with
  | nil => simp [lagrangeSum]
  | cons p rest ih =>
    obtain ⟨xj, yj⟩ := p
    have hxj : xs[j]? = some xj := hps 0 _ rfl
    have hindex (k : Nat) (x : Byte) (hx : xs[k]? = some x) : 0 + k = j ↔ x = xj := by
      rw [Nat.zero_add, ← List.getElem?_inj (List.getElem?_eq_some_iff.1 hx).1 hxs, hx, hxj, Option.some_inj]
    have hrest (k : Nat) (p : Byte × Byte) (hp : rest[k]? = some p) : xs[j + 1 + k]? = some p.1 := by
      rw [Nat.add_right_comm]; exact hps (k + 1) p hp
    rw [lagrangeSum, ih _ hrest, gadd, h.map_xor, h.map_lagrangeTerm yj hindex, List.map_cons, List.sum_cons, add_assoc]

/-- Interpolation at zero as a sum over the points that does not name their order (R303). -/
theorem map_lagrange0 {ps : List (Byte × Byte)} (hps : (ps.map Prod.fst).Nodup) :
    φ (lagrange0 (ps.map Prod.fst) (ps.map Prod.snd)) =
      (ps.map fun p => φ p.2 * ((ps.map Prod.fst).map (lagrangeFactor φ p.1)).prod).sum := by
  have hzip : (ps.map Prod.fst).zip (ps.map Prod.snd) = ps := by rw [List.zip_map']; exact List.map_id ps
  rw [lagrange0, hzip, h.map_lagrangeSum hps, h.map_zero, zero_add]
  intro k p hp
  rw [Nat.zero_add, List.getElem?_map, hp, Option.map_some]

/-- The weight of a point is its Lagrange basis polynomial at zero. -/
theorem prod_lagrangeFactor {xs : List Byte} (hxs : xs.Nodup) (xj : Byte) :
    (xs.map (lagrangeFactor φ xj)).prod = (Lagrange.basis xs.toFinset φ xj).eval 0 := by
  have hself : lagrangeFactor φ xj xj = 1 := if_pos rfl
  have hdivisor (xm : Byte) : (Lagrange.basisDivisor (φ xj) (φ xm)).eval 0 = φ xm * (φ xm + φ xj)⁻¹ := by
    simp [Lagrange.basisDivisor, sub_eq_add_neg, h.neg_eq, mul_comm, add_comm]
  rw [← List.prod_toFinset _ hxs, Lagrange.basis, eval_prod, ← Finset.prod_erase _ hself]
  refine Finset.prod_congr rfl fun xm hm => ?_
  rw [hdivisor, lagrangeFactor, if_neg (Finset.ne_of_mem_erase hm)]

/-- A polynomial with no more coefficients than there are points is its own interpolant. -/
theorem map_lagrange0_peval {xs c : List Byte} (hxs : xs.Nodup) (hlen : c.length ≤ xs.length) :
    φ (lagrange0 xs (xs.map (peval c))) = (coeffPoly φ c).eval 0 := by
  have hfst : (xs.map fun x => (x, peval c x)).map Prod.fst = xs := by simp [Function.comp_def]
  have hsnd : (xs.map fun x => (x, peval c x)).map Prod.snd = xs.map (peval c) := by simp [Function.comp_def]
  have hsum := h.map_lagrange0 (ps := xs.map fun x => (x, peval c x)) (by rwa [hfst])
  rw [hfst, hsnd] at hsum
  have hdeg : (coeffPoly φ c).degree < (xs.toFinset.card : WithBot Nat) := by
    rw [List.toFinset_card_of_nodup hxs]
    exact (degree_coeffPoly_lt φ c).trans_le (by exact_mod_cast hlen)
  rw [hsum, Lagrange.eq_interpolate h.injective.injOn hdeg, Lagrange.interpolate_apply, eval_finsetSum,
    List.sum_toFinset _ hxs]
  simp [h.eval_coeffPoly, h.prod_lagrangeFactor hxs, Function.comp_def]

end CarriesField

/-! ### The obligations -/

/-- Horner evaluation at 0 is the constant term (R302): the last product is 0. -/
theorem peval_cons_zero (c0 : Byte) (c : List Byte) : peval (c0 :: c) 0 = c0 := by
  have hturn : peval (c0 :: c) 0 = gmul (peval c 0) 0 ^^^ c0 := rfl
  rw [hturn, gmul_zero]
  exact BitVec.zero_xor

/-- Settles O12: both sides are the power sum in a field. -/
theorem hornerIsThePowerSum : Obligations.HornerIsThePowerSum := by
  obtain ⟨F, _, φ, hφ⟩ := exists_carriesField
  exact ⟨fun c x => hφ.injective ((hφ.map_peval c x).trans (hφ.map_powerSum c x).symm), peval_cons_zero⟩

/-- Settles O13: the polynomial is its own interpolant, so the two agree at zero. -/
theorem lagrangeRecoversTheConstantTerm : Obligations.LagrangeRecoversTheConstantTerm := by
  intro c0 c xs hxs hlen
  obtain ⟨F, _, φ, hφ⟩ := exists_carriesField
  apply hφ.injective
  rw [hφ.map_lagrange0_peval (c := c0 :: c) hxs hlen, ← hφ.map_zero, hφ.eval_coeffPoly, peval_cons_zero]

/-- Settles O14: the sum over the points and each product of factors are the same for a permutation. -/
theorem lagrangeIgnoresTheOrderOfPoints : Obligations.LagrangeIgnoresTheOrderOfPoints := by
  intro ps qs hperm hps
  obtain ⟨F, _, φ, hφ⟩ := exists_carriesField
  have hfst : (ps.map Prod.fst).Perm (qs.map Prod.fst) := hperm.map _
  apply hφ.injective
  rw [hφ.map_lagrange0 hps, hφ.map_lagrange0 (hfst.nodup_iff.1 hps), (hperm.map _).sum_eq]
  simp only [(hfst.map _).prod_eq]

end Sys2Proof.Machine
end

section
/-! PROOFS. The checks of the polynomial engine and of the sequencers (R135, R304 to R307, R351 to R357): which error
each list of checks finds, and that a command that finds none goes on. -/

namespace Sys2Proof.Machine

variable {s : State}

/-! ### One check -/

/-- A count in 1..hi passes its range check. -/
theorem check_range_ok {n hi : Nat} (e : CmdError) (hlo : 1 ≤ n) (hhi : n ≤ hi) : check (n < 1 || hi < n) e = none := by
  rw [check_eq_none]; simp; omega

theorem check_range_bad {n hi : Nat} (e : CmdError) (h : n < 1 ∨ hi < n) : check (n < 1 || hi < n) e = some e :=
  if_pos (by simpa using h)

theorem checkRegion_of_beyond {base len : Nat} (hlen : 1 ≤ len) (h : s.params.dmemSize < base + len) :
    checkRegion s base len = some (.region (max base s.params.dmemSize)) :=
  checkRegion_eq_some.2 ⟨⟨hlen, h⟩, rfl⟩

/-- What a configuration register holds fits the VALUE field of ERR_INFO (R62). -/
theorem State.cfgNat_lt (s : State) (c : CfgReg) : s.cfgNat c < 2 ^ 20 := (s.readCfg c).isLt

/-- VALUE of a REGION error fits ERR_INFO (R62, R452). -/
theorem region_info (hl : s.params.Legal) (c : CfgReg) :
    (CmdError.region (max (s.cfgNat c) s.params.dmemSize)).info.toNat =
      2 * 2 ^ 28 + max (s.cfgNat c) s.params.dmemSize := by
  have hc := s.cfgNat_lt c
  obtain ⟨-, -, hsize, -⟩ := hl
  exact toNat_errInfoWord (by decide) (by omega)

/-- An error found before any work (R456). -/
theorem finish_of_check (e : CmdError) : finish s (Work.ofState s, .error (.error e)) = raised e s := by
  rw [finish, commit_ofState]

/-! ### PRAND and PEVAL -/

/-- The range check of POLY_LEN passes. -/
theorem polyLen_ok (hlo : 1 ≤ s.cfgNat CfgReg.polyLen) (hhi : s.cfgNat CfgReg.polyLen ≤ 256) :
    check (s.cfgNat CfgReg.polyLen < 1 || Config.maxPolyLen < s.cfgNat CfgReg.polyLen)
      (.polyRange (s.cfgNat CfgReg.polyLen)) = none :=
  check_range_ok _ hlo hhi

theorem polyChecks_of_ready (h : PolyReady s) : polyChecks s = none := by
  obtain ⟨hlo, hhi, hfit⟩ := h
  have hregion := checkRegion_eq_none.2 (.inr hfit)
  simp only [polyChecks, polyLen_ok hlo hhi, hregion, firstError_none, firstError_nil]

theorem polyChecks_of_badLen (h : s.cfgNat CfgReg.polyLen < 1 ∨ 256 < s.cfgNat CfgReg.polyLen) :
    polyChecks s = some (.polyRange (s.cfgNat CfgReg.polyLen)) := by
  have hlen := check_range_bad (hi := Config.maxPolyLen) (.polyRange (s.cfgNat CfgReg.polyLen)) h
  simp only [polyChecks, hlen, firstError_some]

theorem polyChecks_of_beyond (hlo : 1 ≤ s.cfgNat CfgReg.polyLen) (hhi : s.cfgNat CfgReg.polyLen ≤ 256)
    (h : s.params.dmemSize < s.cfgNat CfgReg.polyBase + s.cfgNat CfgReg.polyLen) :
    polyChecks s = some (.region (max (s.cfgNat CfgReg.polyBase) s.params.dmemSize)) := by
  simp only [polyChecks, polyLen_ok hlo hhi, checkRegion_of_beyond hlo h, firstError_none, firstError_some]

theorem execPrand_of_check {e : CmdError} (h : polyChecks s = some e) (rs1 : RegNum) :
    execPrand rs1 s = raised e s := by
  have hrun : prandRun rs1 s = (Work.ofState s, .error (.error e)) := by simp only [prandRun, h]
  rw [execPrand, hrun, finish_of_check]

theorem execPeval_of_check {e : CmdError} (h : polyChecks s = some e) (rd rs1 : RegNum) :
    execPeval rd rs1 s = raised e s := by
  simp only [execPeval, h]

/-- The bytes of an array in DMEM, by index. -/
theorem Dmem.readList_eq_map (d : Dmem) (base n : Nat) :
    d.readList base n = (List.range n).map fun i => d.read (base + i) := by
  simp only [Dmem.readList, Dmem.readStrided, Nat.mul_one]

theorem execPeval_of_ready (h : PolyReady s) (rd rs1 : RegNum) :
    execPeval rd rs1 s = writeResult rd (peval ((List.range (s.cfgNat CfgReg.polyLen)).map
      fun i => s.dmem.read (s.cfgNat CfgReg.polyBase + i)) (s.readF rs1)) s := by
  simp only [execPeval, polyChecks_of_ready h, Dmem.readList_eq_map]

/-- Settles O29: PEVAL is the write of its result. -/
theorem pevalCompletes : Obligations.PevalCompletes := fun _ rd rs1 h =>
  writeResult_completes (execPeval_of_ready h rd rs1)

/-- Settles O28: both commands make the same checks before any work. -/
theorem polynomialCheckErrorsAreRecorded : Obligations.PolynomialCheckErrorsAreRecorded := by
  intro s i hl hi
  have hraised {e : CmdError} (h : polyChecks s = some e) : exec i s = raised e s := by
    obtain ⟨rd, rs1, rfl | rfl⟩ := hi
    · exact execPrand_of_check h rs1
    · exact execPeval_of_check h rd rs1
  have hlen := s.cfgNat_lt CfgReg.polyLen
  exact ⟨fun h => raised_recorded (hraised (polyChecks_of_badLen h)) rfl (toNat_errInfoWord (by decide) (by omega)),
    fun hlo hhi h => raised_recorded (hraised (polyChecks_of_beyond hlo hhi h)) rfl (region_info hl _)⟩

/-! ### Point validation (R304) -/

section Points

variable {nz : Bool} {x : Nat → Byte} {i n : Nat}

theorem checkPoints_range_eq_none : checkPoints nz ((List.range n).map x) = none ↔
    (nz = true → ∀ i < n, x i ≠ 0) ∧ ∀ i < n, ∀ m < i, x m ≠ x i := by
  have hnodup : ((List.range n).map x).Nodup ↔ ∀ i < n, ∀ m < i, x m ≠ x i := by
    simp only [List.Nodup, List.pairwise_iff_getElem, List.length_map, List.length_range, List.getElem_map,
      List.getElem_range]
    exact ⟨fun h i hi m hm => h m i (hm.trans hi) hi hm, fun h m i _ hi hm => h i hi m hm⟩
  rw [checkPoints_eq_none, hnodup]
  simp

/-- After x-coordinates that pass, the check goes on with them all seen. -/
theorem checkPointsFrom_append {seen l : List Byte} {i : Nat} (h : checkPointsFrom nz seen l i = none) (r : List Byte) :
    checkPointsFrom nz seen (l ++ r) i = checkPointsFrom nz (l.reverse ++ seen) r (i + l.length) := by
  induction l generalizing seen i with
  | nil => rfl
  | cons y rest ih =>
    rw [checkPointsFrom] at h
    split_ifs at h with hzero hdup
    rw [List.cons_append, checkPointsFrom, if_neg hzero, if_neg hdup, ih h, List.reverse_cons, List.append_assoc,
      List.length_cons, Nat.add_right_comm, Nat.add_assoc]
    rfl

variable (hi : i < n) (hpass : checkPoints nz ((List.range i).map x) = none)
include hi hpass

/-- What the check finds at the first index the ones before which pass. -/
theorem checkPoints_range : ∃ rest, checkPoints nz ((List.range n).map x) =
    checkPointsFrom nz ((List.range i).map x).reverse (x i :: rest) i := by
  obtain ⟨r, rfl⟩ := Nat.exists_eq_add_of_lt hi
  refine ⟨((List.range r).map fun k => i + (k + 1)).map x, ?_⟩
  rw [Nat.add_assoc, List.range_add, List.map_append, checkPoints, checkPointsFrom_append hpass, List.range_succ_eq_map]
  simp [Function.comp_def]

theorem checkPoints_of_zero (hnz : nz = true) (hzero : x i = 0) :
    checkPoints nz ((List.range n).map x) = some (.zeroX i) := by
  obtain ⟨rest, hrest⟩ := checkPoints_range hi hpass
  rw [hrest, checkPointsFrom, if_pos ⟨hnz, hzero⟩]

theorem checkPoints_of_repeat (hnz : nz = true → x i ≠ 0) (hdup : ∃ m < i, x m = x i) :
    checkPoints nz ((List.range n).map x) = some (.dupX i) := by
  obtain ⟨rest, hrest⟩ := checkPoints_range hi hpass
  rw [hrest, checkPointsFrom, if_neg fun ⟨h1, h2⟩ => hnz h1 h2, if_pos (by simpa using hdup)]

end Points

/-! ### LAGR0 -/

section Lagr0

theorem lagr0Checks_of_badCount (h : s.cfgNat CfgReg.ptCount < 1 ∨ 256 < s.cfgNat CfgReg.ptCount) :
    lagr0Checks s = some (.ptRange (s.cfgNat CfgReg.ptCount)) := by
  have hcount := check_range_bad (hi := Config.maxPoints) (.ptRange (s.cfgNat CfgReg.ptCount)) h
  simp only [lagr0Checks, hcount, firstError_some]

variable (hlo : 1 ≤ s.cfgNat CfgReg.ptCount) (hhi : s.cfgNat CfgReg.ptCount ≤ 256)
include hlo hhi

/-- The range check of PT_COUNT passes. -/
theorem ptCount_ok :
    check (s.cfgNat CfgReg.ptCount < 1 || Config.maxPoints < s.cfgNat CfgReg.ptCount)
      (.ptRange (s.cfgNat CfgReg.ptCount)) = none :=
  check_range_ok _ hlo hhi

theorem lagr0Checks_of_xsBeyond (h : s.params.dmemSize < s.cfgNat CfgReg.xsBase + s.cfgNat CfgReg.ptCount) :
    lagr0Checks s = some (.region (max (s.cfgNat CfgReg.xsBase) s.params.dmemSize)) := by
  simp only [lagr0Checks, ptCount_ok hlo hhi, checkRegion_of_beyond hlo h, firstError_none, firstError_some]

variable (hxs : s.cfgNat CfgReg.xsBase + s.cfgNat CfgReg.ptCount ≤ s.params.dmemSize)
include hxs

theorem lagr0Checks_of_ysBeyond (h : s.params.dmemSize < s.cfgNat CfgReg.ysBase + s.cfgNat CfgReg.ptCount) :
    lagr0Checks s = some (.region (max (s.cfgNat CfgReg.ysBase) s.params.dmemSize)) := by
  have hx := checkRegion_eq_none.2 (.inr hxs)
  simp only [lagr0Checks, ptCount_ok hlo hhi, hx, checkRegion_of_beyond hlo h, firstError_none, firstError_some]

theorem lagr0Checks_of_fits (hys : s.cfgNat CfgReg.ysBase + s.cfgNat CfgReg.ptCount ≤ s.params.dmemSize) :
    lagr0Checks s = none := by
  have hx := checkRegion_eq_none.2 (.inr hxs)
  have hy := checkRegion_eq_none.2 (.inr hys)
  simp only [lagr0Checks, ptCount_ok hlo hhi, hx, hy, firstError_none, firstError_nil]

end Lagr0

theorem execLagr0_of_check {e : CmdError} (h : lagr0Checks s = some e) (rd : RegNum) :
    execLagr0 rd s = raised e s := by
  simp only [execLagr0, h]

theorem execLagr0_of_badPoint {e : CmdError} (h : lagr0Checks s = none)
    (hpoints : checkPoints false ((List.range (s.cfgNat CfgReg.ptCount)).map
      fun i => s.dmem.read (s.cfgNat CfgReg.xsBase + i)) = some e) (rd : RegNum) :
    execLagr0 rd s = raised e s := by
  simp only [execLagr0, h, Dmem.readList_eq_map, hpoints]

theorem execLagr0_of_goodPoints (h : lagr0Checks s = none)
    (hpoints : checkPoints false ((List.range (s.cfgNat CfgReg.ptCount)).map
      fun i => s.dmem.read (s.cfgNat CfgReg.xsBase + i)) = none) (rd : RegNum) :
    execLagr0 rd s = writeResult rd (lagrange0
      ((List.range (s.cfgNat CfgReg.ptCount)).map fun i => s.dmem.read (s.cfgNat CfgReg.xsBase + i))
      ((List.range (s.cfgNat CfgReg.ptCount)).map fun i => s.dmem.read (s.cfgNat CfgReg.ysBase + i))) s := by
  simp only [execLagr0, h, Dmem.readList_eq_map, hpoints]

/-- Settles O30: LAGR0 is the write of its result; a zero x-coordinate is no error. -/
theorem lagrCompletes : Obligations.LagrCompletes := by
  intro s rd p x y hlo hhi hxs hys hdistinct
  have hpoints : checkPoints false ((List.range p).map x) = none :=
    checkPoints_range_eq_none.2 ⟨nofun, hdistinct⟩
  exact writeResult_completes (execLagr0_of_goodPoints (lagr0Checks_of_fits hlo hhi hxs hys) hpoints rd)

/-- Settles O31: each clause is the first check that fails. -/
theorem lagrErrorsAreRecordedInOrder : Obligations.LagrErrorsAreRecordedInOrder := by
  intro s rd hl p xb yb x ends
  have hp : p < 2 ^ 20 := s.cfgNat_lt CfgReg.ptCount
  refine ⟨fun h => ?_, fun hlo hhi h => ?_, fun hlo hhi hxs h => ?_, fun i hi hhi hxs hys hdup hbefore => ?_⟩
  · exact raised_recorded (execLagr0_of_check (lagr0Checks_of_badCount h) rd) rfl
      (toNat_errInfoWord (by decide) (by omega))
  · exact raised_recorded (execLagr0_of_check (lagr0Checks_of_xsBeyond hlo hhi h) rd) rfl (region_info hl _)
  · exact raised_recorded (execLagr0_of_check (lagr0Checks_of_ysBeyond hlo hhi hxs h) rd) rfl (region_info hl _)
  · have hpass : checkPoints false ((List.range i).map x) = none := checkPoints_range_eq_none.2 ⟨nofun, hbefore⟩
    have hpoints : checkPoints false ((List.range p).map x) = some (.dupX i) :=
      checkPoints_of_repeat hi hpass nofun hdup
    exact raised_recorded (execLagr0_of_badPoint (lagr0Checks_of_fits (by omega) hhi hxs hys) hpoints rd) rfl
      (toNat_errInfoWord (by decide) (by omega))

/-! ### SPLIT and JOIN -/

theorem shapeChecks_of_ready (h : ShapeReady s) : shapeChecks s = [none, none, none, none] := by
  obtain ⟨hk, hkn, hn, hl⟩ := h
  have hkRange := check_range_ok (hi := Config.maxShares) (.kRange (s.cfgNat CfgReg.shareK)) hk (hkn.trans hn)
  have hnRange := check_range_ok (hi := Config.maxShares) (.nRange (s.cfgNat CfgReg.shareN)) (hk.trans hkn) hn
  have hkn' : (s.cfgNat CfgReg.shareN < s.cfgNat CfgReg.shareK : Bool) = false := decide_eq_false (by omega)
  have hl' : (s.params.maxSecretLen < s.cfgNat CfgReg.secretLen : Bool) = false := decide_eq_false (by omega)
  simp only [shapeChecks, hkRange, hnRange, hkn', hl', check_false]

/-- The regions that fit pass both commands' checks (R350). -/
theorem regionChecks_of_ready (h : RegionsReady s) : secretRegionCheck s = none ∧ shareRegionCheck s = none :=
  ⟨checkRegion_eq_none.2 h.1, checkRegion_eq_none.2 h.2⟩

theorem joinChecks_of_ready (hshape : ShapeReady s) (hregions : RegionsReady s) : joinChecks s = none := by
  obtain ⟨hsecret, hshares⟩ := regionChecks_of_ready hregions
  simp only [joinChecks, shapeChecks_of_ready hshape, hsecret, hshares]
  rfl

/-- SPLIT with the host's x-coordinates passes its checks when the x array fits too (R353). -/
theorem splitChecks_of_ready (hshape : ShapeReady s) (hregions : RegionsReady s) (hmode : s.xmode = 1)
    (hxs : Fits s (s.cfgNat CfgReg.xsBase) (s.cfgNat CfgReg.shareN)) : splitChecks s = none := by
  obtain ⟨hsecret, hshares⟩ := regionChecks_of_ready hregions
  have hx := checkRegion_eq_none.2 hxs
  simp only [splitChecks, shapeChecks_of_ready hshape, hsecret, hshares, hmode, hx]
  rfl

theorem execJoin_of_badPoint {e : CmdError} (h : joinChecks s = none)
    (hpoints : checkPoints true ((List.range (s.cfgNat CfgReg.shareN)).map fun i => s.dmem.read (s.xaddr i)) = some e) :
    execJoin s = raised e s := by
  have hread : checkPoints true ((Work.ofState s).dmem.readStrided (s.cfgNat CfgReg.shareBase) s.shareStride
      (s.cfgNat CfgReg.shareN)) = some e := hpoints
  have hrun : joinRun s = (Work.ofState s, .error (.error e)) := by simp only [joinRun, h, hread]
  rw [execJoin, hrun, finish_of_check]

theorem genX_of_badPoint {e : CmdError} (hmode : s.xmode = 1)
    (hpoints : checkPoints true ((List.range (s.cfgNat CfgReg.shareN)).map
      fun i => s.dmem.read (s.cfgNat CfgReg.xsBase + i)) = some e) :
    genX s (Work.ofState s) = (Work.ofState s, .error (.error e)) := by
  have hdmem : (Work.ofState s).dmem = s.dmem := rfl
  simp [genX, hmode, hdmem, Dmem.readList_eq_map, hpoints]

theorem execSplit_of_badPoint {e : CmdError} (h : splitChecks s = none) (hmode : s.xmode = 1)
    (hpoints : checkPoints true ((List.range (s.cfgNat CfgReg.shareN)).map
      fun i => s.dmem.read (s.cfgNat CfgReg.xsBase + i)) = some e) :
    execSplit s = raised e s := by
  have hrun : splitRun s = (Work.ofState s, .error (.error e)) := by
    simp only [splitRun, h, genX_of_badPoint hmode hpoints]
  rw [execSplit, hrun, finish_of_check]

/-- Settles O41: both commands validate their points with the zero check first. -/
theorem sequencersRejectBadPoints : Obligations.SequencersRejectBadPoints := by
  intro s i hshape hregions hi ends first xs hs
  have hzero {x : Nat → Byte} (hfirst : first x) (h0 : x i = 0) :
      checkPoints true ((List.range (s.cfgNat CfgReg.shareN)).map x) = some (.zeroX i) :=
    checkPoints_of_zero hi (checkPoints_range_eq_none.2 ⟨fun _ => hfirst.1, hfirst.2⟩) rfl h0
  have hrepeat {x : Nat → Byte} (hfirst : first x) (h0 : x i ≠ 0) (hdup : ∃ m < i, x m = x i) :
      checkPoints true ((List.range (s.cfgNat CfgReg.shareN)).map x) = some (.dupX i) :=
    checkPoints_of_repeat hi (checkPoints_range_eq_none.2 ⟨fun _ => hfirst.1, hfirst.2⟩) (fun _ => h0) hdup
  have hindex (sub : Nat) (hsub : sub < 2 ^ 4) : (errInfoWord sub i).toNat = sub * 2 ^ 28 + i := by
    have hn := s.cfgNat_lt CfgReg.shareN
    exact toNat_errInfoWord hsub (by omega)
  have hjoin := joinChecks_of_ready hshape hregions
  refine ⟨fun hmode hfit hfirst => ?_, fun hfirst => ⟨fun h0 => ?_, fun h0 hdup => ?_⟩⟩
  · have hsplit := splitChecks_of_ready hshape hregions hmode hfit
    exact ⟨fun h0 => raised_recorded (execSplit_of_badPoint hsplit hmode (hzero hfirst h0)) rfl (hindex 1 (by decide)),
      fun h0 hdup =>
        raised_recorded (execSplit_of_badPoint hsplit hmode (hrepeat hfirst h0 hdup)) rfl (hindex 0 (by decide))⟩
  · exact raised_recorded (execJoin_of_badPoint hjoin (hzero hfirst h0)) rfl (hindex 1 (by decide))
  · exact raised_recorded (execJoin_of_badPoint hjoin (hrepeat hfirst h0 hdup)) rfl (hindex 0 (by decide))

end Sys2Proof.Machine
end

section
/-! PROOFS. PRAND (R305, R411 to R413): the polynomial is built one draw at a time, from either source, so what stands
after `k` draws is said once and serves a command that completes and one that a draw ends. -/

namespace Sys2Proof.Machine

variable {s : State} {rs1 : RegNum}

/-! ### PRAND's loop -/

/-- Draws that all come leave the rest of the loop to do. -/
theorem drawInto_append {k : Nat} {w w' : Work} {a : Nat} (h : drawInto k w a = (w', .ok ())) (m : Nat) :
    drawInto (k + m) w a = drawInto m w' (a + k) := by
  induction k generalizing w a with
  | zero => cases h; rw [Nat.zero_add, Nat.add_zero]
  | succ k ih =>
    rw [drawInto] at h
    rw [Nat.add_right_comm, drawInto]
    cases hd : w.draw with
    | error e => simp [hd] at h
    | ok p =>
      simp only [hd] at h ⊢
      rw [ih h, Nat.add_assoc, Nat.add_comm 1]

/-- A draw that comes makes one turn of the loop. -/
theorem drawInto_one {w w1 : Work} {b : Byte} (h : w.draw = .ok (b, w1)) (a : Nat) :
    drawInto 1 w a = (w1.write a b, .ok ()) := by
  simp only [drawInto, h]

/-- A draw that stops ends the loop with the work as it was. -/
theorem drawInto_stop {w : Work} {e : Stop} (h : w.draw = .error e) (n a : Nat) :
    drawInto (n + 1) w a = (w, .error e) := by
  simp only [drawInto, h]

/-! ### The coefficients -/

/-- Draw `k` of a PRAND started in `s`, counted from 0, finds its byte (R412, R413). -/
def State.CanDraw (s : State) (k : Nat) : Prop :=
  if s.rngFromDmem then s.rngAddr k < s.params.dmemSize else k < s.entropy.length

theorem canDraw_dmem (h : s.rngFromDmem = true) (k : Nat) : s.CanDraw k ↔ s.rngAddr k < s.params.dmemSize := by
  rw [State.CanDraw, if_pos h]

theorem canDraw_entropy (h : s.rngFromDmem = false) (k : Nat) : s.CanDraw k ↔ k < s.entropy.length := by
  rw [State.CanDraw, if_neg (Bool.eq_false_iff.1 h)]

theorem prandByte_zero (t : State) : s.prandByte t rs1 0 = s.readF rs1 := rfl

theorem prandByte_succ_dmem (h : s.rngFromDmem = true) (t : State) (k : Nat) :
    s.prandByte t rs1 (k + 1) =
      if s.cfgNat CfgReg.polyBase ≤ s.rngAddr k ∧ s.rngAddr k < s.cfgNat CfgReg.polyBase + (k + 1)
      then t.dmem.read (s.rngAddr k) else s.dmem.read (s.rngAddr k) := by
  simp [State.prandByte, h]

theorem prandByte_succ_entropy (h : s.rngFromDmem = false) (t : State) (k : Nat) :
    s.prandByte t rs1 (k + 1) = s.entropy.getD k 0 := by
  simp [State.prandByte, h]

/-- Coefficient `i` looks only at the coefficients before it (R150). -/
theorem prandByte_congr {t t' : State} {i : Nat}
    (h : ∀ a, a < s.cfgNat CfgReg.polyBase + i → t'.dmem.read a = t.dmem.read a) :
    s.prandByte t' rs1 i = s.prandByte t rs1 i := by
  simp only [State.prandByte]
  split_ifs with h0 hsource hin
  · rfl
  · exact h _ hin.2
  · rfl
  · rfl

/-! ### The work after `k` draws -/

/-- `w` is the work of a PRAND started in `s` when the constant term and `k` drawn coefficients are written. -/
structure PrandDrawn (s : State) (rs1 : RegNum) (k : Nat) (w : Work) : Prop where
  size : w.size = s.params.dmemSize
  source : w.fromDmem = s.rngFromDmem
  rngPtr : w.rngPtr.toNat = if s.rngFromDmem then s.rngAddr k else s.cfgNat CfgReg.rngPtr
  entropy : w.entropy = if s.rngFromDmem then s.entropy else s.entropy.drop k
  powerUp : w.dmem.powerUp = s.dmem.powerUp
  bytes : ∀ i ≤ k, w.dmem.read (s.cfgNat CfgReg.polyBase + i) = s.prandByte (commit s w) rs1 i
  outside : MemSameOutside (s.cfgNat CfgReg.polyBase) (k + 1) s (commit s w)

/-- The work when only the constant term is written. -/
def prandStart (rs1 : RegNum) (s : State) : Work :=
  (Work.ofState s).write (s.cfgNat CfgReg.polyBase) (s.readF rs1)

theorem rngAddr_zero : s.rngAddr 0 = s.cfgNat CfgReg.rngPtr :=
  Nat.mod_eq_of_lt (s.cfgNat_lt _)

/-- RNG_PTR wraps where the stream's addresses do (R412). -/
theorem rngAddr_succ (k : Nat) : s.rngAddr (k + 1) = (s.rngAddr k + 1) % 2 ^ 20 := by
  simp only [State.rngAddr]; omega

theorem prandDrawn_start : PrandDrawn s rs1 0 (prandStart rs1 s) where
  size := rfl
  source := rfl
  rngPtr := by rw [rngAddr_zero, ite_self]; rfl
  entropy := by rw [List.drop_zero, ite_self]; rfl
  powerUp := rfl
  bytes i hi := by
    rw [Nat.le_zero.1 hi, prandByte_zero]
    exact Dmem.read_write_same ..
  outside a ha := Dmem.read_write_other _ _ (by omega)

namespace PrandDrawn

variable {k : Nat} {w : Work} (h : PrandDrawn s rs1 k w)
include h

/-- The next draw, where it finds a byte, gives the next coefficient. -/
theorem draw (hcan : s.CanDraw k) : ∃ w1, w.draw = .ok (s.prandByte (commit s w) rs1 (k + 1), w1) ∧
    w1.rngPtr.toNat = (if s.rngFromDmem then s.rngAddr (k + 1) else s.cfgNat CfgReg.rngPtr) ∧
    w1.entropy = (if s.rngFromDmem then s.entropy else s.entropy.drop (k + 1)) := by
  have hsource := h.source
  have hptr := h.rngPtr
  have hentropy := h.entropy
  cases hs : s.rngFromDmem with
  | true =>
    rw [canDraw_dmem hs] at hcan
    simp only [hs, if_true] at hsource hptr hentropy ⊢
    have hinside : ¬ w.size ≤ w.rngPtr.toNat := by rw [h.size, hptr]; omega
    have hbyte : w.dmem.read (s.rngAddr k) = s.prandByte (commit s w) rs1 (k + 1) := by
      rw [prandByte_succ_dmem hs]
      split_ifs with hin
      · rfl
      · exact h.outside _ (by omega)
    refine ⟨{ w with rngPtr := w.rngPtr + 1 }, ?_, ?_, hentropy⟩
    · rw [Work.draw, if_pos hsource, if_neg hinside, hptr, hbyte]
    · rw [rngAddr_succ, ← hptr, BitVec.toNat_add]; rfl
  | false =>
    rw [canDraw_entropy hs] at hcan
    simp only [hs, Bool.false_eq_true, if_false] at hsource hptr hentropy ⊢
    rw [List.drop_eq_getElem_cons hcan] at hentropy
    refine ⟨{ w with entropy := s.entropy.drop (k + 1), log := .take :: w.log }, ?_, hptr, rfl⟩
    rw [prandByte_succ_entropy hs, List.getD_eq_getElem _ _ hcan]
    rw [Work.draw, if_neg (Bool.eq_false_iff.1 hsource), hentropy]

/-- A draw from DMEM at or above DMEM_SIZE is an error that names its address (R412). -/
theorem draw_beyond (hs : s.rngFromDmem = true) (hbeyond : s.params.dmemSize ≤ s.rngAddr k) :
    w.draw = .error (.error (.rng w.rngPtr)) := by
  have hptr : w.rngPtr.toNat = s.rngAddr k := by rw [h.rngPtr, if_pos hs]
  rw [Work.draw, if_pos (h.source.trans hs), if_pos (by rwa [h.size, hptr])]

/-- The next coefficient is written above all that it or an earlier one looks at. -/
theorem next {w1 : Work} (hdraw : w.draw = .ok (s.prandByte (commit s w) rs1 (k + 1), w1))
    (hptr : w1.rngPtr.toNat = if s.rngFromDmem then s.rngAddr (k + 1) else s.cfgNat CfgReg.rngPtr)
    (hentropy : w1.entropy = if s.rngFromDmem then s.entropy else s.entropy.drop (k + 1)) :
    PrandDrawn s rs1 (k + 1)
      (w1.write (s.cfgNat CfgReg.polyBase + (k + 1)) (s.prandByte (commit s w) rs1 (k + 1))) := by
  obtain ⟨hdmem, hsize, hsource⟩ := Work.draw_frame hdraw
  have hother {a : Nat} (ha : a ≠ s.cfgNat CfgReg.polyBase + (k + 1)) (b : Byte) :
      (w1.write (s.cfgNat CfgReg.polyBase + (k + 1)) b).dmem.read a = w.dmem.read a := by
    rw [Work.write_dmem, Dmem.read_write_other _ _ ha, hdmem]
  exact {
    size := hsize.trans h.size
    source := hsource.trans h.source
    rngPtr := hptr
    entropy := hentropy
    powerUp := (congrArg Dmem.powerUp hdmem).trans h.powerUp
    bytes := fun i hi => by
      have hsame (b : Byte) : s.prandByte (commit s (w1.write (s.cfgNat CfgReg.polyBase + (k + 1)) b)) rs1 i =
          s.prandByte (commit s w) rs1 i :=
        prandByte_congr fun a ha => hother (by omega) b
      rw [hsame]
      rcases Nat.lt_or_eq_of_le hi with hlt | rfl
      · rw [hother (by omega)]
        exact h.bytes i (Nat.le_of_lt_succ hlt)
      · exact Dmem.read_write_same ..
    outside := fun a ha => (hother (by omega) _).trans (h.outside a (by omega)) }

end PrandDrawn

/-- PRAND's loop after `n` draws that all come. -/
theorem drawInto_prandDrawn (n : Nat) (hdraws : ∀ k < n, s.CanDraw k) :
    ∃ w, PrandDrawn s rs1 n w ∧
      drawInto n (prandStart rs1 s) (s.cfgNat CfgReg.polyBase + 1) = (w, .ok ()) := by
  induction n with
  | zero => exact ⟨_, prandDrawn_start, rfl⟩
  | succ n ih =>
    obtain ⟨w, hw, hloop⟩ := ih fun k hk => hdraws k (by omega)
    obtain ⟨w1, hdraw, hptr, hentropy⟩ := hw.draw (hdraws n (by omega))
    refine ⟨_, hw.next hdraw hptr hentropy, ?_⟩
    rw [drawInto_append hloop, drawInto_one hdraw, Nat.add_assoc, Nat.add_comm 1]

/-! ### How PRAND ends -/

theorem execPrand_of_ready (h : PolyReady s) : execPrand rs1 s =
    finish s (drawInto (s.cfgNat CfgReg.polyLen - 1) (prandStart rs1 s) (s.cfgNat CfgReg.polyBase + 1)) := by
  simp only [execPrand, prandRun, polyChecks_of_ready h, prandStart]

/-- PRAND whose draws all come retires with the polynomial written. -/
theorem execPrand_completes (h : PolyReady s) (hdraws : ∀ k < s.cfgNat CfgReg.polyLen - 1, s.CanDraw k) :
    ∃ w, PrandDrawn s rs1 (s.cfgNat CfgReg.polyLen - 1) w ∧ execPrand rs1 s = .next (retire (commit s w)) := by
  obtain ⟨w, hw, hloop⟩ := drawInto_prandDrawn _ hdraws
  exact ⟨w, hw, by rw [execPrand_of_ready h, hloop]; rfl⟩

/-- PRAND whose draw `k` is the one that falls beyond DMEM records the error with what it wrote before (R455). -/
theorem execPrand_drawError (h : PolyReady s) (hs : s.rngFromDmem = true) {k : Nat}
    (hk : k < s.cfgNat CfgReg.polyLen - 1) (hdraws : DmemDraws s k) (hbeyond : s.params.dmemSize ≤ s.rngAddr k) :
    ∃ w, PrandDrawn s rs1 k w ∧ execPrand rs1 s = .next (raise (.rng w.rngPtr) (commit s w)) := by
  obtain ⟨w, hw, hloop⟩ := drawInto_prandDrawn (rs1 := rs1) k fun i hi => (canDraw_dmem hs i).2 (hdraws i hi)
  obtain ⟨m, hm⟩ := Nat.exists_eq_add_of_lt hk
  refine ⟨w, hw, ?_⟩
  rw [execPrand_of_ready h, hm, Nat.add_assoc, drawInto_append hloop, drawInto_stop (hw.draw_beyond hs hbeyond)]
  rfl

/-- An error raised after work is recorded as one raised before it is (R455, R456). -/
theorem raise_commit_recorded {w : Work} {e : CmdError} {code sub value : Nat}
    (hpower : w.dmem.powerUp = s.dmem.powerUp) (hcode : e.code.toNat = code)
    (hinfo : e.info.toNat = sub * 2 ^ 28 + value) : ErrorRecorded code sub value s (raise e (commit s w)) :=
  ⟨rfl, hinfo, hcode, rfl, rfl, rfl, rfl, rfl, rfl, rfl, rfl, rfl, hpower⟩

theorem PrandDrawn.retires {k : Nat} {w : Work} (h : PrandDrawn s rs1 k w) : Retires s (retire (commit s w)) :=
  ComputesFrom.retires rfl h.powerUp

/-- Settles O24: with the entropy port RNG_PTR stays and coefficient i is the byte at place i - 1 of the port. -/
theorem prandFromEntropyCompletes : Obligations.PrandFromEntropyCompletes := by
  intro s rs1 h hs hbytes
  obtain ⟨w, hw, hnext⟩ := execPrand_completes (rs1 := rs1) h fun k hk =>
    (canDraw_entropy hs k).2 (by omega)
  have hlo : 1 ≤ s.cfgNat CfgReg.polyLen := h.1
  have hptr : w.rngPtr = s.readCfg CfgReg.rngPtr := BitVec.eq_of_toNat_eq (by rw [hw.rngPtr, hs]; rfl)
  refine ⟨_, hnext, hw.retires, hw.bytes 0 (Nat.zero_le _), fun i hpos hi => ?_, ?_, ?_, fun _ => rfl, fun c => ?_⟩
  · obtain ⟨j, rfl⟩ := Nat.exists_eq_add_of_le' hpos
    exact (hw.bytes _ (by omega)).trans (prandByte_succ_entropy hs _ j)
  · rw [retire_entropy, commit_entropy, hw.entropy, hs]; rfl
  · exact fun a ha => hw.outside a (by omega)
  · by_cases hc : c = CfgReg.rngPtr
    · rw [hc, readCfg_retire, readCfg_commit_rngPtr, hptr]
    · exact readCfg_commit_other s w hc

/-- Settles O25: with the DMEM stream RNG_PTR is the address of the draw that would come next. -/
theorem prandFromDmemCompletes : Obligations.PrandFromDmemCompletes := by
  intro s rs1 h hs hdraws
  obtain ⟨w, hw, hnext⟩ := execPrand_completes (rs1 := rs1) h fun k hk =>
    (canDraw_dmem hs k).2 (hdraws k hk)
  have hlo : 1 ≤ s.cfgNat CfgReg.polyLen := h.1
  refine ⟨_, hnext, hw.retires, hw.bytes 0 (Nat.zero_le _), fun i hpos hi => ?_, ?_, ?_, fun _ => rfl,
    fun c hc => readCfg_commit_other s w hc, ?_⟩
  · obtain ⟨j, rfl⟩ := Nat.exists_eq_add_of_le' hpos
    exact (hw.bytes _ (by omega)).trans (prandByte_succ_dmem hs _ j)
  · rw [State.cfgNat, readCfg_retire, readCfg_commit_rngPtr, hw.rngPtr, if_pos hs]; rfl
  · exact fun a ha => hw.outside a (by omega)
  · rw [retire_entropy, commit_entropy, hw.entropy, if_pos hs]

/-- Settles O26: the draw that fails changes nothing, so the work after `k` draws stands. -/
theorem prandDrawErrorKeepsEarlierWrites : Obligations.PrandDrawErrorKeepsEarlierWrites := by
  intro s rs1 k h hs hk hdraws hbeyond
  obtain ⟨w, hw, hnext⟩ := execPrand_drawError (rs1 := rs1) h hs hk hdraws hbeyond
  have hptr : w.rngPtr.toNat = s.rngAddr k := by rw [hw.rngPtr, if_pos hs]
  have hinfo : (CmdError.rng w.rngPtr).info.toNat = 3 * 2 ^ 28 + s.rngAddr k := by
    rw [← hptr]; exact toNat_errInfoWord (by decide) (by omega)
  refine ⟨_, hnext, raise_commit_recorded hw.powerUp rfl hinfo, ?_, hw.bytes, hw.outside, fun _ => rfl,
    fun c hc => readCfg_commit_other s w hc, ?_⟩
  · rw [State.cfgNat, readCfg_raise, readCfg_commit_rngPtr, hptr]
  · rw [raise_entropy, commit_entropy, hw.entropy, if_pos hs]

end Sys2Proof.Machine
end

section
/-! PROOFS. The checks SPLIT and JOIN make before any work (R351, R353, R357): when they find nothing, and the first
error they find. -/

namespace Sys2Proof.Machine

variable {s : State}

/-! ### The shape checks (R351) -/

/-- Whatever the command checks afterwards, the shape checks find `e` first. -/
def ShapeFails (s : State) (e : CmdError) : Prop := ∀ rest, firstError (shapeChecks s ++ rest) = some e

section Shape

theorem shapeFails_kRange (h : s.cfgNat CfgReg.shareK < 1 ∨ 255 < s.cfgNat CfgReg.shareK) :
    ShapeFails s (.kRange (s.cfgNat CfgReg.shareK)) := fun rest => by
  have hk := check_range_bad (hi := Config.maxShares) (.kRange (s.cfgNat CfgReg.shareK)) h
  simp only [shapeChecks, hk, List.cons_append, firstError_some]

variable (hlo : 1 ≤ s.cfgNat CfgReg.shareK) (hhi : s.cfgNat CfgReg.shareK ≤ 255)
include hlo hhi

theorem shapeFails_nRange (h : s.cfgNat CfgReg.shareN < 1 ∨ 255 < s.cfgNat CfgReg.shareN) :
    ShapeFails s (.nRange (s.cfgNat CfgReg.shareN)) := fun rest => by
  have hk := check_range_ok (hi := Config.maxShares) (.kRange (s.cfgNat CfgReg.shareK)) hlo hhi
  have hn := check_range_bad (hi := Config.maxShares) (.nRange (s.cfgNat CfgReg.shareN)) h
  simp only [shapeChecks, hk, hn, List.cons_append, firstError_none, firstError_some]

variable (hnlo : 1 ≤ s.cfgNat CfgReg.shareN) (hnhi : s.cfgNat CfgReg.shareN ≤ 255)
include hnlo hnhi

/-- The range checks pass, so K_GT_N and LEN_RANGE come next. -/
theorem firstError_shapeChecks_of_ranges (rest : List (Option CmdError)) :
    firstError (shapeChecks s ++ rest) =
      firstError (check (s.cfgNat CfgReg.shareN < s.cfgNat CfgReg.shareK) (.kGtN (s.cfgNat CfgReg.shareN)) ::
        check (s.params.maxSecretLen < s.cfgNat CfgReg.secretLen) (.lenRange (s.cfgNat CfgReg.secretLen)) :: rest) := by
  have hk := check_range_ok (hi := Config.maxShares) (.kRange (s.cfgNat CfgReg.shareK)) hlo hhi
  have hn := check_range_ok (hi := Config.maxShares) (.nRange (s.cfgNat CfgReg.shareN)) hnlo hnhi
  simp only [shapeChecks, hk, hn, List.cons_append, List.nil_append, firstError_none]

theorem shapeFails_kGtN (h : s.cfgNat CfgReg.shareN < s.cfgNat CfgReg.shareK) :
    ShapeFails s (.kGtN (s.cfgNat CfgReg.shareN)) := fun rest => by
  rw [firstError_shapeChecks_of_ranges hlo hhi hnlo hnhi, decide_eq_true h, check_true, firstError_some]

theorem shapeFails_lenRange (hkn : s.cfgNat CfgReg.shareK ≤ s.cfgNat CfgReg.shareN)
    (h : s.params.maxSecretLen < s.cfgNat CfgReg.secretLen) :
    ShapeFails s (.lenRange (s.cfgNat CfgReg.secretLen)) := fun rest => by
  rw [firstError_shapeChecks_of_ranges hlo hhi hnlo hnhi, decide_eq_false (Nat.not_lt.2 hkn), decide_eq_true h,
    check_false, check_true, firstError_none, firstError_some]

end Shape

/-- The shape checks find nothing exactly when the shape is ready (R351). -/
theorem shapeChecks_eq_none : (∀ c ∈ shapeChecks s, c = none) ↔ ShapeReady s := by
  constructor
  · intro h
    simp only [shapeChecks, List.forall_mem_cons, check_eq_none, Bool.or_eq_false_iff, decide_eq_false_iff_not] at h
    obtain ⟨⟨hk, -⟩, ⟨-, hn⟩, hkn, hl, -⟩ := h
    have hmax : Config.maxShares = 255 := rfl
    exact ⟨by omega, by omega, by omega, by omega⟩
  · intro h
    simp [shapeChecks_of_ready h]

/-! ### All the checks of SPLIT and of JOIN -/

/-- SPLIT passes its checks exactly when it is ready, its x-coordinates aside (R353). -/
theorem splitChecks_eq_none : splitChecks s = none ↔ s.xmode ≠ 3 ∧ ShapeReady s ∧ RegionsReady s ∧
    (s.xmode = 1 → Fits s (s.cfgNat CfgReg.xsBase) (s.cfgNat CfgReg.shareN)) := by
  have hxs : (if s.xmode = 1 then checkRegion s (s.cfgNat CfgReg.xsBase) (s.cfgNat CfgReg.shareN) else none) = none ↔
      (s.xmode = 1 → Fits s (s.cfgNat CfgReg.xsBase) (s.cfgNat CfgReg.shareN)) := by
    rw [ite_eq_right_iff, checkRegion_eq_none]
  have hmode : check (s.xmode == 3) (.xmodeRsvd (s.readCfg CfgReg.mode)) = none ↔ s.xmode ≠ 3 := by
    rw [check_eq_none, beq_eq_false_iff_ne]
  rw [splitChecks, firstError_eq_none, List.append_assoc, List.forall_mem_append, List.forall_mem_append,
    List.forall_mem_singleton, shapeChecks_eq_none, hmode]
  simp only [List.forall_mem_cons, hxs, secretRegionCheck, shareRegionCheck, checkRegion_eq_none, State.shareStride,
    and_assoc, List.not_mem_nil, false_imp_iff, implies_true, and_true]

theorem splitChecks_of_reservedMode (h : s.xmode = 3) :
    splitChecks s = some (.xmodeRsvd (s.readCfg CfgReg.mode)) := by
  rw [splitChecks, h]; rfl

/-- SPLIT in a defined mode makes the shape checks, then the checks of its regions (R353). -/
theorem splitChecks_of_mode (h : s.xmode ≠ 3) :
    splitChecks s = firstError (shapeChecks s ++ [secretRegionCheck s, shareRegionCheck s,
      if s.xmode = 1 then checkRegion s (s.cfgNat CfgReg.xsBase) (s.cfgNat CfgReg.shareN) else none]) := by
  rw [splitChecks, beq_eq_false_iff_ne.2 h]; rfl

theorem execSplit_of_check {e : CmdError} (h : splitChecks s = some e) : execSplit s = raised e s := by
  have hrun : splitRun s = (Work.ofState s, .error (.error e)) := by simp only [splitRun, h]
  rw [execSplit, hrun, finish_of_check]

theorem execJoin_of_check {e : CmdError} (h : joinChecks s = some e) : execJoin s = raised e s := by
  have hrun : joinRun s = (Work.ofState s, .error (.error e)) := by simp only [joinRun, h]
  rw [execJoin, hrun, finish_of_check]

theorem exec_of_shapeFails {i : Instr} {e : CmdError} (hi : i = .split ∨ i = .join)
    (hmode : i = .split → s.xmode ≠ 3) (h : ShapeFails s e) : exec i s = raised e s := by
  rcases hi with rfl | rfl
  · exact execSplit_of_check ((splitChecks_of_mode (hmode rfl)).trans (h _))
  · exact execJoin_of_check (h _)

/-! ### The obligations -/

/-- Settles O39: each clause is the first check that fails, and its VALUE fits ERR_INFO. -/
theorem sequencersRejectBadShapes : Obligations.SequencersRejectBadShapes := by
  intro s i hi k n l ends
  have hinfo (sub : Nat) (hsub : sub < 2 ^ 4) (c : CfgReg) :
      (errInfoWord sub (s.cfgNat c)).toNat = sub * 2 ^ 28 + s.cfgNat c := by
    have hc := s.cfgNat_lt c
    exact toNat_errInfoWord hsub (by omega)
  refine ⟨fun hsplit hmode => ?_, fun hmode => ⟨fun hk => ?_, fun hlo hhi hn => ?_,
    fun hlo hhi hnlo hnhi hkn => ?_, fun hlo hkn hnhi hl => ?_⟩⟩
  · subst hsplit
    exact raised_recorded (execSplit_of_check (splitChecks_of_reservedMode hmode)) rfl (hinfo 0 (by decide) _)
  · exact raised_recorded (exec_of_shapeFails hi hmode (shapeFails_kRange hk)) rfl (hinfo 0 (by decide) _)
  · exact raised_recorded (exec_of_shapeFails hi hmode (shapeFails_nRange hlo hhi hn)) rfl (hinfo 1 (by decide) _)
  · exact raised_recorded (exec_of_shapeFails hi hmode (shapeFails_kGtN hlo hhi hnlo hnhi hkn)) rfl
      (hinfo 5 (by decide) _)
  · exact raised_recorded (exec_of_shapeFails hi hmode
      (shapeFails_lenRange hlo (hkn.trans hnhi) (hlo.trans hkn) hnhi hkn hl)) rfl (hinfo 2 (by decide) _)

theorem checkRegion_of_not_fits {base len : Nat} (h : ¬Fits s base len) :
    checkRegion s base len = some (.region (max base s.params.dmemSize)) :=
  checkRegion_of_beyond (by omega) (by omega)

/-- Settles O40: the shape passes, and each clause is the first region that does not fit. -/
theorem sequencersRejectRegionsBeyondDmem : Obligations.SequencersRejectRegionsBeyondDmem := by
  intro s hlegal hshape size n l sb hb xb ends
  have hrecorded {i : Instr} {c : CfgReg} (h : exec i s = raised (.region (max (s.cfgNat c) size)) s) :
      ends i (s.cfgNat c) := raised_recorded h rfl (region_info hlegal c)
  have hshapes := shapeChecks_of_ready hshape
  have hsplit (hmode : s.xmode ≠ 3) := splitChecks_of_mode hmode
  refine ⟨fun hmode hsb => ?_, fun hmode hsb hhb => ?_, fun hmode hregions hxb => ?_, fun hhb => ?_,
    fun hhb hsb => ?_⟩
  · have hsecret : secretRegionCheck s = _ := checkRegion_of_not_fits hsb
    exact hrecorded (execSplit_of_check (by rw [hsplit hmode, hshapes, hsecret]; rfl))
  · have hsecret : secretRegionCheck s = none := checkRegion_eq_none.2 hsb
    have hshares : shareRegionCheck s = _ := checkRegion_of_not_fits hhb
    exact hrecorded (execSplit_of_check (by rw [hsplit hmode, hshapes, hsecret, hshares]; rfl))
  · obtain ⟨hsecret, hshares⟩ := regionChecks_of_ready hregions
    have hmode3 : s.xmode ≠ 3 := by rw [hmode]; decide
    exact hrecorded (execSplit_of_check (by
      rw [hsplit hmode3, hshapes, hsecret, hshares, if_pos hmode, checkRegion_of_not_fits hxb]; rfl))
  · have hshares : shareRegionCheck s = _ := checkRegion_of_not_fits hhb
    exact hrecorded (execJoin_of_check (by rw [joinChecks, hshapes, hshares]; rfl))
  · have hshares : shareRegionCheck s = none := checkRegion_eq_none.2 hhb
    have hsecret : secretRegionCheck s = _ := checkRegion_of_not_fits hsb
    exact hrecorded (execJoin_of_check (by rw [joinChecks, hshapes, hshares, hsecret]; rfl))

end Sys2Proof.Machine
end

section
/-! PROOFS. JOIN (R355, R357): the secret is written one byte at a time, so what stands after `j` bytes is said once. -/

namespace Sys2Proof.Machine

variable {s : State}

/-- Work that leaves RNG_PTR puts every configuration register back as it was. -/
theorem readCfg_commit_same {w : Work} (h : w.rngPtr = s.readCfg CfgReg.rngPtr) (c : CfgReg) :
    (commit s w).readCfg c = s.readCfg c := by
  by_cases hc : c = CfgReg.rngPtr
  · rw [hc, readCfg_commit_rngPtr, h]
  · exact readCfg_commit_other s w hc

/-- The x-coordinates of the first `n` shares of `s`. -/
def State.shareXs (s : State) (n : Nat) : List Byte := (List.range n).map fun i => s.dmem.read (s.xaddr i)

/-- Secret byte `j` that a JOIN started in `s` writes, when `t` is the state after it or after some of its writes
(R357): a y-value that lies in the secret is the byte written there before (R150). -/
def State.joinByte (s t : State) (j : Nat) : Byte :=
  lagrange0 (s.shareXs (s.cfgNat CfgReg.shareK)) ((List.range (s.cfgNat CfgReg.shareK)).map fun i =>
    if s.cfgNat CfgReg.secretBase ≤ s.yaddr i j ∧ s.yaddr i j < s.cfgNat CfgReg.secretBase + j
    then t.dmem.read (s.yaddr i j) else s.dmem.read (s.yaddr i j))

/-- Secret byte `j` looks only at the secret bytes before it (R150). -/
theorem joinByte_congr {t t' : State} {j : Nat}
    (h : ∀ a, a < s.cfgNat CfgReg.secretBase + j → t'.dmem.read a = t.dmem.read a) :
    s.joinByte t' j = s.joinByte t j := by
  refine congrArg (lagrange0 _) (List.map_congr_left fun i _ => ?_)
  split_ifs with hin
  · exact h _ hin.2
  · rfl

/-- `w` is the work of a JOIN started in `s` when `j` secret bytes are written. -/
structure JoinWritten (s : State) (j : Nat) (w : Work) : Prop where
  rngPtr : w.rngPtr = s.readCfg CfgReg.rngPtr
  entropy : w.entropy = s.entropy
  powerUp : w.dmem.powerUp = s.dmem.powerUp
  bytes : ∀ i < j, w.dmem.read (s.cfgNat CfgReg.secretBase + i) = s.joinByte (commit s w) i
  outside : MemSameOutside (s.cfgNat CfgReg.secretBase) j s (commit s w)

theorem joinWritten_start : JoinWritten s 0 (Work.ofState s) := ⟨rfl, rfl, rfl, nofun, fun _ _ => rfl⟩

/-- JOIN's loop over `n` bytes from `j` on, as `joinRun` calls it. -/
def State.joinLoop (s : State) (n j : Nat) (w : Work) : Work :=
  joinBytes (s.cfgNat CfgReg.secretBase) (s.cfgNat CfgReg.shareBase) s.shareStride
    (s.shareXs (s.cfgNat CfgReg.shareK)) n j w

/-- The y-values that JOIN's loop reads at secret byte `j`, by their addresses (R350). -/
theorem readStrided_ys (d : Dmem) (j n : Nat) :
    d.readStrided (s.cfgNat CfgReg.shareBase + 1 + j) s.shareStride n =
      (List.range n).map fun i => d.read (s.yaddr i j) := by
  refine List.map_congr_left fun i _ => congrArg d.read ?_
  simp only [State.yaddr, State.shareStride]; omega

namespace JoinWritten

variable {j : Nat} {w : Work} (h : JoinWritten s j w)
include h

theorem read_yaddr (i : Nat) : w.dmem.read (s.yaddr i j) =
    if s.cfgNat CfgReg.secretBase ≤ s.yaddr i j ∧ s.yaddr i j < s.cfgNat CfgReg.secretBase + j
    then w.dmem.read (s.yaddr i j) else s.dmem.read (s.yaddr i j) := by
  split_ifs with hin
  · rfl
  · exact h.outside _ (by omega)

/-- One turn of the loop writes the next secret byte. -/
theorem turn (n : Nat) : s.joinLoop (n + 1) j w =
    s.joinLoop n (j + 1) (w.write (s.cfgNat CfgReg.secretBase + j) (s.joinByte (commit s w) j)) := by
  have hlen : (s.shareXs (s.cfgNat CfgReg.shareK)).length = s.cfgNat CfgReg.shareK := by simp [State.shareXs]
  have hys := List.map_congr_left fun i (_ : i ∈ List.range (s.cfgNat CfgReg.shareK)) => h.read_yaddr i
  rw [State.joinLoop, joinBytes, hlen, readStrided_ys, hys]
  rfl

/-- The next secret byte is written above all that it or an earlier one looks at. -/
theorem next : JoinWritten s (j + 1)
    (w.write (s.cfgNat CfgReg.secretBase + j) (s.joinByte (commit s w) j)) where
  rngPtr := h.rngPtr
  entropy := h.entropy
  powerUp := h.powerUp
  bytes i hi := by
    have hother (b : Byte) {a : Nat} (ha : a < s.cfgNat CfgReg.secretBase + j) :
        (w.write (s.cfgNat CfgReg.secretBase + j) b).dmem.read a = w.dmem.read a :=
      Dmem.read_write_other _ _ (by omega)
    have hsame (b : Byte) : s.joinByte (commit s (w.write (s.cfgNat CfgReg.secretBase + j) b)) i =
        s.joinByte (commit s w) i := joinByte_congr fun a ha => hother b (by omega)
    rw [hsame]
    rcases Nat.lt_or_eq_of_le (Nat.le_of_lt_succ hi) with hlt | rfl
    · exact (hother _ (by omega)).trans (h.bytes i hlt)
    · exact Dmem.read_write_same ..
  outside a ha := (Dmem.read_write_other _ _ (by omega)).trans (h.outside a (by omega))

/-- The rest of the loop writes the rest of the secret. -/
theorem loop (n : Nat) : JoinWritten s (j + n) (s.joinLoop n j w) := by
  induction n generalizing j w with
  | zero => exact h
  | succ n ih =>
    rw [h.turn, Nat.add_comm n, ← Nat.add_assoc]
    exact ih h.next

end JoinWritten

/-- JOIN interpolates the first K of the x-coordinates it validates (R355). -/
theorem take_shareXs {k n : Nat} (h : k ≤ n) : (s.shareXs n).take k = s.shareXs k := by
  rw [State.shareXs, ← List.map_take, List.take_range, Nat.min_eq_left h, State.shareXs]

theorem execJoin_of_ready (h : JoinReady s) : execJoin s =
    .next (retire (commit s (s.joinLoop (s.cfgNat CfgReg.secretLen) 0 (Work.ofState s)))) := by
  obtain ⟨hshape, hregions, hnonzero, hdistinct⟩ := h
  have ⟨_, hkn, _⟩ := hshape
  have hread : (Work.ofState s).dmem.readStrided (s.cfgNat CfgReg.shareBase) s.shareStride
      (s.cfgNat CfgReg.shareN) = s.shareXs (s.cfgNat CfgReg.shareN) := rfl
  have hpass : checkPoints true (s.shareXs (s.cfgNat CfgReg.shareN)) = none :=
    checkPoints_range_eq_none.2 ⟨fun _ => hnonzero, hdistinct⟩
  simp only [execJoin, joinRun, joinChecks_of_ready hshape hregions, hread, hpass, take_shareXs hkn]
  rfl

/-- Settles O37: the loop's work, put back and retired. -/
theorem joinCompletes : Obligations.JoinCompletes := by
  intro s h k sb
  have hw := joinWritten_start.loop (s := s) (s.cfgNat CfgReg.secretLen)
  rw [Nat.zero_add] at hw
  exact ⟨_, execJoin_of_ready h, ComputesFrom.retires rfl hw.powerUp, hw.bytes, hw.outside, fun _ => rfl,
    readCfg_commit_same hw.rngPtr, hw.entropy⟩

end Sys2Proof.Machine
end

section
/-! PROOFS. The random stream of SPLIT (R411 to R413) and gen_x (R352): what a work that has made `d` draws knows of the
stream, and the x-coordinates gen_x finds in it. -/

namespace Sys2Proof.Machine

variable {s : State} {d : Nat} {w : Work}

/-! ### The stream -/

/-- Byte `d` of the random stream of a command started in `s`, counted from 0, when DMEM holds `mem` (R412, R413). -/
def State.streamByte (s : State) (mem : Dmem) (d : Nat) : Byte :=
  if s.rngFromDmem then mem.read (s.rngAddr d) else s.entropy.getD d 0

/-- `w` is the work of a command started in `s` when `d` bytes have been drawn. -/
structure Work.Drawn (s : State) (d : Nat) (w : Work) : Prop where
  size : w.size = s.params.dmemSize
  source : w.fromDmem = s.rngFromDmem
  rngPtr : w.rngPtr.toNat = if s.rngFromDmem then s.rngAddr d else s.cfgNat CfgReg.rngPtr
  entropy : w.entropy = if s.rngFromDmem then s.entropy else s.entropy.drop d
  powerUp : w.dmem.powerUp = s.dmem.powerUp

theorem Work.drawn_ofState : (Work.ofState s).Drawn s 0 where
  size := rfl
  source := rfl
  rngPtr := by rw [rngAddr_zero, ite_self]; rfl
  entropy := by rw [List.drop_zero, ite_self]; rfl
  powerUp := rfl

/-- Why a draw that finds no byte stops (R412, R413). -/
def Work.drawStop (w : Work) : Stop := if w.fromDmem then .error (.rng w.rngPtr) else .waitEntropy

namespace Work.Drawn

variable (h : w.Drawn s d)
include h

/-- A draw that finds its byte. -/
theorem draw (hcan : s.CanDraw d) :
    ∃ w1, w.draw = .ok (s.streamByte w.dmem d, w1) ∧ w1.dmem = w.dmem ∧ w1.Drawn s (d + 1) := by
  obtain ⟨hsize, hsource, hptr, hentropy, hpower⟩ := h
  cases hs : s.rngFromDmem with
  | true =>
    rw [canDraw_dmem hs] at hcan
    simp only [hs, if_true] at hsource hptr hentropy
    have hinside : ¬ w.size ≤ w.rngPtr.toNat := by rw [hsize, hptr]; omega
    refine ⟨{ w with rngPtr := w.rngPtr + 1 }, ?_, rfl, hsize, hsource.trans hs.symm, ?_, ?_, hpower⟩
    · rw [Work.draw, if_pos hsource, if_neg hinside, hptr, State.streamByte, if_pos hs]
    · rw [if_pos hs, rngAddr_succ, ← hptr, BitVec.toNat_add]; rfl
    · rw [if_pos hs]; exact hentropy
  | false =>
    rw [canDraw_entropy hs] at hcan
    simp only [hs, Bool.false_eq_true, if_false] at hsource hptr hentropy
    rw [List.drop_eq_getElem_cons hcan] at hentropy
    refine ⟨{ w with entropy := s.entropy.drop (d + 1), log := .take :: w.log }, ?_, rfl, hsize,
      hsource.trans hs.symm, ?_, ?_, hpower⟩
    · rw [Work.draw, if_neg (Bool.eq_false_iff.1 hsource), hentropy, State.streamByte, if_neg (Bool.eq_false_iff.1 hs),
        List.getD_eq_getElem _ _ hcan]
    · rw [hs]; exact hptr
    · rw [hs]; rfl

/-- A draw that finds no byte. -/
theorem draw_stops (hcan : ¬s.CanDraw d) : w.draw = .error w.drawStop := by
  obtain ⟨hsize, hsource, hptr, hentropy, -⟩ := h
  cases hs : s.rngFromDmem with
  | true =>
    rw [canDraw_dmem hs] at hcan
    rw [hs] at hsource
    rw [if_pos hs] at hptr
    rw [Work.draw, Work.drawStop, if_pos hsource, if_pos (by omega), if_pos hsource]
  | false =>
    rw [canDraw_entropy hs, Nat.not_lt] at hcan
    rw [hs] at hsource
    rw [hs, List.drop_eq_nil_of_le hcan] at hentropy
    simp [Work.draw, Work.drawStop, hsource, hentropy]

/-- A draw that has come is the next of the stream. -/
theorem of_draw {b : Byte} {w1 : Work} (hd : w.draw = .ok (b, w1)) : w1.Drawn s (d + 1) := by
  by_cases hcan : s.CanDraw d
  · obtain ⟨w2, hdraw, -, h2⟩ := h.draw hcan
    cases hdraw.symm.trans hd
    exact h2
  · cases (h.draw_stops hcan).symm.trans hd

/-- Draws that all find their bytes. -/
theorem drawMany (n : Nat) (hcan : ∀ e < n, s.CanDraw (d + e)) :
    ∃ w1, w.drawMany n = (w1, .ok ((List.range n).map fun e => s.streamByte w.dmem (d + e))) ∧
      w1.dmem = w.dmem ∧ w1.Drawn s (d + n) := by
  induction n generalizing w d with
  | zero => exact ⟨w, rfl, rfl, h⟩
  | succ n ih =>
    obtain ⟨w1, hdraw, hmem, h1⟩ := h.draw (hcan 0 (by omega))
    obtain ⟨w2, hmany, hmem2, h2⟩ := ih h1 fun e he => by
      rw [Nat.add_assoc, Nat.add_comm 1]; exact hcan (e + 1) (by omega)
    refine ⟨w2, ?_, hmem2.trans hmem, by rwa [Nat.add_comm n, ← Nat.add_assoc]⟩
    rw [Work.drawMany, hdraw]
    simp only [hmany, hmem, List.range_succ_eq_map, List.map_cons, List.map_map, Function.comp_def, Nat.add_zero,
      Nat.add_assoc, Nat.add_comm 1]

/-- Draws of which number `r` is the first to find no byte. -/
theorem drawMany_stops {n r : Nat} (hr : r < n) (hcan : ∀ e < r, s.CanDraw (d + e)) (hstop : ¬s.CanDraw (d + r)) :
    ∃ w1, w.drawMany n = (w1, .error w1.drawStop) ∧ w1.dmem = w.dmem ∧ w1.Drawn s (d + r) := by
  induction r generalizing w d n with
  | zero =>
    obtain ⟨n, rfl⟩ := Nat.exists_eq_add_of_lt hr
    exact ⟨w, by rw [Nat.zero_add, Work.drawMany, h.draw_stops hstop], rfl, h⟩
  | succ r ih =>
    obtain ⟨n, rfl⟩ := Nat.exists_eq_add_of_le' (Nat.zero_lt_of_lt hr)
    obtain ⟨w1, hdraw, hmem, h1⟩ := h.draw (hcan 0 (by omega))
    rw [Nat.add_comm r, ← Nat.add_assoc] at hstop ⊢
    obtain ⟨w2, hmany, hmem2, h2⟩ := ih h1 (Nat.lt_of_succ_lt_succ hr) (fun e he => by
      rw [Nat.add_assoc, Nat.add_comm 1]; exact hcan (e + 1) (by omega)) hstop
    exact ⟨w2, by simp only [Work.drawMany, hdraw, hmany], hmem2.trans hmem, h2⟩

/-- With the entropy port RNG_PTR stays (R413). -/
theorem rngPtr_entropy (hs : s.rngFromDmem = false) : w.rngPtr = s.readCfg CfgReg.rngPtr :=
  BitVec.eq_of_toNat_eq (by rw [h.rngPtr, hs]; rfl)

/-- With the DMEM stream RNG_PTR is the address of the next draw (R412). -/
theorem cfgNat_rngPtr (hs : s.rngFromDmem = true) : (commit s w).cfgNat CfgReg.rngPtr = s.rngAddr d := by
  rw [State.cfgNat, readCfg_commit_rngPtr, h.rngPtr, if_pos hs]

end Work.Drawn

/-! ### The distinct nonzero bytes of a list (R352) -/

theorem distinctNonzero_concat (l : List Byte) (b : Byte) : distinctNonzero (l ++ [b]) =
    if b = 0 ∨ b ∈ distinctNonzero l then distinctNonzero l else distinctNonzero l ++ [b] := by
  rw [distinctNonzero, List.foldl_append]; rfl

theorem mem_distinctNonzero {l : List Byte} {b : Byte} : b ∈ distinctNonzero l ↔ b ≠ 0 ∧ b ∈ l := by
  induction l using List.reverseRecOn with
  | nil => simp [distinctNonzero]
  | append_singleton l c ih =>
    rw [distinctNonzero_concat, List.mem_append, List.mem_singleton]
    split_ifs with hc
    · refine ⟨fun hb => (ih.1 hb).imp_right .inl, ?_⟩
      rintro ⟨h0, hb | rfl⟩
      · exact ih.2 ⟨h0, hb⟩
      · exact hc.resolve_left h0
    · rw [List.mem_append, List.mem_singleton, ih]
      refine ⟨?_, fun ⟨h0, hb⟩ => hb.imp_left fun hl => ⟨h0, hl⟩⟩
      rintro (⟨h0, hb⟩ | rfl)
      · exact ⟨h0, .inl hb⟩
      · exact ⟨fun h0 => hc (.inl h0), .inr rfl⟩

/-! ### The x-coordinates found in `d` draws -/

/-- The x-coordinates that XMODE 2 has found in the first `d` bytes of the stream (R352). -/
def State.xsFound (s : State) (d : Nat) : List Byte := distinctNonzero (s.randomBytes d)

theorem xsFound_zero : s.xsFound 0 = [] := by
  simp [State.xsFound, State.randomBytes, distinctNonzero]

theorem randomBytes_succ (hcan : s.CanDraw d) :
    s.randomBytes (d + 1) = s.randomBytes d ++ [s.streamByte s.dmem d] := by
  cases hs : s.rngFromDmem with
  | true => simp [State.randomBytes, State.streamByte, hs, List.range_succ]
  | false =>
    rw [canDraw_entropy hs] at hcan
    simp [State.randomBytes, State.streamByte, hs, hcan]

/-- A zero or a repeat is consumed and discarded (R352). -/
theorem xsFound_succ (hcan : s.CanDraw d) : s.xsFound (d + 1) =
    if s.streamByte s.dmem d = 0 ∨ s.streamByte s.dmem d ∈ s.xsFound d then s.xsFound d
    else s.xsFound d ++ [s.streamByte s.dmem d] := by
  rw [State.xsFound, randomBytes_succ hcan, distinctNonzero_concat]; rfl

/-- DMEM's addresses repeat after 2^20 draws, so no later draw finds another x-coordinate (93 U3). -/
theorem xsFound_of_ge (hs : s.rngFromDmem = true) (hd : 2 ^ 20 ≤ d) : s.xsFound d = s.xsFound (2 ^ 20) := by
  induction d, hd using Nat.le_induction with
  | base => rfl
  | succ d hd ih =>
    have haddr : s.rngAddr (d - 2 ^ 20) = s.rngAddr d := by simp only [State.rngAddr]; omega
    have hbytes (n : Nat) : s.randomBytes n = (List.range n).map fun i => s.dmem.read (s.rngAddr i) := if_pos hs
    have hseen : s.dmem.read (s.rngAddr d) ∈ s.randomBytes d := by
      rw [hbytes, ← haddr]
      exact List.mem_map_of_mem (List.mem_range.2 (by omega))
    have hold : s.dmem.read (s.rngAddr d) = 0 ∨ s.dmem.read (s.rngAddr d) ∈ distinctNonzero (s.randomBytes d) :=
      or_iff_not_imp_left.2 fun h0 => mem_distinctNonzero.2 ⟨h0, hseen⟩
    rw [← ih, State.xsFound, hbytes, List.range_succ, List.map_append, ← hbytes, List.map_singleton,
      distinctNonzero_concat, if_pos hold]
    rfl

/-! ### gen_x -/

theorem map_getD_range {l : List Byte} {n : Nat} (h : l.length = n) : (List.range n).map (fun i => l.getD i 0) = l := by
  subst h
  refine List.ext_getElem (by simp) fun i _ hi => ?_
  rw [List.getElem_map, List.getElem_range, List.getD_eq_getElem _ _ hi]

/-- One turn of XMODE 2's loop draws one byte. -/
theorem drawDistinct_turn (h : w.Drawn s d) (hmem : w.dmem = s.dmem) (hcan : s.CanDraw d)
    (hmore : (s.xsFound d).length < s.cfgNat CfgReg.shareN) :
    ∃ w1, w1.Drawn s (d + 1) ∧ w1.dmem = s.dmem ∧ ∀ fuel,
      drawDistinct (fuel + 1) w (s.cfgNat CfgReg.shareN - (s.xsFound d).length) (s.xsFound d) =
        drawDistinct fuel w1 (s.cfgNat CfgReg.shareN - (s.xsFound (d + 1)).length) (s.xsFound (d + 1)) := by
  obtain ⟨w1, hdraw, hmem1, h1⟩ := h.draw hcan
  rw [hmem] at hdraw hmem1
  obtain ⟨need, hneed⟩ := Nat.exists_eq_add_of_lt hmore
  refine ⟨w1, h1, hmem1, fun fuel => ?_⟩
  have hleft : s.cfgNat CfgReg.shareN - (s.xsFound d).length = need + 1 := by omega
  rw [hleft, drawDistinct, hdraw, xsFound_succ hcan]
  simp only
  split_ifs with hold
  · rw [hleft]
  · rw [List.length_append, List.length_singleton, hneed]
    congr 1; omega

/-- The first `r` turns of XMODE 2's loop. -/
theorem drawDistinct_turns (r : Nat) (hcan : ∀ d < r, s.CanDraw d)
    (hmore : ∀ d < r, (s.xsFound d).length < s.cfgNat CfgReg.shareN) :
    ∃ w, w.Drawn s r ∧ w.dmem = s.dmem ∧ ∀ fuel,
      drawDistinct (fuel + r) (Work.ofState s) (s.cfgNat CfgReg.shareN) [] =
        drawDistinct fuel w (s.cfgNat CfgReg.shareN - (s.xsFound r).length) (s.xsFound r) := by
  induction r with
  | zero => exact ⟨_, Work.drawn_ofState, rfl, fun fuel => by rw [xsFound_zero]; rfl⟩
  | succ r ih =>
    obtain ⟨w, hw, hmem, hloop⟩ := ih (fun d hd => hcan d (by omega)) fun d hd => hmore d (by omega)
    obtain ⟨w1, h1, hmem1, hturn⟩ := drawDistinct_turn hw hmem (hcan r (by omega)) (hmore r (by omega))
    refine ⟨w1, h1, hmem1, fun fuel => ?_⟩
    rw [← hturn, ← hloop, Nat.add_assoc, Nat.add_comm 1]

/-- gen_x's bound on its draws is not met while x-coordinates are missing (log entry 8). -/
theorem le_drawFuel {m : Nat} (hcan : ∀ d < m, s.CanDraw d)
    (hmore : ∀ d < m, (s.xsFound d).length < s.cfgNat CfgReg.shareN)
    (hend : (s.xsFound m).length = s.cfgNat CfgReg.shareN) : m ≤ drawFuel (Work.ofState s) := by
  have hfuel : drawFuel (Work.ofState s) = 2 ^ 20 + s.entropy.length := rfl
  cases hs : s.rngFromDmem with
  | true =>
    by_contra hlt
    have hbefore := hmore (2 ^ 20) (by omega)
    rw [← xsFound_of_ge hs (d := m) (by omega), hend] at hbefore
    exact Nat.lt_irrefl _ hbefore
  | false =>
    rcases Nat.eq_zero_or_pos m with rfl | hpos
    · exact Nat.zero_le _
    · have hlast := (canDraw_entropy hs _).1 (hcan (m - 1) (by omega))
      omega

theorem genX_of_xmode_two (h : s.xmode = 2) (w : Work) :
    genX s w = drawDistinct (drawFuel w) w (s.cfgNat CfgReg.shareN) [] := by
  rw [genX, h]; rfl

/-- gen_x finds its x-coordinates where its `m` draws all find their bytes. -/
theorem genX_completes {m : Nat} (h : SplitReady s) (hx : XsDrawn s m) (hcan : ∀ d < m, s.CanDraw d) :
    ∃ w, w.Drawn s m ∧ w.dmem = s.dmem ∧
      genX s (Work.ofState s) = (w, .ok ((List.range (s.cfgNat CfgReg.shareN)).map (s.splitX m))) := by
  obtain ⟨-, -, -, hpoints⟩ := h
  obtain ⟨h0 | h1, rfl⟩ | ⟨h2, hend, hmore⟩ := hx
  · have hxs : s.splitX 0 = fun i => BitVec.ofNat 8 (i + 1) := funext fun i => if_pos h0
    exact ⟨_, Work.drawn_ofState, rfl, by rw [genX, if_pos h0, hxs]⟩
  · have hxs : s.splitX 0 = fun i => s.dmem.read (s.cfgNat CfgReg.xsBase + i) :=
      funext fun i => by rw [State.splitX, h1]; rfl
    obtain ⟨-, hnonzero, hdistinct⟩ := hpoints h1
    have hpass := (checkPoints_range_eq_none (nz := true)).2 ⟨fun _ => hnonzero, hdistinct⟩
    have hdmem : (Work.ofState s).dmem = s.dmem := rfl
    refine ⟨_, Work.drawn_ofState, rfl, ?_⟩
    rw [genX, h1, if_neg (by decide), if_pos rfl, hdmem, Dmem.readList_eq_map, hxs]
    simp only [hpass]
  · have hxs : (List.range (s.cfgNat CfgReg.shareN)).map (s.splitX m) = s.xsFound m := by
      have hx : s.splitX m = fun i => (s.xsFound m).getD i 0 := funext fun i => by rw [State.splitX, h2]; rfl
      rw [hx]; exact map_getD_range hend
    obtain ⟨w, hw, hmem, hloop⟩ := drawDistinct_turns m hcan hmore
    obtain ⟨fuel, hfuel⟩ := Nat.exists_eq_add_of_le' (le_drawFuel hcan hmore hend)
    refine ⟨w, hw, hmem, ?_⟩
    have hdone : s.cfgNat CfgReg.shareN - (s.xsFound m).length = 0 := by rw [State.xsFound]; omega
    rw [genX_of_xmode_two h2, hfuel, hloop, hdone, hxs, drawDistinct]

/-- A draw of gen_x that finds no byte ends it, DMEM unchanged. -/
theorem genX_stops (h2 : s.xmode = 2) (hfuel : d < drawFuel (Work.ofState s))
    (hmore : ∀ r ≤ d, (s.xsFound r).length < s.cfgNat CfgReg.shareN)
    (hcan : ∀ r < d, s.CanDraw r) (hstop : ¬s.CanDraw d) :
    ∃ w, w.Drawn s d ∧ w.dmem = s.dmem ∧ genX s (Work.ofState s) = (w, .error w.drawStop) := by
  obtain ⟨w, hw, hmem, hloop⟩ := drawDistinct_turns d hcan fun r hr => hmore r hr.le
  obtain ⟨need, hneed⟩ := Nat.exists_eq_add_of_lt (hmore d le_rfl)
  obtain ⟨fuel, hfuel⟩ := Nat.exists_eq_add_of_lt hfuel
  have hleft : s.cfgNat CfgReg.shareN - (s.xsFound d).length = need + 1 := by omega
  refine ⟨w, hw, hmem, ?_⟩
  rw [genX_of_xmode_two h2, hfuel, Nat.add_assoc, Nat.add_comm d, hloop, hleft, drawDistinct, hw.draw_stops hstop]

/-! ### What gen_x gives when it ends -/

/-- XMODE 2's loop adds only bytes that are neither zero nor there already. -/
theorem drawDistinct_ok {fuel need : Nat} {xs ys : List Byte} {w' : Work} (h : w.Drawn s d) (hxs : xs.Nodup)
    (h0 : 0 ∉ xs) (hrun : drawDistinct fuel w need xs = (w', .ok ys)) :
    ys.Nodup ∧ 0 ∉ ys ∧ ∃ m, w'.Drawn s m := by
  induction fuel generalizing w d need xs with
  | zero =>
    cases need with
    | zero => cases hrun; exact ⟨hxs, h0, d, h⟩
    | succ need => cases hrun
  | succ fuel ih =>
    cases need with
    | zero => cases hrun; exact ⟨hxs, h0, d, h⟩
    | succ need =>
      rw [drawDistinct] at hrun
      cases hd : w.draw with
      | error e => rw [hd] at hrun; cases hrun
      | ok p =>
        obtain ⟨b, w1⟩ := p
        simp only [hd] at hrun
        split_ifs at hrun with hold
        · exact ih (h.of_draw hd) hxs h0 hrun
        · rw [not_or] at hold
          exact ih (h.of_draw hd) (List.concat_eq_append ▸ hxs.concat hold.2)
            (fun hmem => (List.mem_append.1 hmem).elim h0 fun hb => hold.1 (List.mem_singleton.1 hb).symm) hrun

/-- The x-coordinates gen_x gives are distinct and nonzero in every mode (R352). -/
theorem genX_ok {xs : List Byte} {w' : Work} (hn : s.cfgNat CfgReg.shareN ≤ 255)
    (hrun : genX s (Work.ofState s) = (w', .ok xs)) :
    xs.Nodup ∧ 0 ∉ xs ∧ ∃ m, w'.Drawn s m := by
  rw [genX] at hrun
  simp only at hrun
  split_ifs at hrun with h0 h1
  · cases hrun
    have hval {i : Nat} (hi : i ∈ List.range (s.cfgNat CfgReg.shareN)) : (BitVec.ofNat 8 (i + 1)).toNat = i + 1 := by
      rw [List.mem_range] at hi
      exact Nat.mod_eq_of_lt (by omega)
    refine ⟨List.Nodup.map_on (fun i hi k hk hik => ?_) List.nodup_range, fun hmem => ?_, 0, Work.drawn_ofState⟩
    · have hnat := congrArg BitVec.toNat hik
      rw [hval hi, hval hk] at hnat
      exact Nat.succ_injective hnat
    · obtain ⟨i, hi, hi0⟩ := List.mem_map.1 hmem
      exact Nat.succ_ne_zero i ((hval hi).symm.trans (congrArg BitVec.toNat hi0))
  · split at hrun
    next => cases hrun
    next hpass =>
      cases hrun
      obtain ⟨hnonzero, hnodup⟩ := checkPoints_eq_none.1 hpass
      exact ⟨hnodup, fun hmem => hnonzero rfl 0 hmem rfl, 0, Work.drawn_ofState⟩
  · exact drawDistinct_ok Work.drawn_ofState List.nodup_nil (by simp) hrun

end Sys2Proof.Machine
end

section
/-! PROOFS. SPLIT (R350 to R353): the share set is written column by column, the x-coordinates and then the y-values of
one secret byte after another, so what stands after `j` secret bytes is said once. It serves a command that completes,
one that a draw ends, and the contract of R354. -/

namespace Sys2Proof.Machine

variable {s t t' : State} {m j : Nat} {x : Nat → Byte} {w : Work}

/-! ### The columns of the share set (R350) -/

/-- Byte `o` of share `i` (R350): its x-coordinate for `o = 0`, else its y-value for secret byte `o - 1`. -/
def State.shareAddr (s : State) (i o : Nat) : Nat := s.cfgNat CfgReg.shareBase + i * s.shareStride + o

theorem xaddr_eq (i : Nat) : s.xaddr i = s.shareAddr i 0 := rfl

theorem yaddr_eq (i j : Nat) : s.yaddr i j = s.shareAddr i (j + 1) := by
  simp only [State.yaddr, State.shareAddr, State.shareStride]; omega

/-- Address `a` is in one of the columns 0 to `o` of the share set: what SPLIT has written at secret byte `o`. -/
def State.InColumns (s : State) (o a : Nat) : Prop :=
  s.cfgNat CfgReg.shareBase ≤ a ∧
  a < s.cfgNat CfgReg.shareBase + s.cfgNat CfgReg.shareN * (s.cfgNat CfgReg.secretLen + 1) ∧
  (a - s.cfgNat CfgReg.shareBase) % (s.cfgNat CfgReg.secretLen + 1) ≤ o

theorem inColumns_shareAddr {i o o' : Nat} (hi : i < s.cfgNat CfgReg.shareN) (ho : o ≤ s.cfgNat CfgReg.secretLen) :
    s.InColumns o' (s.shareAddr i o) ↔ o ≤ o' := by
  have hstride : s.shareStride = s.cfgNat CfgReg.secretLen + 1 := rfl
  have hend : (i + 1) * s.shareStride ≤ s.cfgNat CfgReg.shareN * s.shareStride := Nat.mul_le_mul_right _ hi
  have hoff : s.shareAddr i o - s.cfgNat CfgReg.shareBase = o + s.shareStride * i := by
    rw [State.shareAddr, Nat.mul_comm i]; omega
  rw [Nat.succ_mul] at hend
  rw [State.InColumns, hoff, ← hstride, Nat.add_mul_mod_self_left, Nat.mod_eq_of_lt (by omega)]
  refine ⟨fun ⟨_, _, h⟩ => h, fun h => ⟨?_, ?_, h⟩⟩ <;> simp only [State.shareAddr] <;> omega

theorem inColumns_xaddr {i : Nat} (o : Nat) (hi : i < s.cfgNat CfgReg.shareN) : s.InColumns o (s.xaddr i) :=
  (inColumns_shareAddr hi (Nat.zero_le _)).2 (Nat.zero_le _)

theorem inColumns_yaddr {i j o : Nat} (hi : i < s.cfgNat CfgReg.shareN) (hj : j < s.cfgNat CfgReg.secretLen) :
    s.InColumns o (s.yaddr i j) ↔ j < o := by
  rw [yaddr_eq]; exact inColumns_shareAddr hi hj

theorem State.InColumns.mono {o o' a : Nat} (h : s.InColumns o a) (ho : o ≤ o') : s.InColumns o' a := by
  obtain ⟨hlo, hhi, hcolumn⟩ := h
  exact ⟨hlo, hhi, hcolumn.trans ho⟩

theorem not_inColumns_outside {o a : Nat} (h : a < s.cfgNat CfgReg.shareBase ∨
    s.cfgNat CfgReg.shareBase + s.cfgNat CfgReg.shareN * (s.cfgNat CfgReg.secretLen + 1) ≤ a) : ¬s.InColumns o a :=
  fun ⟨hlo, hhi, _⟩ => by omega

/-! ### What SPLIT finds at secret byte `j` -/

theorem splitSees_of_inColumns {a : Nat} (h : s.InColumns j a) : s.splitSees t j a = t.dmem.read a := if_pos h

theorem splitSees_of_not_inColumns {a : Nat} (h : ¬s.InColumns j a) : s.splitSees t j a = s.dmem.read a := if_neg h

/-- SPLIT finds at secret byte `j` what stands in the columns written by then (R150). -/
theorem splitSees_congr (h : ∀ a, s.InColumns j a → t'.dmem.read a = t.dmem.read a) (a : Nat) :
    s.splitSees t' j a = s.splitSees t j a := by
  by_cases ha : s.InColumns j a
  · rw [splitSees_of_inColumns ha, splitSees_of_inColumns ha, h a ha]
  · rw [splitSees_of_not_inColumns ha, splitSees_of_not_inColumns ha]

theorem splitPoly_congr (h : ∀ a, s.InColumns j a → t'.dmem.read a = t.dmem.read a) :
    s.splitPoly t' m j = s.splitPoly t m j := by
  simp only [State.splitPoly, splitSees_congr h]

/-! ### What is written when `j` secret bytes are done -/

/-- `t` holds what a SPLIT started in `s` has written when `j` secret bytes are done: the x-coordinates `x`, found in
`m` draws, and the y-values of the bytes before `j`. -/
structure SplitWritten (s : State) (m : Nat) (x : Nat → Byte) (j : Nat) (t : State) : Prop where
  xBytes : ∀ i < s.cfgNat CfgReg.shareN, t.dmem.read (s.xaddr i) = x i
  yBytes : ∀ j' < j, ∀ i < s.cfgNat CfgReg.shareN, t.dmem.read (s.yaddr i j') = peval (s.splitPoly t m j') (x i)
  unwritten : ∀ a, ¬s.InColumns j a → t.dmem.read a = s.dmem.read a

namespace SplitWritten

variable (h : SplitWritten s m x j t)
include h

theorem outside : MemSameOutside (s.cfgNat CfgReg.shareBase)
    (s.cfgNat CfgReg.shareN * (s.cfgNat CfgReg.secretLen + 1)) s t :=
  fun a ha => h.unwritten a (not_inColumns_outside ha)

theorem of_dmem (hmem : t'.dmem = t.dmem) : SplitWritten s m x j t' where
  xBytes i hi := by rw [hmem, h.xBytes i hi]
  yBytes j' hj i hi := by
    have hpoly : s.splitPoly t' m j' = s.splitPoly t m j' := splitPoly_congr fun a _ => by rw [hmem]
    rw [hmem, hpoly, h.yBytes j' hj i hi]
  unwritten a ha := by rw [hmem, h.unwritten a ha]

/-- DMEM as it is then is what SPLIT finds at secret byte `j`. -/
theorem read_eq_splitSees (a : Nat) : t.dmem.read a = s.splitSees t j a := by
  by_cases ha : s.InColumns j a
  · rw [splitSees_of_inColumns ha]
  · rw [splitSees_of_not_inColumns ha, h.unwritten a ha]

/-- The secret byte read and the bytes drawn are the polynomial of secret byte `j`. -/
theorem poly_eq : t.dmem.read (s.cfgNat CfgReg.secretBase + j) ::
    (List.range (s.cfgNat CfgReg.shareK - 1)).map
      (fun e => s.streamByte t.dmem (m + (j * (s.cfgNat CfgReg.shareK - 1) + e))) = s.splitPoly t m j := by
  simp only [State.splitPoly, State.streamByte, h.read_eq_splitSees]

/-- Column `j + 1` written with the polynomial of secret byte `j`. -/
theorem next (hj : j < s.cfgNat CfgReg.secretLen)
    (hcolumn : ∀ i < s.cfgNat CfgReg.shareN, t'.dmem.read (s.yaddr i j) = peval (s.splitPoly t m j) (x i))
    (hother : ∀ a, (∀ i < s.cfgNat CfgReg.shareN, a ≠ s.yaddr i j) → t'.dmem.read a = t.dmem.read a) :
    SplitWritten s m x (j + 1) t' := by
  have hbefore (a : Nat) (ha : s.InColumns j a) : t'.dmem.read a = t.dmem.read a :=
    hother a fun i hi heq => Nat.lt_irrefl j ((inColumns_yaddr hi hj).1 (heq ▸ ha))
  refine ⟨fun i hi => (hbefore _ (inColumns_xaddr j hi)).trans (h.xBytes i hi), fun j' hj' i hi => ?_, fun a ha => ?_⟩
  · rw [splitPoly_congr fun a ha => hbefore a (ha.mono (Nat.le_of_lt_succ hj'))]
    rcases Nat.lt_or_eq_of_le (Nat.le_of_lt_succ hj') with hlt | rfl
    · rw [hbefore _ ((inColumns_yaddr hi (hlt.trans hj)).2 hlt), h.yBytes j' hlt i hi]
    · exact hcolumn i hi
  · rw [hother a fun i hi heq => ha (heq ▸ (inColumns_yaddr hi hj).2 (Nat.lt_succ_self j)),
      h.unwritten a fun ha' => ha (ha'.mono (Nat.le_succ j))]

end SplitWritten

/-! ### Writing one column -/

/-- Strided writes change DMEM's bytes only. -/
theorem Work.Drawn.writeStrided {d : Nat} (h : w.Drawn s d) (base stride : Nat) (bs : List Byte) :
    (w.writeStrided base stride bs).Drawn s d := by
  induction bs generalizing w base with
  | nil => exact h
  | cons b rest ih => exact ih (w := w.write base b) ⟨h.size, h.source, h.rngPtr, h.entropy, h.powerUp⟩ _

/-- `w` after the bytes `f 0`, `f 1`, ... have gone into column `o` of the share set. -/
def Work.writeColumn (w : Work) (s : State) (o : Nat) (f : Nat → Byte) : Work :=
  w.writeStrided (s.cfgNat CfgReg.shareBase + o) s.shareStride ((List.range (s.cfgNat CfgReg.shareN)).map f)

theorem read_writeColumn_same {o i : Nat} (f : Nat → Byte) (hi : i < s.cfgNat CfgReg.shareN) :
    (w.writeColumn s o f).dmem.read (s.shareAddr i o) = f i := by
  have hpos : 0 < s.shareStride := Nat.succ_pos _
  have haddr : s.shareAddr i o = s.cfgNat CfgReg.shareBase + o + i * s.shareStride := Nat.add_right_comm ..
  rw [haddr, Work.writeColumn, Work.writeStrided_same _ _ hpos _ _ (by simpa using hi)]
  simp [hi]

theorem read_writeColumn_other {o a : Nat} (f : Nat → Byte) (ha : ∀ i < s.cfgNat CfgReg.shareN, a ≠ s.shareAddr i o) :
    (w.writeColumn s o f).dmem.read a = w.dmem.read a := by
  refine Work.writeStrided_other _ _ _ _ _ fun i hi => ?_
  rw [Nat.add_right_comm]
  exact ha i (by simpa using hi)

/-- The x-coordinates written, no secret byte done. -/
theorem splitWritten_start (hmem : w.dmem = s.dmem) : SplitWritten s m x 0 (commit s (w.writeColumn s 0 x)) where
  xBytes i hi := read_writeColumn_same x hi
  yBytes := nofun
  unwritten a ha := by
    rw [← hmem]
    exact read_writeColumn_other x fun i hi heq => ha (heq ▸ inColumns_xaddr 0 hi)

/-! ### SPLIT's loop -/

/-- SPLIT's loop over `n` secret bytes from `j` on, as `splitRun` calls it. -/
def State.splitLoop (s : State) (x : Nat → Byte) (n j : Nat) (w : Work) : Work × Except Stop Unit :=
  splitBytes (s.cfgNat CfgReg.secretBase) (s.cfgNat CfgReg.shareBase) s.shareStride (s.cfgNat CfgReg.shareK)
    ((List.range (s.cfgNat CfgReg.shareN)).map x) n j w

/-- One turn of the loop, its draws all finding their bytes. -/
theorem splitLoop_turn (h : SplitWritten s m x j (commit s w))
    (hdrawn : w.Drawn s (m + j * (s.cfgNat CfgReg.shareK - 1))) (hj : j < s.cfgNat CfgReg.secretLen)
    (hcan : ∀ e < s.cfgNat CfgReg.shareK - 1, s.CanDraw (m + (j * (s.cfgNat CfgReg.shareK - 1) + e))) :
    ∃ w1, SplitWritten s m x (j + 1) (commit s w1) ∧ w1.Drawn s (m + (j + 1) * (s.cfgNat CfgReg.shareK - 1)) ∧
      ∀ n, s.splitLoop x (n + 1) j w = s.splitLoop x n (j + 1) w1 := by
  obtain ⟨w1, hmany, hmem, h1⟩ := hdrawn.drawMany (s.cfgNat CfgReg.shareK - 1) fun e he => by
    rw [Nat.add_assoc]; exact hcan e he
  have hpoly := h.poly_eq
  have hbase : s.cfgNat CfgReg.shareBase + 1 + j = s.cfgNat CfgReg.shareBase + (j + 1) := by omega
  refine ⟨w1.writeColumn s (j + 1) fun i => peval (s.splitPoly (commit s w) m j) (x i), ?_, ?_, fun n => ?_⟩
  · refine h.next hj (fun i hi => ?_) fun a ha => ?_
    · rw [yaddr_eq]; exact read_writeColumn_same _ hi
    · simp only [yaddr_eq] at ha
      exact (read_writeColumn_other _ ha).trans (by rw [hmem]; rfl)
  · rw [Nat.succ_mul, ← Nat.add_assoc]
    exact h1.writeStrided _ _ _
  · simp only [Nat.add_assoc] at hmany
    rw [State.splitLoop, splitBytes, hmany]
    simp only
    rw [commit_dmem] at hpoly
    rw [hpoly, List.map_map, hbase]
    rfl

/-- The first `q` turns of the loop, their draws all finding their bytes. -/
theorem splitLoop_turns (hstart : SplitWritten s m x 0 (commit s w)) (hdrawn : w.Drawn s m) (q : Nat)
    (hq : q ≤ s.cfgNat CfgReg.secretLen)
    (hcan : ∀ d < q * (s.cfgNat CfgReg.shareK - 1), s.CanDraw (m + d)) :
    ∃ w1, SplitWritten s m x q (commit s w1) ∧ w1.Drawn s (m + q * (s.cfgNat CfgReg.shareK - 1)) ∧
      ∀ n, s.splitLoop x (q + n) 0 w = s.splitLoop x n q w1 := by
  induction q with
  | zero => exact ⟨w, hstart, by rwa [Nat.zero_mul], fun n => by rw [Nat.zero_add]⟩
  | succ q ih =>
    rw [Nat.succ_mul] at hcan
    obtain ⟨w1, h1, hdrawn1, hloop⟩ := ih (by omega) fun d hd => hcan d (by omega)
    obtain ⟨w2, h2, hdrawn2, hturn⟩ := splitLoop_turn h1 hdrawn1 hq fun e he => hcan _ (by omega)
    exact ⟨w2, h2, hdrawn2, fun n => by rw [← hturn, ← hloop, Nat.add_assoc, Nat.add_comm 1]⟩

section Loop

variable (hstart : SplitWritten s m x 0 (commit s w)) (hdrawn : w.Drawn s m)
include hstart hdrawn

/-- The loop whose draws all find their bytes writes the whole share set. -/
theorem splitLoop_completes (hcan : ∀ d < s.splitDraws, s.CanDraw (m + d)) :
    ∃ w1, SplitWritten s m x (s.cfgNat CfgReg.secretLen) (commit s w1) ∧ w1.Drawn s (m + s.splitDraws) ∧
      s.splitLoop x (s.cfgNat CfgReg.secretLen) 0 w = (w1, .ok ()) := by
  obtain ⟨w1, h1, hdrawn1, hloop⟩ := splitLoop_turns hstart hdrawn _ le_rfl hcan
  exact ⟨w1, h1, hdrawn1, hloop 0⟩

/-- The loop whose draw `d` is the first to find no byte stops there, the secret bytes before that draw's done. -/
theorem splitLoop_stops {d : Nat} (hd : d < s.splitDraws) (hcan : ∀ e < d, s.CanDraw (m + e))
    (hstop : ¬s.CanDraw (m + d)) :
    ∃ w1, SplitWritten s m x (d / (s.cfgNat CfgReg.shareK - 1)) (commit s w1) ∧ w1.Drawn s (m + d) ∧
      s.splitLoop x (s.cfgNat CfgReg.secretLen) 0 w = (w1, .error w1.drawStop) := by
  have hd' : d < s.cfgNat CfgReg.secretLen * (s.cfgNat CfgReg.shareK - 1) := hd
  have hk : 0 < s.cfgNat CfgReg.shareK - 1 := Nat.pos_of_ne_zero fun h0 => by rw [h0] at hd'; omega
  have hq : d / (s.cfgNat CfgReg.shareK - 1) < s.cfgNat CfgReg.secretLen := (Nat.div_lt_iff_lt_mul hk).2 hd'
  have hsplit := Nat.div_add_mod' d (s.cfgNat CfgReg.shareK - 1)
  obtain ⟨w1, h1, hdrawn1, hloop⟩ := splitLoop_turns hstart hdrawn _ hq.le fun e he => hcan e (by omega)
  obtain ⟨w2, hmany, hmem, hdrawn2⟩ := hdrawn1.drawMany_stops (Nat.mod_lt d hk)
    (fun e he => by rw [Nat.add_assoc]; exact hcan _ (by omega)) (by rwa [Nat.add_assoc, hsplit])
  rw [Nat.add_assoc, hsplit] at hdrawn2
  obtain ⟨n, hn⟩ := Nat.exists_eq_add_of_lt hq
  refine ⟨w2, h1.of_dmem hmem, hdrawn2, ?_⟩
  rw [hn, Nat.add_assoc, hloop, State.splitLoop, splitBytes, hmany]

end Loop

/-! ### How SPLIT ends -/

/-- SPLIT's work once gen_x has given its x-coordinates. -/
theorem splitRun_of_genX (hc : splitChecks s = none)
    (hx : genX s (Work.ofState s) = (w, .ok ((List.range (s.cfgNat CfgReg.shareN)).map x))) :
    splitRun s = s.splitLoop x (s.cfgNat CfgReg.secretLen) 0 (w.writeColumn s 0 x) := by
  simp only [splitRun, hc, hx]
  rfl

section Ready

variable (h : SplitReady s)
include h

theorem splitChecks_of_splitReady : splitChecks s = none := by
  obtain ⟨hmode, hshape, hregions, hpoints⟩ := h
  exact splitChecks_eq_none.2 ⟨hmode, hshape, hregions, fun h1 => (hpoints h1).1⟩

variable (hx : XsDrawn s m)
include hx

/-- SPLIT whose draws all find their bytes retires with the whole share set written. -/
theorem execSplit_completes (hcan : ∀ d < m + s.splitDraws, s.CanDraw d) :
    ∃ w, SplitWritten s m (s.splitX m) (s.cfgNat CfgReg.secretLen) (retire (commit s w)) ∧
      w.Drawn s (m + s.splitDraws) ∧ execSplit s = .next (retire (commit s w)) := by
  obtain ⟨w, hdrawn, hmem, hgen⟩ := genX_completes h hx fun d hd => hcan d (by omega)
  obtain ⟨w1, h1, hdrawn1, hloop⟩ := splitLoop_completes (splitWritten_start hmem) (hdrawn.writeStrided _ _ _)
    fun d hd => hcan (m + d) (by omega)
  refine ⟨w1, h1.of_dmem rfl, hdrawn1, ?_⟩
  rw [execSplit, splitRun_of_genX (splitChecks_of_splitReady h) hgen, hloop]
  rfl

/-- SPLIT whose coefficient draw `d` is the first beyond DMEM records the error with what it wrote before (R455). -/
theorem execSplit_coefficientError (hs : s.rngFromDmem = true) {d : Nat} (hd : d < s.splitDraws)
    (hdraws : DmemDraws s (m + d)) (hbeyond : s.params.dmemSize ≤ s.rngAddr (m + d)) :
    ∃ w, SplitWritten s m (s.splitX m) (d / (s.cfgNat CfgReg.shareK - 1)) (commit s w) ∧
      w.Drawn s (m + d) ∧ execSplit s = .next (raise (.rng w.rngPtr) (commit s w)) := by
  have hcan (e : Nat) (he : e < m + d) : s.CanDraw e := (canDraw_dmem hs e).2 (hdraws e he)
  obtain ⟨w, hdrawn, hmem, hgen⟩ := genX_completes h hx fun e he => hcan e (by omega)
  obtain ⟨w1, h1, hdrawn1, hloop⟩ := splitLoop_stops (splitWritten_start hmem) (hdrawn.writeStrided _ _ _) hd
    (fun e he => hcan (m + e) (by omega)) (by rw [canDraw_dmem hs]; omega)
  refine ⟨w1, h1, hdrawn1, ?_⟩
  rw [execSplit, splitRun_of_genX (splitChecks_of_splitReady h) hgen, hloop, Work.drawStop,
    if_pos (hdrawn1.source.trans hs)]
  rfl

end Ready

/-- SPLIT whose draw `d` for an x-coordinate is the first beyond DMEM records the error, DMEM unchanged (R455). -/
theorem execSplit_coordinateError (h : SplitReady s) (h2 : s.xmode = 2) (hs : s.rngFromDmem = true) {d : Nat}
    (hmore : ∀ r ≤ d, (s.xsFound r).length < s.cfgNat CfgReg.shareN) (hdraws : DmemDraws s d)
    (hbeyond : s.params.dmemSize ≤ s.rngAddr d) :
    ∃ w, w.dmem = s.dmem ∧ w.Drawn s d ∧ execSplit s = .next (raise (.rng w.rngPtr) (commit s w)) := by
  have hfuel : d < drawFuel (Work.ofState s) := by
    by_contra hge
    have hpow : 2 ^ 20 ≤ drawFuel (Work.ofState s) := Nat.le_add_right ..
    have hagain : s.rngAddr (d - 2 ^ 20) = s.rngAddr d := by simp only [State.rngAddr]; omega
    have hinside := hdraws (d - 2 ^ 20) (by omega)
    omega
  obtain ⟨w, hdrawn, hmem, hgen⟩ := genX_stops h2 hfuel hmore (fun r hr => (canDraw_dmem hs r).2 (hdraws r hr))
    (by rw [canDraw_dmem hs]; omega)
  have hrun : splitRun s = (w, .error w.drawStop) := by
    simp only [splitRun, splitChecks_of_splitReady h, hgen]
  refine ⟨w, hmem, hdrawn, ?_⟩
  rw [execSplit, hrun, Work.drawStop, if_pos (hdrawn.source.trans hs)]
  rfl

theorem Work.Drawn.retires {d : Nat} (h : w.Drawn s d) : Retires s (retire (commit s w)) :=
  ComputesFrom.retires rfl h.powerUp

/-- The error of a draw beyond DMEM names the draw's address (R412, R452). -/
theorem Work.Drawn.rng_recorded {d : Nat} (h : w.Drawn s d) (hs : s.rngFromDmem = true) :
    ErrorRecorded 5 3 (s.rngAddr d) s (raise (.rng w.rngPtr) (commit s w)) := by
  have hptr : w.rngPtr.toNat = s.rngAddr d := by rw [h.rngPtr, if_pos hs]
  refine raise_commit_recorded h.powerUp rfl ?_
  rw [← hptr]
  exact toNat_errInfoWord (by decide) (by omega)

/-! ### The obligations -/

/-- With the entropy port the coefficients of secret byte `j` are the port's next K - 1 bytes (R413). -/
theorem splitPoly_entropy (hs : s.rngFromDmem = false) (t : State)
    (hbytes : m + (j + 1) * (s.cfgNat CfgReg.shareK - 1) ≤ s.entropy.length) :
    s.splitPoly t m j = s.splitSees t j (s.cfgNat CfgReg.secretBase + j) ::
      (s.entropy.drop (m + j * (s.cfgNat CfgReg.shareK - 1))).take (s.cfgNat CfgReg.shareK - 1) := by
  rw [Nat.succ_mul] at hbytes
  simp only [State.splitPoly, hs, Bool.false_eq_true, if_false, List.cons.injEq, true_and]
  refine List.ext_getElem (by simp; omega) fun e he _ => ?_
  simp only [List.length_map, List.length_range] at he
  simp only [List.getElem_map, List.getElem_range, List.getElem_take, List.getElem_drop, Nat.add_assoc]
  exact List.getD_eq_getElem _ _ (by omega)

/-- Settles O32: with the entropy port RNG_PTR stays, and the polynomials are those of the port's bytes. -/
theorem splitFromEntropyCompletes : Obligations.SplitFromEntropyCompletes := by
  intro s m h hx hs hbytes n k l sb hb
  obtain ⟨w, hw, hdrawn, hnext⟩ := execSplit_completes h hx fun d hd => (canDraw_entropy hs d).2 (by omega)
  refine ⟨_, hnext, hdrawn.retires, hw.xBytes, fun j hj i hi => ?_, ?_, hw.outside, fun _ => rfl,
    readCfg_commit_same (hdrawn.rngPtr_entropy hs)⟩
  · have hdraws : (j + 1) * (s.cfgNat CfgReg.shareK - 1) ≤ s.splitDraws := Nat.mul_le_mul_right _ hj
    rw [hw.yBytes j hj i hi, splitPoly_entropy hs _ (by omega)]
    rfl
  · rw [retire_entropy, commit_entropy, hdrawn.entropy, hs]; rfl

/-- Settles O33: with the DMEM stream RNG_PTR is the address of the draw that would come next. -/
theorem splitFromDmemCompletes : Obligations.SplitFromDmemCompletes := by
  intro s m h hx hs hdraws
  obtain ⟨w, hw, hdrawn, hnext⟩ := execSplit_completes h hx fun d hd => (canDraw_dmem hs d).2 (hdraws d hd)
  refine ⟨_, hnext, hdrawn.retires, hw.xBytes, hw.yBytes, hdrawn.cfgNat_rngPtr hs, hw.outside, fun _ => rfl,
    fun c hc => readCfg_commit_other s w hc, ?_⟩
  rw [retire_entropy, commit_entropy, hdrawn.entropy, if_pos hs]

/-- Settles O35: the draw that fails changes nothing, so what the draws before it led to stands. -/
theorem splitDrawErrorKeepsEarlierWrites : Obligations.SplitDrawErrorKeepsEarlierWrites := by
  refine ⟨fun s m d h hx hs hd hdraws hbeyond => ?_, fun s d h h2 hs hmore hdraws hbeyond => ?_⟩
  · obtain ⟨w, hw, hdrawn, hnext⟩ := execSplit_coefficientError h hx hs hd hdraws hbeyond
    refine ⟨_, hnext, hdrawn.rng_recorded hs, hdrawn.cfgNat_rngPtr hs, hw.xBytes, fun i hi j hj => hw.yBytes j hj i hi,
      fun i hi j hj hlater => hw.unwritten _ ?_, hw.outside, fun _ => rfl, fun c hc => readCfg_commit_other s w hc, ?_⟩
    · rw [inColumns_yaddr hi hj]; omega
    · rw [raise_entropy, commit_entropy, hdrawn.entropy, if_pos hs]
  · obtain ⟨w, hmem, hdrawn, hnext⟩ := execSplit_coordinateError h h2 hs hmore hdraws hbeyond
    refine ⟨_, hnext, hdrawn.rng_recorded hs, hdrawn.cfgNat_rngPtr hs, fun a => ?_, fun _ => rfl,
      fun c hc => readCfg_commit_other s w hc, ?_⟩
    · rw [raise_dmem, commit_dmem, hmem]
    · rw [raise_entropy, commit_entropy, hdrawn.entropy, if_pos hs]

end Sys2Proof.Machine
end

section
/-! PROOFS. The contracts of SPLIT (R354) and JOIN (R358): the shares of a SPLIT that retired lie on one polynomial per
secret byte, so a JOIN of K of them interpolates its constant term. -/

namespace Sys2Proof.Machine

variable {s t : State} {m : Nat} {x : Nat → Byte} {w : Work}

/-! ### A SPLIT that retired -/

/-- A command that worked on DMEM and retired did all its work: an error and a wait leave CPC (R456). -/
theorem finish_advanced {r : Work × Except Stop Unit} (h : finish s r = .next t) (hadv : Advanced s t) :
    r.2 = .ok () ∧ t = retire (commit s r.1) := by
  have hcpc : t.cpc ≠ s.cpc := fun heq => by
    have hmoved := hadv.1
    have hlt := s.cpc.isLt
    rw [heq] at hmoved; omega
  rcases finish_cases s r with ⟨hok, hr⟩ | ⟨e, -, hr⟩ | ⟨-, hr⟩ <;> cases hr.symm.trans h
  · exact ⟨hok, rfl⟩
  · exact absurd rfl hcpc
  · exact absurd rfl hcpc

/-- SPLIT's work ends without a stop only after its checks and gen_x. -/
theorem splitRun_ok (h : (splitRun s).2 = .ok ()) :
    splitChecks s = none ∧ ∃ w xs, genX s (Work.ofState s) = (w, .ok xs) := by
  unfold splitRun at h
  cases hc : splitChecks s with
  | some e => simp [hc] at h
  | none =>
    cases hx : genX s (Work.ofState s) with
    | mk w r => cases r with
      | error e => simp [hc, hx] at h
      | ok xs => exact ⟨rfl, w, xs, rfl⟩

/-- The loop that ends without a stop has written the whole share set: no draw of it found no byte. -/
theorem splitLoop_ok (hstart : SplitWritten s m x 0 (commit s w)) (hdrawn : w.Drawn s m)
    (h : (s.splitLoop x (s.cfgNat CfgReg.secretLen) 0 w).2 = .ok ()) :
    SplitWritten s m x (s.cfgNat CfgReg.secretLen)
      (commit s (s.splitLoop x (s.cfgNat CfgReg.secretLen) 0 w).1) := by
  classical
  by_cases hcan : ∀ d < s.splitDraws, s.CanDraw (m + d)
  · obtain ⟨w1, h1, -, hloop⟩ := splitLoop_completes hstart hdrawn hcan
    rwa [hloop]
  · have hstop : ∃ d, d < s.splitDraws ∧ ¬s.CanDraw (m + d) := by push Not at hcan; exact hcan
    obtain ⟨hd, hfirst⟩ := Nat.find_spec hstop
    obtain ⟨w1, -, -, hloop⟩ := splitLoop_stops hstart hdrawn hd
      (fun e he => by_contra fun hne => Nat.find_min hstop he ⟨he.trans hd, hne⟩) hfirst
    rw [hloop] at h
    cases h

/-- A SPLIT that retired passed its checks and wrote its whole share set at distinct nonzero x-coordinates. -/
theorem execSplit_advanced (h : execSplit s = .next t) (hadv : Advanced s t) :
    ShapeReady s ∧ ∃ m x, DistinctNonzero (s.cfgNat CfgReg.shareN) x ∧
      SplitWritten s m x (s.cfgNat CfgReg.secretLen) t := by
  obtain ⟨hok, rfl⟩ := finish_advanced h hadv
  obtain ⟨hc, w, xs, hgen⟩ := splitRun_ok hok
  obtain ⟨-, hshape, -, -⟩ := splitChecks_eq_none.1 hc
  have ⟨_, _, hn, _⟩ := hshape
  obtain ⟨hnodup, h0, m, hdrawn⟩ := genX_ok hn hgen
  have hmem : w.dmem = s.dmem := by
    have hframe := genX_frame s (Work.ofState s)
    rwa [hgen] at hframe
  have hxs := map_getD_range (genX_length hgen)
  have hpass : checkPoints true xs = none := checkPoints_eq_none.2 ⟨fun _ y hy hy0 => h0 (hy0 ▸ hy), hnodup⟩
  obtain ⟨hnonzero, hdistinct⟩ := checkPoints_range_eq_none.1 (hxs.symm ▸ hpass)
  rw [← hxs] at hgen
  rw [splitRun_of_genX hc hgen] at hok ⊢
  exact ⟨hshape, m, fun i => xs.getD i 0, ⟨hnonzero rfl, hdistinct⟩,
    (splitLoop_ok (splitWritten_start hmem) (hdrawn.writeStrided _ _ _) hok).of_dmem rfl⟩

theorem length_splitPoly (hk : 1 ≤ s.cfgNat CfgReg.shareK) (j : Nat) :
    (s.splitPoly t m j).length = s.cfgNat CfgReg.shareK := by
  simp only [State.splitPoly, List.length_cons, List.length_map, List.length_range]; omega

/-- SPLIT reads the old secret byte where the secret is apart from the share set. -/
theorem splitSees_secret (hapart : SecretApart s) {j : Nat} (hj : j < s.cfgNat CfgReg.secretLen) :
    s.splitSees t j (s.cfgNat CfgReg.secretBase + j) = s.dmem.read (s.cfgNat CfgReg.secretBase + j) :=
  splitSees_of_not_inColumns fun ⟨hlo, hhi, _⟩ => by omega

/-- Settles O34: the polynomial of secret byte j is the one SPLIT evaluates. -/
theorem splitSharesLieOnOnePolynomial : Obligations.SplitSharesLieOnOnePolynomial := by
  intro s t h hadv
  obtain ⟨⟨hk, -⟩, m, x, ⟨hnonzero, hdistinct⟩, hw⟩ := execSplit_advanced h hadv
  refine ⟨⟨fun i hi h0 => hnonzero i hi ((hw.xBytes i hi).symm.trans h0), fun i hi i' hi' heq =>
    hdistinct i hi i' hi' ((hw.xBytes i' (hi'.trans hi)).symm.trans (heq.trans (hw.xBytes i hi)))⟩,
    fun j hj => ⟨s.splitPoly t m j, length_splitPoly hk j, fun i hi => ?_,
      fun hapart => congrArg some (splitSees_secret hapart hj)⟩⟩
  rw [hw.yBytes j hj i hi, hw.xBytes i hi]

/-! ### JOIN after SPLIT -/

/-- JOIN whose secret is apart from its shares interpolates the y-values it started with. -/
theorem joinByte_of_apart {j : Nat} (hshape : ShapeReady s) (hapart : SecretApart s)
    (hj : j < s.cfgNat CfgReg.secretLen) : s.joinByte t j = lagrange0 (s.shareXs (s.cfgNat CfgReg.shareK))
      ((List.range (s.cfgNat CfgReg.shareK)).map fun i => s.dmem.read (s.yaddr i j)) := by
  obtain ⟨-, hkn, -⟩ := hshape
  refine congrArg (lagrange0 _) (List.map_congr_left fun i hi => if_neg fun ⟨hlo, hhi⟩ => ?_)
  have hi : i < s.cfgNat CfgReg.shareN := (List.mem_range.1 hi).trans_le hkn
  obtain ⟨hlo', hhi', -⟩ : s.InColumns (j + 1) (s.yaddr i j) := (inColumns_yaddr hi hj).2 (Nat.lt_succ_self j)
  omega

/-- Settles O38: the shares JOIN reads lie on SPLIT's polynomial, whose constant term their interpolation recovers. -/
theorem joinRecoversWhatSplitShared : Obligations.JoinRecoversWhatSplitShared := by
  intro s t u idx hsplit hadv hapart hready hapartU hlen hk hshares
  obtain ⟨-, hpoly⟩ := splitSharesLieOnOnePolynomial s t hsplit hadv
  obtain ⟨v, hjoin, hret, hbytes, -⟩ := joinCompletes u hready
  obtain ⟨hshape, -, hnonzero, hdistinct⟩ := hready
  refine ⟨v, hjoin, hret, fun j hj => ?_⟩
  obtain ⟨c, hclen, hvalues, hhead⟩ := hpoly j (hlen ▸ hj)
  obtain ⟨c', rfl⟩ := List.head?_eq_some_iff.1 (hhead hapart)
  have hnodup : (u.shareXs (u.cfgNat CfgReg.shareK)).Nodup := by
    obtain ⟨-, hkn, -⟩ := hshape
    have hpass : checkPoints true (u.shareXs (u.cfgNat CfgReg.shareK)) = none :=
      checkPoints_range_eq_none.2
        ⟨fun _ i hi => hnonzero i (hi.trans_le hkn), fun i hi => hdistinct i (hi.trans_le hkn)⟩
    exact (checkPoints_eq_none.1 hpass).2
  have hys : (List.range (u.cfgNat CfgReg.shareK)).map (fun i => u.dmem.read (u.yaddr i j)) =
      (u.shareXs (u.cfgNat CfgReg.shareK)).map (peval (s.dmem.read (s.cfgNat CfgReg.secretBase + j) :: c')) := by
    rw [State.shareXs, List.map_map]
    refine List.map_congr_left fun i hi => ?_
    obtain ⟨hidx, hxi, hyi⟩ := hshares i (List.mem_range.1 hi)
    rw [hyi j hj, hvalues _ hidx, Function.comp_apply, hxi]
  calc v.dmem.read (u.cfgNat CfgReg.secretBase + j)
      = u.joinByte v j := hbytes j hj
    _ = lagrange0 (u.shareXs (u.cfgNat CfgReg.shareK)) _ := (joinByte_of_apart hshape hapartU hj).trans (by rw [hys])
    _ = s.dmem.read (s.cfgNat CfgReg.secretBase + j) := lagrangeRecoversTheConstantTerm _ _ _ hnodup (by
        rw [List.length_cons] at hclen
        simp only [State.shareXs, List.length_map, List.length_range]; omega)

end Sys2Proof.Machine
end

section
/-! PROOFS. Data transfer and control (R404 to R408): what each command does when it completes, and that the engine's step
is the command the bytes at CPC decode to (R400, R401). -/

namespace Sys2Proof.Machine

variable {s : State}

/-! ### Loads and stores (R404, R405) -/

theorem execGflb_inside {addr20 : Addr} (h : addr20.toNat < s.params.dmemSize) (rd : RegNum) :
    execGflb rd addr20 s = writeResult rd (s.dmem.read addr20.toNat) s :=
  if_neg (Nat.not_le_of_lt h)

/-- Settles O18: GFLB inside DMEM is the write of the byte read. -/
theorem gflbLoadsTheByte : Obligations.GflbLoadsTheByte := fun _ rd _ h =>
  writeResult_completes (execGflb_inside h rd)

/-- GFSB inside DMEM retires with its one write put back (R405). -/
theorem execGfsb_inside {addr20 : Addr} (h : addr20.toNat < s.params.dmemSize) (rs : RegNum) :
    execGfsb rs addr20 s = retired (commit s ((Work.ofState s).write addr20.toNat (s.readF rs))) := by
  have hrun : gfsbRun rs addr20 s = ((Work.ofState s).write addr20.toNat (s.readF rs), .ok ()) :=
    if_neg (Nat.not_le_of_lt h)
  rw [execGfsb, hrun]; rfl

/-- Settles O19: the work GFSB puts back is one DMEM write, which leaves RNG_PTR. -/
theorem gfsbStoresTheByte : Obligations.GfsbStoresTheByte := by
  intro s rs addr20 h
  refine ⟨_, execGfsb_inside h rs, ComputesFrom.retires rfl rfl, Dmem.read_write_same .., fun a ha => ?_, fun _ => rfl,
    readCfg_commit_same (w := (Work.ofState s).write addr20.toNat (s.readF rs)) rfl, rfl⟩
  exact Dmem.read_write_other _ _ (by omega)

/-! ### SETCFG (R406) -/

theorem execSetcfg_defined {cfg : BitVec 4} {c : CfgReg} (h : cfg.toNat = c.val) (imm20 : Addr) :
    execSetcfg cfg imm20 s = retired (s.writeCfg c imm20) := by
  have hlt : cfg.toNat < 12 := h ▸ c.isLt
  have hc : (⟨cfg.toNat, hlt⟩ : CfgReg) = c := Fin.ext h
  rw [execSetcfg, dif_pos hlt, hc]

/-- Settles O20: SETCFG is one configuration write, and `cfgKept` says what MODE keeps of it. -/
theorem setcfgWritesTheRegister : Obligations.SetcfgWritesTheRegister := by
  intro s cfg imm20 c h
  refine ⟨_, execSetcfg_defined h imm20, ComputesFrom.retires rfl rfl, ?_,
    fun _ hne => readCfg_writeCfg_other s imm20 hne, fun _ => rfl, fun _ => rfl, rfl⟩
  rw [readCfg_retire, readCfg_writeCfg_same, cfgKept_toNat]
  split_ifs
  · rfl
  · exact Nat.mod_eq_of_lt imm20.isLt

/-! ### NOP and HALT (R407, R408) -/

/-- Retirement moves CPC and CMDRET only (R402). -/
theorem retire_untouched (s : State) : Untouched s (retire s) := ⟨fun _ => rfl, fun _ => rfl, fun _ => rfl, rfl⟩

/-- Settles O21: NOP is retirement. -/
theorem nopOnlyRetires : Obligations.NopOnlyRetires :=
  ⟨by decide, fun s => ⟨_, rfl, ComputesFrom.retires rfl rfl, retire_untouched s⟩⟩

/-- Settles O22: HALT is retirement, then DONE and IDLE; with DONE set irq is IE. -/
theorem haltEndsTheRun : Obligations.HaltEndsTheRun := by
  refine ⟨by decide, fun s => ⟨_, rfl, advanced_retire (u := s) rfl rfl, rfl, rfl, rfl, ?_, ⟨rfl, rfl, rfl, rfl⟩,
    ⟨rfl, rfl, rfl, rfl, rfl⟩, retire_untouched s⟩⟩
  exact Bool.and_true s.ie

/-! ### The engine's step (R400, R401) -/

theorem engineStep_of_idle (h : s.phase = .idle) : engineStep s = .next s := by rw [engineStep, h]

theorem engineStep_of_run (h : s.phase = .run) : engineStep s = cycle s := by rw [engineStep, h]

/-- With no turn listed the engine moves (log entry 2). -/
theorem step_eq_engineStep (hl : s.params.Legal) (ht : s.turns = []) : step s = engineStep s := by
  rw [step, if_pos hl, move, ht]

/-- Settles O5: the word fetched is the four bytes at CPC, lowest address first. -/
theorem stepRunsTheDecodedCommand : Obligations.StepRunsTheDecodedCommand := by
  intro s hl ht
  refine ⟨fun hidle => (step_eq_engineStep hl ht).trans (engineStep_of_idle hidle), fun i hrun hin hdec => ?_⟩
  have hword : decode (s.dmem.readWord s.cpc.toNat) = .ok i := hdec
  have hfetch : fetchDecode s = .ok i := by rw [fetchDecode_inside hin, hword]; rfl
  exact (step_eq_cycle hl ht hrun).trans (cycle_of_ok hfetch)

end Sys2Proof.Machine
end

section
/-! PROOFS. The waits of PRAND and SPLIT for entropy bytes (R413, R414), and SPLIT's endless draws (93 U3): the loops stop
at the first draw that finds no byte, and a step that stops so leaves the state as it is (log entries 4 and 8). -/

namespace Sys2Proof.Machine

variable {s : State} {w : Work} {d m : Nat}

/-! ### The command in flight -/

/-- The work of the command in flight, where there is one. -/
theorem inFlight_of_ok {i : Instr} (hrun : s.phase = .run) (hfetch : fetchDecode s = .ok i) :
    inFlight s = workOf i s := by
  rw [inFlight, hrun, hfetch]

theorem rngReady_of_waits (h : (inFlight s).2 = .error .waitEntropy) :
    rngReady s = Config.rngReadyWaiting s.cmdret s.entropy.length := by
  rw [rngReady, h]

/-! ### PRAND -/

/-- A draw from an entropy port whose bytes have all been taken waits (R413). -/
theorem PrandDrawn.draw_waits {rs1 : RegNum} (h : PrandDrawn s rs1 d w) (hs : s.rngFromDmem = false)
    (hd : s.entropy.length ≤ d) : w.draw = .error .waitEntropy := by
  have hsource : w.fromDmem = false := h.source.trans hs
  have hempty : w.entropy = [] := by rw [h.entropy, hs]; exact List.drop_eq_nil_of_le hd
  rw [Work.draw, hsource, hempty]; rfl

/-- PRAND takes all the bytes there are, then waits for the one that is missing. -/
theorem prandRun_waits (rs1 : RegNum) (h : PolyReady s) (hs : s.rngFromDmem = false)
    (hfew : s.entropy.length < s.cfgNat CfgReg.polyLen - 1) : ∃ w, prandRun rs1 s = (w, .error .waitEntropy) := by
  obtain ⟨w, hw, hloop⟩ := drawInto_prandDrawn (rs1 := rs1) s.entropy.length fun k hk => (canDraw_entropy hs k).2 hk
  obtain ⟨n, hn⟩ := Nat.exists_eq_add_of_lt hfew
  refine ⟨w, ?_⟩
  simp only [prandRun, polyChecks_of_ready h, hn]
  rw [← prandStart, Nat.add_assoc, drawInto_append hloop, drawInto_stop (hw.draw_waits hs le_rfl)]

/-- Settles O27: PRAND's work ends in the wait, in its step and in flight. -/
theorem prandWaitsForEntropy : Obligations.PrandWaitsForEntropy := by
  intro s rs1 h hs hfew
  obtain ⟨w, hrun⟩ := prandRun_waits rs1 h hs hfew
  refine ⟨?_, fun hphase hfetch => rngReady_of_waits ?_⟩
  · rw [exec, execPrand, hrun]; rfl
  · rw [inFlight_of_ok hphase hfetch, workOf, hrun]

/-! ### SPLIT -/

/-- A SPLIT that waits, or draws for ever, leaves the state as it is (R414). -/
theorem execSplit_of_hang {e : Stop} (h : splitRun s = (w, .error e)) (he : e = .waitEntropy ∨ e = .drawsForever) :
    execSplit s = .next s := by
  rw [execSplit, h]
  rcases he with rfl | rfl <;> rfl

/-- With the entropy port a draw that finds no byte waits (R413). -/
theorem Work.Drawn.drawStop_entropy (h : w.Drawn s d) (hs : s.rngFromDmem = false) : w.drawStop = .waitEntropy := by
  rw [Work.drawStop, h.source, hs]; rfl

theorem splitRun_of_genX_error (h : SplitReady s) {e : Stop} (hx : genX s (Work.ofState s) = (w, .error e)) :
    splitRun s = (w, .error e) := by
  simp only [splitRun, splitChecks_of_splitReady h, hx]

/-- SPLIT whose x-coordinates are found waits for the first coefficient byte that is missing. -/
theorem splitRun_waits_for_coefficient (h : SplitReady s) (hx : XsDrawn s m) (hs : s.rngFromDmem = false)
    (hxs : m ≤ s.entropy.length) (hfew : s.entropy.length < m + s.splitDraws) :
    ∃ w, splitRun s = (w, .error .waitEntropy) := by
  obtain ⟨w, hdrawn, hmem, hgen⟩ := genX_completes h hx fun e he => (canDraw_entropy hs e).2 (by omega)
  obtain ⟨w1, -, hdrawn1, hloop⟩ := splitLoop_stops (d := s.entropy.length - m) (splitWritten_start hmem)
    (hdrawn.writeStrided _ _ _) (by omega) (fun e he => (canDraw_entropy hs _).2 (by omega))
    (by rw [canDraw_entropy hs]; omega)
  exact ⟨w1, by rw [splitRun_of_genX (splitChecks_of_splitReady h) hgen, hloop, hdrawn1.drawStop_entropy hs]⟩

/-- More bytes give no fewer x-coordinates (R352). -/
theorem distinctNonzero_prefix (l r : List Byte) : distinctNonzero l <+: distinctNonzero (l ++ r) := by
  induction r using List.reverseRecOn with
  | nil => rw [List.append_nil]
  | append_singleton r b ih =>
    rw [← List.append_assoc, distinctNonzero_concat]
    split_ifs
    · exact ih
    · exact ih.trans (List.prefix_append _ _)

/-- More draws give no fewer x-coordinates (R352). -/
theorem length_xsFound_mono {d d' : Nat} (h : d ≤ d') : (s.xsFound d).length ≤ (s.xsFound d').length := by
  obtain ⟨r, hr⟩ : s.randomBytes d <+: s.randomBytes d' := by
    unfold State.randomBytes
    split_ifs
    · obtain ⟨k, rfl⟩ := Nat.exists_eq_add_of_le h
      rw [List.range_add, List.map_append]
      exact List.prefix_append _ _
    · exact List.take_prefix_take_left h
  rw [State.xsFound, State.xsFound, ← hr]
  exact (distinctNonzero_prefix _ _).length_le

/-- SPLIT with XMODE 2 waits for a byte when those there hold too few x-coordinates. -/
theorem splitRun_waits_for_coordinate (h : SplitReady s) (h2 : s.xmode = 2) (hs : s.rngFromDmem = false)
    (hfew : (distinctNonzero s.entropy).length < s.cfgNat CfgReg.shareN) :
    ∃ w, splitRun s = (w, .error .waitEntropy) := by
  have hall : s.xsFound s.entropy.length = distinctNonzero s.entropy := by
    rw [State.xsFound, State.randomBytes, hs]; simp
  have hfuel : s.entropy.length < drawFuel (Work.ofState s) := Nat.lt_add_of_pos_left (by decide)
  obtain ⟨w, hdrawn, -, hgen⟩ := genX_stops h2 hfuel
    (fun r hr => (length_xsFound_mono hr).trans_lt (hall ▸ hfew)) (fun r hr => (canDraw_entropy hs r).2 hr)
    (by rw [canDraw_entropy hs]; omega)
  exact ⟨w, by rw [splitRun_of_genX_error h hgen, hdrawn.drawStop_entropy hs]⟩

/-- SPLIT with XMODE 2 draws for ever from a DMEM whose every address holds a byte of the stream, when those bytes hold too
few x-coordinates (93 U3). -/
theorem splitRun_draws_for_ever (h : SplitReady s) (h2 : s.xmode = 2) (hs : s.rngFromDmem = true)
    (hsize : s.params.dmemSize = 2 ^ 20)
    (hfew : (distinctNonzero (s.randomBytes (2 ^ 20))).length < s.cfgNat CfgReg.shareN) :
    ∃ w, splitRun s = (w, .error .drawsForever) := by
  have hcan (d : Nat) : s.CanDraw d := by
    rw [canDraw_dmem hs, hsize]; exact Nat.mod_lt _ (by decide)
  have hmore (d : Nat) : (s.xsFound d).length < s.cfgNat CfgReg.shareN := by
    rcases Nat.le_total d (2 ^ 20) with hle | hge
    · exact (length_xsFound_mono hle).trans_lt hfew
    · rw [xsFound_of_ge hs hge]; exact hfew
  obtain ⟨w, -, -, hloop⟩ := drawDistinct_turns (drawFuel (Work.ofState s)) (fun d _ => hcan d) fun d _ => hmore d
  obtain ⟨need, hneed⟩ := Nat.exists_eq_add_of_lt (hmore (drawFuel (Work.ofState s)))
  have hleft : s.cfgNat CfgReg.shareN - (s.xsFound (drawFuel (Work.ofState s))).length = need + 1 := by omega
  have hend := hloop 0
  rw [Nat.zero_add, hleft, drawDistinct] at hend
  exact ⟨w, splitRun_of_genX_error h ((genX_of_xmode_two h2 _).trans hend)⟩

/-- Settles O36: SPLIT's work ends in the wait for a coefficient or for an x-coordinate, or at the bound on its draws. -/
theorem splitWaitsOrDrawsForEver : Obligations.SplitWaitsOrDrawsForEver := by
  intro s h
  refine ⟨fun m hx hs hxs hfew => ?_, fun h2 hs hfew => ?_, fun h2 hs hsize hfew => ?_⟩
  · obtain ⟨w, hrun⟩ := splitRun_waits_for_coefficient h hx hs hxs hfew
    exact execSplit_of_hang hrun (.inl rfl)
  · obtain ⟨w, hrun⟩ := splitRun_waits_for_coordinate h h2 hs hfew
    exact execSplit_of_hang hrun (.inl rfl)
  · obtain ⟨w, hrun⟩ := splitRun_draws_for_ever h h2 hs hsize hfew
    exact execSplit_of_hang hrun (.inr rfl)

end Sys2Proof.Machine
end

section
/-! PROOFS. The work of a command (R131, R411 to R413) is made of DMEM writes, and for PRAND and SPLIT of draws. What that
means for the entropy bytes, for rng_ready and for what no command reaches follows once for every command; so do the ways a
run ends (R400, R408, R456). -/

namespace Sys2Proof.Machine

variable {i : Instr} {s t : State} {w : Work}

/-! ### What a command's work is made of -/

/-- The commands that draw random bytes (R411). -/
def Draws (i : Instr) : Prop := i = .split ∨ ∃ rs1, i = .prand rs1

/-- `w` is a work of command `i` started in `s`: DMEM writes have been made, and draws if `i` is one that draws. -/
inductive Work.Made (i : Instr) (s : State) : Work → Prop
  | start : Made i s (Work.ofState s)
  | write {w : Work} (h : Made i s w) (a : Nat) (b : Byte) : Made i s (w.write a b)
  | draw {w w1 : Work} {b : Byte} (h : Made i s w) (hi : Draws i) (hd : w.draw = .ok (b, w1)) : Made i s w1

/-- Command `i` started in `s` takes its random bytes from the entropy port (R411). -/
def TakesEntropy (i : Instr) (s : State) : Prop := Draws i ∧ s.rngFromDmem = false

/-- A draw from DMEM leaves the entropy port alone (R412). -/
theorem Work.draw_entropy_of_dmem {w1 : Work} {b : Byte} (h : w.draw = .ok (b, w1)) (hs : w.fromDmem = true) :
    w1.entropy = w.entropy := by
  rcases w.draw_cases with ⟨-, -, hd⟩ | ⟨-, -, hd⟩ | ⟨hf, -, -⟩ | ⟨_, _, hf, -, -⟩
  · cases hd.symm.trans h
  · cases hd.symm.trans h; rfl
  · cases hf.symm.trans hs
  · cases hf.symm.trans hs

/-- A draw takes at most the first byte of the entropy port (R413). -/
theorem Work.draw_entropy_suffix {w1 : Work} {b : Byte} (h : w.draw = .ok (b, w1)) : w1.entropy <:+ w.entropy := by
  rcases w.draw_cases with ⟨-, -, hd⟩ | ⟨-, -, hd⟩ | ⟨-, -, hd⟩ | ⟨c, rest, -, he, hd⟩ <;> cases hd.symm.trans h
  · exact List.suffix_rfl
  · rw [he]; exact List.suffix_cons _ _

namespace Work.Made

theorem powerUp (h : w.Made i s) : w.dmem.powerUp = s.dmem.powerUp := by
  induction h with
  | start => rfl
  | write _ _ _ ih => exact ih
  | draw _ _ hd ih => rw [(Work.draw_frame hd).1, ih]

theorem fromDmem (h : w.Made i s) : w.fromDmem = s.rngFromDmem := by
  induction h with
  | start => rfl
  | write _ _ _ ih => exact ih
  | draw _ _ hd ih => rw [(Work.draw_frame hd).2.2, ih]

theorem entropy_suffix (h : w.Made i s) : w.entropy <:+ s.entropy := by
  induction h with
  | start => exact List.suffix_rfl
  | write _ _ _ ih => exact ih
  | draw _ _ hd ih => exact (Work.draw_entropy_suffix hd).trans ih

theorem entropy_or_tookByte (h : w.Made i s) : w.entropy = s.entropy ∨ w.tookByte = true := by
  induction h with
  | start => exact .inl rfl
  | write _ a b ih => rwa [Work.tookByte_write]
  | @draw w w1 b _ _ hd ih =>
    rw [Work.tookByte_draw hd]
    cases hf : w.fromDmem with
    | true => simpa [Work.draw_entropy_of_dmem hd hf] using ih
    | false => exact .inr (Bool.or_true _)

/-- Only PRAND and SPLIT with RNGSRC = 0 take a byte (R411). -/
theorem takesEntropy_of_tookByte (h : w.Made i s) (ht : w.tookByte = true) : TakesEntropy i s := by
  induction h with
  | start => cases ht
  | write _ a b ih => exact ih (by rwa [Work.tookByte_write] at ht)
  | @draw w w1 b h hi hd ih =>
    rw [Work.tookByte_draw hd, h.fromDmem, Bool.or_eq_true, Bool.not_eq_true'] at ht
    exact ht.elim ih fun hs => ⟨hi, hs⟩

theorem entropy_eq (h : w.Made i s) (hi : ¬TakesEntropy i s) : w.entropy = s.entropy :=
  h.entropy_or_tookByte.resolve_right fun ht => hi (h.takesEntropy_of_tookByte ht)

/-- Strided writes are DMEM writes. -/
theorem writeStrided (h : w.Made i s) (base stride : Nat) (bs : List Byte) : (w.writeStrided base stride bs).Made i s := by
  induction bs generalizing w base with
  | nil => exact h
  | cons b rest ih => exact ih (h.write base b) _

/-- JOIN's loop makes DMEM writes only (R357). -/
theorem joinBytes (h : w.Made i s) (sb hb stride : Nat) (xs : List Byte) (n j : Nat) :
    (joinBytes sb hb stride xs n j w).Made i s := by
  induction n generalizing j w with
  | zero => exact h
  | succ n ih => exact ih (h.write _ _) _

end Work.Made

/-! ### How a command's work stops -/

/-- `r` is how a part of the work of command `i` started in `s` has gone: its accesses are the command's, and where it
waits, it waits for the entropy port. -/
structure PartOf (i : Instr) (s : State) {α : Type} (r : Work × Except Stop α) : Prop where
  made : r.1.Made i s
  waits : r.2 = .error .waitEntropy → TakesEntropy i s

theorem Work.Made.partOf_ok {α : Type} (h : w.Made i s) (x : α) : PartOf i s (w, .ok x) := ⟨h, nofun⟩

theorem Work.Made.partOf_error {α : Type} (h : w.Made i s) (e : CmdError) :
    PartOf i s (α := α) (w, .error (.error e)) := ⟨h, nofun⟩

/-- A draw that finds no byte waits only at the entropy port (R413). -/
theorem Work.Made.partOf_draw {α : Type} (h : w.Made i s) (hi : Draws i) {e : Stop} (hd : w.draw = .error e) :
    PartOf i s (α := α) (w, .error e) := by
  refine ⟨h, fun he => ⟨hi, ?_⟩⟩
  rw [← h.fromDmem]
  rcases w.draw_cases with ⟨-, -, hd'⟩ | ⟨-, -, hd'⟩ | ⟨hf, -, -⟩ | ⟨_, _, hf, -, -⟩
  · cases hd'.symm.trans hd; cases he
  · cases hd'.symm.trans hd
  · exact hf
  · exact hf

/-- A part that stops, stops the whole. -/
theorem PartOf.error {α β : Type} {e : Stop} (h : PartOf i s (α := α) (w, .error e)) :
    PartOf i s (α := β) (w, .error e) :=
  ⟨h.made, fun he => h.waits (congrArg Except.error (Except.error.inj he))⟩

namespace Work.Made

variable (h : w.Made i s) (hi : Draws i)
include h hi

theorem drawMany (n : Nat) : PartOf i s (w.drawMany n) := by
  induction n generalizing w with
  | zero => exact h.partOf_ok []
  | succ n ih =>
    rw [Work.drawMany]
    cases hd : w.draw with
    | error e => exact h.partOf_draw hi hd
    | ok p =>
      have hrest := ih (h.draw hi hd)
      cases hm : p.2.drawMany n with
      | mk w2 r =>
        rw [hm] at hrest
        simp only [hm]
        cases r with
        | error e => exact hrest.error
        | ok bs => exact hrest.made.partOf_ok _

/-- PRAND's loop (R305). -/
theorem drawInto (n a : Nat) : PartOf i s (drawInto n w a) := by
  induction n generalizing w a with
  | zero => exact h.partOf_ok ()
  | succ n ih =>
    rw [Machine.drawInto]
    cases hd : w.draw with
    | error e => exact h.partOf_draw hi hd
    | ok p => exact ih ((h.draw hi hd).write a p.1) _

/-- The draws of gen_x with XMODE 2 (R352). -/
theorem drawDistinct (fuel need : Nat) (xs : List Byte) : PartOf i s (drawDistinct fuel w need xs) := by
  induction fuel generalizing w need xs with
  | zero =>
    cases need with
    | zero => exact h.partOf_ok xs
    | succ need => exact ⟨h, nofun⟩
  | succ fuel ih =>
    cases need with
    | zero => exact h.partOf_ok xs
    | succ need =>
      rw [Machine.drawDistinct]
      cases hd : w.draw with
      | error e => exact h.partOf_draw hi hd
      | ok p =>
        simp only
        split_ifs
        · exact ih (h.draw hi hd) _ _
        · exact ih (h.draw hi hd) _ _

theorem genX : PartOf i s (genX s w) := by
  unfold Machine.genX
  simp only
  split_ifs
  · exact h.partOf_ok _
  · split
    next => exact h.partOf_error _
    next => exact h.partOf_ok _
  · exact h.drawDistinct hi _ _ _

/-- SPLIT's loop (R353). -/
theorem splitBytes (sb hb stride k : Nat) (xs : List Byte) (n j : Nat) :
    PartOf i s (splitBytes sb hb stride k xs n j w) := by
  induction n generalizing j w with
  | zero => exact h.partOf_ok ()
  | succ n ih =>
    rw [Machine.splitBytes]
    have hdraws := h.drawMany hi (k - 1)
    cases hm : w.drawMany (k - 1) with
    | mk w1 r =>
      rw [hm] at hdraws
      cases r with
      | error e => exact hdraws.error
      | ok cs => exact ih (hdraws.made.writeStrided _ _ _) _

end Work.Made

/-! ### The work of each command -/

theorem gfsbRun_partOf (rs : RegNum) (addr20 : Addr) : PartOf (.gfsb rs addr20) s (gfsbRun rs addr20 s) := by
  unfold gfsbRun
  simp only
  split_ifs
  · exact Work.Made.start.partOf_error _
  · exact (Work.Made.start.write _ _).partOf_ok ()

theorem prandRun_partOf (rs1 : RegNum) : PartOf (.prand rs1) s (prandRun rs1 s) := by
  unfold prandRun
  simp only
  split
  next => exact Work.Made.start.partOf_error _
  next => exact (Work.Made.start.write _ _).drawInto (.inr ⟨rs1, rfl⟩) _ _

theorem splitRun_partOf : PartOf .split s (splitRun s) := by
  unfold splitRun
  simp only
  split
  next => exact Work.Made.start.partOf_error _
  next =>
    have hgen := Work.Made.start.genX (s := s) (.inl rfl)
    cases hx : genX s (Work.ofState s) with
    | mk w1 r =>
      rw [hx] at hgen
      cases r with
      | error e => exact hgen.error
      | ok xs => exact (hgen.made.writeStrided _ _ _).splitBytes (.inl rfl) _ _ _ _ _ _ _

theorem joinRun_partOf : PartOf .join s (joinRun s) := by
  unfold joinRun
  simp only
  split
  next => exact Work.Made.start.partOf_error _
  next =>
    split
    next => exact Work.Made.start.partOf_error _
    next => exact (Work.Made.start.joinBytes _ _ _ _ _ _).partOf_ok ()

theorem workOf_partOf (i : Instr) (s : State) : PartOf i s (workOf i s) := by
  cases i with
  | gfsb rs addr20 => exact gfsbRun_partOf rs addr20
  | prand rs1 => exact prandRun_partOf rs1
  | split => exact splitRun_partOf
  | join => exact joinRun_partOf
  | _ => exact Work.Made.start.partOf_ok ()

/-! ### What a command leaves of DMEM and of the entropy bytes -/

/-- The outcomes of a command that works neither on DMEM nor on the entropy port: DMEM and the bytes stay. -/
def KeepsMemory (s : State) (o : Host.Outcome State Fault Refusal) : Prop :=
  ∀ t, o = .next t → t.dmem = s.dmem ∧ t.entropy = s.entropy

theorem keepsMemory_next (hmem : t.dmem = s.dmem) (hent : t.entropy = s.entropy) : KeepsMemory s (.next t) := by
  rintro _ ⟨⟩; exact ⟨hmem, hent⟩

theorem writeResult_keepsMemory (rd : RegNum) (v : Byte) (s : State) : KeepsMemory s (writeResult rd v s) :=
  keepsMemory_next rfl rfl

theorem raised_keepsMemory (e : CmdError) (s : State) : KeepsMemory s (raised e s) := keepsMemory_next rfl rfl

theorem execSetcfg_keepsMemory (cfg : BitVec 4) (imm20 : Addr) (s : State) :
    KeepsMemory s (execSetcfg cfg imm20 s) := by
  unfold execSetcfg
  split_ifs
  · exact keepsMemory_next rfl rfl
  · exact raised_keepsMemory _ s

theorem execGflb_keepsMemory (rd : RegNum) (addr20 : Addr) (s : State) : KeepsMemory s (execGflb rd addr20 s) := by
  unfold execGflb
  split_ifs
  · exact raised_keepsMemory _ s
  · exact writeResult_keepsMemory rd _ s

theorem execGfinv_keepsMemory (rd rs1 : RegNum) (s : State) : KeepsMemory s (execGfinv rd rs1 s) := by
  unfold execGfinv
  split
  next => exact raised_keepsMemory _ s
  next => exact writeResult_keepsMemory rd _ s

theorem execGfdiv_keepsMemory (rd rs1 rs2 : RegNum) (s : State) : KeepsMemory s (execGfdiv rd rs1 rs2 s) := by
  unfold execGfdiv
  split
  next => exact raised_keepsMemory _ s
  next => exact writeResult_keepsMemory rd _ s

theorem execPeval_keepsMemory (rd rs1 : RegNum) (s : State) : KeepsMemory s (execPeval rd rs1 s) := by
  unfold execPeval
  split
  next => exact raised_keepsMemory _ s
  next => exact writeResult_keepsMemory rd _ s

theorem execLagr0_keepsMemory (rd : RegNum) (s : State) : KeepsMemory s (execLagr0 rd s) := by
  unfold execLagr0
  split
  next => exact raised_keepsMemory _ s
  next =>
    simp only
    split
    next => exact raised_keepsMemory _ s
    next => exact writeResult_keepsMemory rd _ s

/-- `t` keeps DMEM and the entropy bytes of `s`, or holds those of the work `r` that came to an end. -/
def LeavesWork (s : State) (r : Work × Except Stop Unit) (t : State) : Prop :=
  (t.dmem = s.dmem ∧ t.entropy = s.entropy) ∨
  (r.2 ≠ .error .waitEntropy ∧ t.dmem = r.1.dmem ∧ t.entropy = r.1.entropy)

theorem finish_leavesWork {r : Work × Except Stop Unit} (h : finish s r = .next t) : LeavesWork s r t := by
  rcases finish_cases s r with ⟨hr, hf⟩ | ⟨e, hr, hf⟩ | ⟨-, hf⟩ <;> cases hf.symm.trans h
  · exact .inr ⟨by rw [hr]; nofun, rfl, rfl⟩
  · exact .inr ⟨by rw [hr]; nofun, rfl, rfl⟩
  · exact .inl ⟨rfl, rfl⟩

theorem exec_leavesWork (h : exec i s = .next t) : LeavesWork s (workOf i s) t := by
  cases i with
  | halt => cases h; exact .inl ⟨rfl, rfl⟩
  | nop => cases h; exact .inl ⟨rfl, rfl⟩
  | gfadd rd rs1 rs2 => exact .inl (writeResult_keepsMemory rd _ s t h)
  | gfmul rd rs1 rs2 => exact .inl (writeResult_keepsMemory rd _ s t h)
  | gfinv rd rs1 => exact .inl (execGfinv_keepsMemory rd rs1 s t h)
  | gfdiv rd rs1 rs2 => exact .inl (execGfdiv_keepsMemory rd rs1 rs2 s t h)
  | gfli rd imm8 => exact .inl (writeResult_keepsMemory rd _ s t h)
  | gfmov rd rs1 => exact .inl (writeResult_keepsMemory rd _ s t h)
  | gflb rd addr20 => exact .inl (execGflb_keepsMemory rd addr20 s t h)
  | gfsb rs addr20 => exact finish_leavesWork h
  | setcfg cfg imm20 => exact .inl (execSetcfg_keepsMemory cfg imm20 s t h)
  | prand rs1 => exact finish_leavesWork h
  | peval rd rs1 => exact .inl (execPeval_keepsMemory rd rs1 s t h)
  | lagr0 rd => exact .inl (execLagr0_keepsMemory rd s t h)
  | split => exact finish_leavesWork h
  | join => exact finish_leavesWork h

/-! ### Every command answers a next state (R409, R456, R463) -/

theorem exec_powerUp (h : exec i s = .next t) : t.dmem.powerUp = s.dmem.powerUp := by
  rcases exec_leavesWork h with ⟨hmem, -⟩ | ⟨-, hmem, -⟩
  · rw [hmem]
  · rw [hmem, (workOf_partOf i s).made.powerUp]

theorem ends_next {o : Host.Outcome State Fault Refusal} (h : Ends i s o) :
    ∃ t, o = .next t ∧ t.ie = s.ie ∧ t.params = s.params ∧ t.turns = s.turns ∧ t.hostResp = s.hostResp := by
  cases h with
  | retires hu =>
    exact ⟨_, rfl, (congrArg State.ie hu :), (congrArg State.params hu :), (congrArg State.turns hu :),
      (congrArg State.hostResp hu :)⟩
  | halts _ => exact ⟨_, rfl, rfl, rfl, rfl, rfl⟩
  | raises e _ => exact ⟨_, rfl, rfl, rfl, rfl, rfl⟩
  | stays => exact ⟨_, rfl, rfl, rfl, rfl, rfl⟩

theorem exec_outsideSame (i : Instr) (s : State) : ∃ t, exec i s = .next t ∧ OutsideSame s t := by
  obtain ⟨t, ht, hie, hparams, hturns, hresp⟩ := ends_next (exec_ends i s)
  exact ⟨t, ht, hie, hparams, hturns, hresp, exec_powerUp ht⟩

/-- All that the engine's move can be (R400, R401). -/
theorem engineStep_cases (s : State) :
    (s.phase = .idle ∧ engineStep s = .next s) ∨
    (s.phase = .run ∧ ∃ e, engineStep s = .next (raise e s)) ∨
    (s.phase = .run ∧ ∃ i, fetchDecode s = .ok i ∧ engineStep s = exec i s) := by
  cases hphase : s.phase with
  | idle => exact .inl ⟨rfl, engineStep_of_idle hphase⟩
  | run =>
    rw [engineStep_of_run hphase]
    cases hfetch : fetchDecode s with
    | error e => exact .inr (.inl ⟨rfl, e, cycle_of_error hfetch⟩)
    | ok i => exact .inr (.inr ⟨rfl, i, rfl, cycle_of_ok hfetch⟩)

theorem engineStep_next (s : State) : ∃ t, engineStep s = .next t := by
  rcases engineStep_cases s with ⟨-, h⟩ | ⟨-, e, h⟩ | ⟨-, i, -, h⟩
  · exact ⟨_, h⟩
  · exact ⟨_, h⟩
  · obtain ⟨t, ht, -⟩ := exec_outsideSame i s
    exact ⟨t, h.trans ht⟩

theorem takeTurn_next (turn : Turn) (s : State) : ∃ t, takeTurn turn s = .next t := by
  cases turn with
  | engine => exact engineStep_next s
  | host access cut => exact ⟨_, rfl⟩
  | reset cut => exact ⟨_, rfl⟩
  | entropy b => exact ⟨_, rfl⟩

/-- Settles O44: each command ends in one of four next states, and its work keeps the power-up DMEM is of. -/
theorem commandsNeverStopNorReachControlState : Obligations.CommandsNeverStopNorReachControlState := by
  refine ⟨exec_outsideSame, fun s hl => ?_⟩
  rw [Safe, step, if_pos hl, move]
  split
  next => exact engineStep_next s
  next => exact takeTurn_next _ _

/-! ### The entropy bytes and rng_ready (R411, R413) -/

theorem exec_entropy_suffix (h : exec i s = .next t) : t.entropy <:+ s.entropy := by
  rcases exec_leavesWork h with ⟨-, hent⟩ | ⟨-, -, hent⟩
  · exact hent ▸ List.suffix_rfl
  · exact hent ▸ (workOf_partOf i s).made.entropy_suffix

theorem exec_entropy_eq (h : exec i s = .next t) (hi : ¬TakesEntropy i s) : t.entropy = s.entropy := by
  rcases exec_leavesWork h with ⟨-, hent⟩ | ⟨-, -, hent⟩
  · exact hent
  · exact hent.trans ((workOf_partOf i s).made.entropy_eq hi)

/-- Outside a wait rng_ready says whether a byte is taken in the step (R413). -/
theorem rngReady_of_not_waits (h : (inFlight s).2 ≠ .error .waitEntropy) : rngReady s = (inFlight s).1.tookByte := by
  rw [rngReady]
  split
  next hw => exact absurd hw h
  all_goals rfl

/-- A step that takes bytes is one with a command in flight whose work has taken them. -/
theorem rngReady_of_engineStep_entropy (h : engineStep s = .next t) (hent : t.entropy ≠ s.entropy) :
    rngReady s = true := by
  rcases engineStep_cases s with ⟨-, hs⟩ | ⟨-, e, hs⟩ | ⟨hrun, i, hfetch, hs⟩
  · cases hs.symm.trans h; exact absurd rfl hent
  · cases hs.symm.trans h; exact absurd rfl hent
  · rcases exec_leavesWork (hs.symm.trans h) with ⟨-, hsame⟩ | ⟨hends, -, hwork⟩
    · exact absurd hsame hent
    · have hflight := inFlight_of_ok hrun hfetch
      rw [rngReady_of_not_waits (by rwa [hflight]), hflight]
      exact (workOf_partOf i s).made.entropy_or_tookByte.resolve_left (hwork ▸ hent)

/-- A command is in flight, or the work is the one that has taken nothing. -/
theorem inFlight_cases (s : State) :
    (s.phase = .run ∧ ∃ i, fetchDecode s = .ok i ∧ inFlight s = workOf i s) ∨
    inFlight s = (Work.ofState s, .ok ()) := by
  unfold inFlight
  split
  next i hrun hfetch => exact .inl ⟨hrun, i, hfetch, rfl⟩
  next => exact .inr rfl

theorem inFlight_of_rngReady (h : rngReady s = true) :
    s.phase = .run ∧ ∃ i, fetchDecode s = .ok i ∧ TakesEntropy i s := by
  rcases inFlight_cases s with ⟨hrun, i, hfetch, hflight⟩ | hnone
  · have hpart := workOf_partOf i s
    refine ⟨hrun, i, hfetch, ?_⟩
    by_cases hwaits : (workOf i s).2 = .error .waitEntropy
    · exact hpart.waits hwaits
    · rw [rngReady_of_not_waits (by rwa [hflight]), hflight] at h
      exact hpart.made.takesEntropy_of_tookByte h
  · rw [rngReady_of_not_waits (by rw [hnone]; nofun), hnone] at h
    cases h

/-- Settles O47: the work of PRAND and SPLIT takes from the front, and rng_ready follows the work in flight. -/
theorem entropyBytesAreTakenOnceInOrder : Obligations.EntropyBytesAreTakenOnceInOrder := by
  refine ⟨fun i s t h => ⟨⟨_, List.suffix_iff_eq_drop.1 (exec_entropy_suffix h)⟩, fun hno => exec_entropy_eq h ?_⟩,
    fun s t => rngReady_of_engineStep_entropy, fun s h => ?_⟩
  · rintro ⟨hdraws, hs⟩
    rcases hno with hdmem | ⟨hprand, hsplit⟩
    · cases hdmem.symm.trans hs
    · exact hdraws.elim hsplit fun ⟨rs1, hi⟩ => hprand rs1 hi
  · obtain ⟨hrun, i, hfetch, hdraws, hs⟩ := inFlight_of_rngReady h
    exact ⟨hrun, hs, i, hfetch, hdraws⟩

/-! ### How a run ends (R400, R408, R456, R517) -/

/-- `t` goes on with both status bits clear, or has ended with exactly one set. -/
def RunGoesOnOrEnds (t : State) : Prop :=
  (t.phase = .run ∧ t.done = false ∧ t.errv = false) ∨
  (t.phase = .idle ∧ ((t.done = true ∧ t.errv = false) ∨ (t.done = false ∧ t.errv = true)))

theorem exec_runGoesOnOrEnds (hrun : s.phase = .run) (hdone : s.done = false) (herrv : s.errv = false)
    (h : exec i s = .next t) : RunGoesOnOrEnds t := by
  have hends := exec_ends i s
  rw [h] at hends
  cases hends with
  | retires hu =>
    exact .inl ⟨(congrArg State.phase hu :).trans hrun, (congrArg State.done hu :).trans hdone, hu.errv_eq.trans herrv⟩
  | halts _ => exact .inr ⟨rfl, .inl ⟨rfl, herrv⟩⟩
  | raises e _ => exact .inr ⟨rfl, .inr ⟨hdone, rfl⟩⟩
  | stays => exact .inl ⟨hrun, hdone, herrv⟩

theorem eq_halt_of_sets_done (h : exec i s = .next t) (hclear : s.done = false) (hset : t.done = true) : i = .halt := by
  have hends := exec_ends i s
  rw [h] at hends
  cases hends with
  | retires hu => cases ((congrArg State.done hu :).trans hclear).symm.trans hset
  | halts hi => exact hi
  | raises e _ => cases hclear.symm.trans hset
  | stays => cases hclear.symm.trans hset

/-- Settles O49: a failed fetch raises an error, and a command ends in one of its four ways. -/
theorem runsEndWithDoneOrAnError : Obligations.RunsEndWithDoneOrAnError := by
  refine ⟨fun s t hrun hdone herrv h => ?_, fun i s t => eq_halt_of_sets_done⟩
  rcases engineStep_cases s with ⟨hidle, -⟩ | ⟨-, e, hs⟩ | ⟨-, i, -, hs⟩
  · cases hidle.symm.trans hrun
  · cases hs.symm.trans h; exact .inr ⟨rfl, .inr ⟨hdone, rfl⟩⟩
  · exact exec_runGoesOnOrEnds hrun hdone herrv (hs.symm.trans h)

end Sys2Proof.Machine
end

section
/-! PROOFS. Resets (R58, R74, R510, R511): either reset is one step that abandons the command in flight and then resets
the registers, so DMEM and the entropy port are left as the command's work had them at some moment (93 U4, log
entry 7). -/

namespace Sys2Proof.Machine

variable {s t : State} {w : Work} {P : Work → Prop} {cut : Nat}

/-! ### A work from its start on -/

/-- `P` has held of the work of a command started in `s` at its start and after each access since, up to `w`. -/
inductive Work.Always (P : Work → Prop) (s : State) : Work → Prop
  | start (hp : P (Work.ofState s)) : Always P s (Work.ofState s)
  | write {w : Work} (h : Always P s w) (a : Nat) (b : Byte) (hp : P (w.write a b)) : Always P s (w.write a b)
  | draw {w w1 : Work} {b : Byte} (h : Always P s w) (hd : w.draw = .ok (b, w1)) (hp : P w1) : Always P s w1

theorem Work.Made.always {i : Instr} (h : w.Made i s) : w.Always (Work.Made i s) s := by
  induction h with
  | start => exact .start .start
  | write h a b ih => exact .write ih a b (h.write a b)
  | draw h hi hd ih => exact .draw ih hd (h.draw hi hd)

/-! ### The first of its accesses made again -/

/-- A draw either leaves the log and the entropy port, or logs the byte it takes (R412, R413). -/
theorem Work.draw_log {w1 : Work} {b : Byte} (h : w.draw = .ok (b, w1)) :
    (w1.log = w.log ∧ w1.entropy = w.entropy) ∨ (w1.log = .take :: w.log ∧ w1.entropy = w.entropy.drop 1) := by
  rcases w.draw_cases with ⟨-, -, hd⟩ | ⟨-, -, hd⟩ | ⟨-, -, hd⟩ | ⟨c, rest, -, he, hd⟩ <;> cases hd.symm.trans h
  · exact .inl ⟨rfl, rfl⟩
  · exact .inr ⟨rfl, by rw [he]; rfl⟩

/-- The accesses `l`, made in their order from `s` on, leave the DMEM and the entropy bytes of `w`. -/
def Replays (s : State) (l : List Access) (w : Work) : Prop :=
  l.foldl Access.apply s = { s with dmem := w.dmem, entropy := w.entropy }

/-- Accesses with one more at their end are cut before it, or not at all. -/
theorem Replays.take_concat {l : List Access} {x : Access} (hall : Replays s (l ++ [x]) w) (hw : P w)
    (hbefore : ∃ w', P w' ∧ Replays s (l.take cut) w') : ∃ w', P w' ∧ Replays s ((l ++ [x]).take cut) w' := by
  rcases Nat.lt_or_ge l.length cut with hlt | hge
  · rw [List.take_of_length_le (by simpa using hlt)]
    exact ⟨w, hw, hall⟩
  · rwa [List.take_append_of_le_length hge]

namespace Work.Always

theorem replays (h : w.Always P s) : Replays s w.log.reverse w := by
  induction h with
  | start => rfl
  | write _ a b _ ih =>
    rw [Replays, Work.write, List.reverse_cons, List.foldl_append, ih]; rfl
  | draw _ hd _ ih =>
    have hmem := (Work.draw_frame hd).1
    rcases Work.draw_log hd with ⟨hlog, hent⟩ | ⟨hlog, hent⟩
    · rw [Replays, hlog, ih, hmem, hent]
    · rw [Replays, hlog, List.reverse_cons, List.foldl_append, ih, hmem, hent]; rfl

/-- Wherever the accesses are cut, `P` held there. -/
theorem replays_take (h : w.Always P s) (cut : Nat) : ∃ w', P w' ∧ Replays s (w.log.reverse.take cut) w' := by
  have hwhole := h.replays
  induction h with
  | start hp => exact ⟨_, hp, by rw [List.take_of_length_le (Nat.zero_le _)]; exact hwhole⟩
  | write h a b hp ih =>
    rw [Work.write, List.reverse_cons] at hwhole ⊢
    exact hwhole.take_concat hp (ih h.replays)
  | draw h hd hp ih =>
    rcases Work.draw_log hd with ⟨hlog, -⟩ | ⟨hlog, -⟩
    · rw [hlog]; exact ih h.replays
    · rw [hlog, List.reverse_cons] at hwhole ⊢
      exact hwhole.take_concat hp (ih h.replays)

end Work.Always

/-! ### A reset is one step -/

/-- Accesses know neither CTRL.IE nor the turns to come. -/
theorem foldl_apply_update (l : List Access) (s : State) (ie : Bool) (turns : List Turn) :
    l.foldl Access.apply { s with ie := ie, turns := turns } =
      { l.foldl Access.apply s with ie := ie, turns := turns } := by
  induction l generalizing s with
  | nil => rfl
  | cons x rest ih =>
    cases x with
    | write a b => exact ih (Access.apply s (.write a b))
    | take => exact ih (Access.apply s .take)

/-- A reset by the pin, or by CTRL.SRST whatever the other CTRL bits, is the next turn and `rest` come after it. -/
def ResetTurn (s : State) (cut : Nat) (rest : List Turn) : Prop :=
  s.turns = .reset cut :: rest ∨
    ∃ data : Word, s.turns = .host (.write 0x008 .w4 data) cut :: rest ∧ data.getLsbD 31 = true

theorem resetUnit_update (cut : Nat) (s : State) (ie : Bool) (turns : List Turn) :
    resetUnit cut { s with ie := ie, turns := turns } = resetRegisters { abandon cut s with turns := turns } := by
  have hflight : inFlight { s with ie := ie, turns := turns } = inFlight s := rfl
  rw [resetUnit, abandon, hflight, foldl_apply_update]; rfl

theorem step_resetTurn {rest : List Turn} (hl : s.params.Legal) (hturn : ResetTurn s cut rest) (h : step s = .next t) :
    ∃ resp, t = resetRegisters { abandon cut s with turns := rest, hostResp := resp } := by
  obtain ht | ⟨data, ht, hsrst⟩ := hturn
  · rw [step, if_pos hl, move, ht] at h
    cases h
    exact ⟨_, resetUnit_update cut s s.ie rest⟩
  · have hw : hostWrite { s with turns := rest } 0x008 .w4 data cut =
        (okResp 0, resetRegisters { abandon cut s with turns := rest }) := by
      rw [← resetUnit_update cut s (data.getLsbD 1) rest]
      exact congrArg (Prod.mk _) (if_pos hsrst)
    cases (step_hostWrite hl ht hw).symm.trans h
    exact ⟨_, rfl⟩

/-- After a reset DMEM and the entropy port are as the work in flight had them at some moment; the registers hold their
reset values. -/
theorem step_reset {rest : List Turn} (hl : s.params.Legal) (hturn : ResetTurn s cut rest) (h : step s = .next t)
    (hp : (inFlight s).1.Always P s) :
    ∃ w resp, P w ∧ t = resetRegisters { commit s w with turns := rest, hostResp := resp } := by
  obtain ⟨resp, rfl⟩ := step_resetTurn hl hturn h
  obtain ⟨w, hw, hcut⟩ := hp.replays_take cut
  refine ⟨w, resp, hw, ?_⟩
  rw [abandon, hcut]; rfl

/-- What a reset leaves of DMEM and of the entropy port (R510, R511). -/
theorem reset_leaves_work (hl : s.params.Legal) (hnext : ResetNext s cut) (h : step s = .next t)
    (hp : (inFlight s).1.Always P s) : ∃ w, P w ∧ t.dmem = w.dmem ∧ t.entropy = w.entropy := by
  obtain ⟨rest, hturn⟩ := hnext
  obtain ⟨w, resp, hw, rfl⟩ := step_reset hl hturn h hp
  exact ⟨w, hw, rfl, rfl⟩

/-- A work that is still the start leaves DMEM and the entropy port as they were. -/
theorem reset_unchanged (hl : s.params.Legal) (hnext : ResetNext s cut) (h : step s = .next t)
    (hstart : (inFlight s).1 = Work.ofState s) : MemSame s t ∧ t.entropy = s.entropy := by
  obtain ⟨w, rfl, hmem, hent⟩ := reset_leaves_work (P := (· = Work.ofState s)) hl hnext h (by
    rw [hstart]; exact .start rfl)
  exact ⟨fun a => by rw [hmem]; rfl, hent⟩

/-! ### The registers after a reset -/

/-- An idle unit has no command in flight, and its work is the start. -/
theorem inFlight_of_idle (hidle : s.phase = .idle) : inFlight s = (Work.ofState s, .ok ()) := by
  rw [inFlight, hidle]

/-- Whatever is in flight, its work is one a command makes. -/
theorem inFlight_made (s : State) : ∃ i, (inFlight s).1.Made i s := by
  rcases inFlight_cases s with ⟨-, i, -, hflight⟩ | hnone
  · exact ⟨i, hflight ▸ (workOf_partOf i s).made⟩
  · exact ⟨.nop, hnone ▸ .start⟩

theorem readF_resetRegisters (s : State) (r : RegNum) : (resetRegisters s).readF r = 0 :=
  Vector.getElem_replicate _

theorem readCfg_resetRegisters (s : State) (c : CfgReg) : (resetRegisters s).readCfg c = 0 := by
  have hzero : (resetRegisters s).cfg[c.val] = 0 := Vector.getElem_replicate _
  rw [State.readCfg, hzero, cfgKept]
  split <;> rfl

theorem statusWord_resetRegisters (s : State) : (resetRegisters s).statusWord = 0 := by
  have hreset : State.reset.statusWord = 0 := by decide
  exact hreset

/-- Settles O50: the registers are those `resetRegisters` writes, whatever work the reset cuts. -/
theorem resetsPutRegistersAtResetValues : Obligations.ResetsPutRegistersAtResetValues := by
  intro s t cut data rest hl hturn h
  have hreset : ResetTurn s cut rest := hturn.imp_right fun hsrst => ⟨data, hsrst⟩
  obtain ⟨i, hmade⟩ := inFlight_made s
  obtain ⟨w, resp, hw, rfl⟩ := step_reset hl hreset h hmade.always
  exact ⟨readF_resetRegisters _, readCfg_resetRegisters _, rfl, rfl, rfl, statusWord_resetRegisters _, rfl, rfl, rfl,
    rfl, rfl, rfl, hw.powerUp, fun hidle => reset_unchanged hl ⟨rest, hreset⟩ h (by rw [inFlight_of_idle hidle])⟩

end Sys2Proof.Machine
end

section
/-! PROOFS. A PRAND that a reset abandons (R305, R510, R511): at every moment of its work the polynomial's first
coefficients stand, and the bytes drawn are those for them, or one more. -/

namespace Sys2Proof.Machine

variable {s t : State} {rs1 : RegNum} {n d k : Nat} {w : Work}

/-- `t` holds the first `n` coefficients of a PRAND started in `s`, and no other write. -/
structure PrandWritten (s : State) (rs1 : RegNum) (n : Nat) (t : State) : Prop where
  bytes : ∀ i < n, t.dmem.read (s.cfgNat CfgReg.polyBase + i) = s.prandByte t rs1 i
  outside : MemSameOutside (s.cfgNat CfgReg.polyBase) n s t

theorem PrandWritten.of_dmem {t' : State} (h : PrandWritten s rs1 n t) (hmem : t'.dmem = t.dmem) :
    PrandWritten s rs1 n t' where
  bytes i hi := by
    rw [hmem, h.bytes i hi]
    exact (prandByte_congr fun a _ => by rw [hmem]).symm
  outside a ha := by rw [hmem, h.outside a ha]

/-- At some moment of a PRAND started in `s` its work is `w`: as many bytes are drawn as the coefficients written need,
or one more. -/
def PrandMoment (s : State) (rs1 : RegNum) (w : Work) : Prop :=
  ∃ n ≤ s.cfgNat CfgReg.polyLen, PrandWritten s rs1 n (commit s w) ∧ (w.Drawn s (n - 1) ∨ w.Drawn s n)

theorem prandMoment_start : PrandMoment s rs1 (Work.ofState s) :=
  ⟨0, Nat.zero_le _, ⟨nofun, fun _ _ => rfl⟩, .inl Work.drawn_ofState⟩

namespace PrandDrawn

variable (h : PrandDrawn s rs1 k w)
include h

theorem drawn : w.Drawn s k := ⟨h.size, h.source, h.rngPtr, h.entropy, h.powerUp⟩

theorem written : PrandWritten s rs1 (k + 1) (commit s w) := ⟨fun i hi => h.bytes i (Nat.le_of_lt_succ hi), h.outside⟩

/-- Coefficient `k` has just been written. -/
theorem moment (hk : k + 1 ≤ s.cfgNat CfgReg.polyLen) : PrandMoment s rs1 w := ⟨k + 1, hk, h.written, .inl h.drawn⟩

/-- The byte for the next coefficient has just been drawn. -/
theorem moment_of_draw {w1 : Work} {b : Byte} (hdraw : w.draw = .ok (b, w1)) (hk : k + 1 ≤ s.cfgNat CfgReg.polyLen) :
    PrandMoment s rs1 w1 :=
  ⟨k + 1, hk, h.written.of_dmem (Work.draw_frame hdraw).1, .inr (h.drawn.of_draw hdraw)⟩

/-- PRAND's loop makes moments of PRAND, and stops at one. -/
theorem always_drawInto (hw : w.Always (PrandMoment s rs1) s) (hk : k + 1 + n ≤ s.cfgNat CfgReg.polyLen) :
    (drawInto n w (s.cfgNat CfgReg.polyBase + (k + 1))).1.Always (PrandMoment s rs1) s := by
  induction n generalizing k w with
  | zero => exact hw
  | succ n ih =>
    by_cases hcan : s.CanDraw k
    · obtain ⟨w1, hdraw, hptr, hentropy⟩ := h.draw hcan
      have hnext := h.next hdraw hptr hentropy
      rw [drawInto, hdraw]
      exact ih hnext ((hw.draw hdraw (h.moment_of_draw hdraw (by omega))).write _ _ (hnext.moment (by omega)))
        (by omega)
    · rw [drawInto_stop (h.drawn.draw_stops hcan)]
      exact hw

end PrandDrawn

theorem prandRun_of_ready (h : PolyReady s) : prandRun rs1 s =
    drawInto (s.cfgNat CfgReg.polyLen - 1) (prandStart rs1 s) (s.cfgNat CfgReg.polyBase + 1) := by
  simp only [prandRun, polyChecks_of_ready h, prandStart]

theorem prandRun_always (h : PolyReady s) : (prandRun rs1 s).1.Always (PrandMoment s rs1) s := by
  have hlo : 1 ≤ s.cfgNat CfgReg.polyLen := h.1
  have hconstant : (prandStart rs1 s).Always (PrandMoment s rs1) s :=
    (Work.Always.start prandMoment_start).write _ _ (prandDrawn_start.moment hlo)
  rw [prandRun_of_ready h]
  exact prandDrawn_start.always_drawInto hconstant (by omega)

/-- Settles O51: the moment at which the reset cuts PRAND's work. -/
theorem resetCutsPrandAtAPrefixOfItsWrites : Obligations.ResetCutsPrandAtAPrefixOfItsWrites := by
  intro s t cut rs1 hl hnext hrun hfetch hready h
  have halways : (inFlight s).1.Always (PrandMoment s rs1) s := by
    rw [inFlight_of_ok hrun hfetch]; exact prandRun_always hready
  obtain ⟨w, ⟨n, hn, hwritten, hdrawn⟩, hmem, hent⟩ := reset_leaves_work hl hnext h halways
  obtain ⟨hbytes, houtside⟩ := hwritten.of_dmem hmem
  refine ⟨n, hn, hbytes, houtside, fun hs => ?_, fun hs => ?_⟩
  · rw [hent]
    exact hdrawn.elim (fun hd => hd.entropy.trans (if_pos hs)) fun hd => hd.entropy.trans (if_pos hs)
  · have hport {d : Nat} (hd : w.Drawn s d) : t.entropy = s.entropy.drop d := by rw [hent, hd.entropy, hs]; rfl
    exact hdrawn.imp hport hport

end Sys2Proof.Machine
end

section
/-! PROOFS. A SPLIT that a reset abandons (R353, R510, R511): its writes are numbered in pseudocode order, column by
column of the share set, and at every moment of its work the first of them stand. -/

namespace Sys2Proof.Machine

variable {s t t' : State} {m p q o i j n d : Nat} {w w' : Work} {P : Work → Prop}

/-! ### The order of SPLIT's writes (R353) -/

/-- Write number `q` goes to share `q` mod N, into column `q` div N. -/
theorem splitWriteAddr_eq (hn : 0 < s.cfgNat CfgReg.shareN) (q : Nat) :
    s.splitWriteAddr q = s.shareAddr (q % s.cfgNat CfgReg.shareN) (q / s.cfgNat CfgReg.shareN) := by
  rcases Nat.lt_or_ge q (s.cfgNat CfgReg.shareN) with hlt | hge
  · rw [Nat.mod_eq_of_lt hlt, Nat.div_eq_of_lt hlt, ← xaddr_eq]
    exact if_pos hlt
  · obtain ⟨r, rfl⟩ := Nat.exists_eq_add_of_le' hge
    rw [Nat.add_mod_right, Nat.add_div_right _ hn, ← yaddr_eq, State.splitWriteAddr, if_neg (by omega)]
    simp only [Nat.add_sub_cancel]

/-- The byte of write number `q` depends on what stands in the columns before its own. -/
theorem splitWriteByte_congr (hn : 0 < s.cfgNat CfgReg.shareN)
    (h : ∀ o < q / s.cfgNat CfgReg.shareN, ∀ a, s.InColumns o a → t'.dmem.read a = t.dmem.read a) :
    s.splitWriteByte t' m q = s.splitWriteByte t m q := by
  rcases Nat.lt_or_ge q (s.cfgNat CfgReg.shareN) with hlt | hge
  · simp only [State.splitWriteByte, if_pos hlt]
  · obtain ⟨r, rfl⟩ := Nat.exists_eq_add_of_le' hge
    rw [Nat.add_div_right _ hn] at h
    simp only [State.splitWriteByte, if_neg (Nat.not_lt.2 hge), Nat.add_sub_cancel,
      splitPoly_congr (h _ (Nat.lt_succ_self _))]

/-- The x-coordinates are written first. -/
theorem splitWriteByte_x (hi : i < s.cfgNat CfgReg.shareN) (t : State) : s.splitWriteByte t m i = s.splitX m i :=
  if_pos hi

/-- Then, for each secret byte `j`, its y-values. -/
theorem splitWriteByte_y (hi : i < s.cfgNat CfgReg.shareN) (t : State) :
    s.splitWriteByte t m (s.cfgNat CfgReg.shareN * (j + 1) + i) = peval (s.splitPoly t m j) (s.splitX m i) := by
  have hoff : s.cfgNat CfgReg.shareN * (j + 1) + i - s.cfgNat CfgReg.shareN = s.cfgNat CfgReg.shareN * j + i := by
    rw [Nat.mul_succ]; omega
  have hnot : ¬ s.cfgNat CfgReg.shareN * (j + 1) + i < s.cfgNat CfgReg.shareN := by rw [Nat.mul_succ]; omega
  simp only [State.splitWriteByte, if_neg hnot, hoff, Nat.mul_add_div (Nat.zero_lt_of_lt hi), Nat.div_eq_of_lt hi,
    Nat.mul_add_mod, Nat.mod_eq_of_lt hi, Nat.add_zero]

/-- SPLIT makes N·(L + 1) writes. -/
def State.splitWrites (s : State) : Nat := s.cfgNat CfgReg.shareN * (s.cfgNat CfgReg.secretLen + 1)

theorem shareN_pos (hq : q < s.splitWrites) : 0 < s.cfgNat CfgReg.shareN :=
  Nat.pos_of_mul_pos_right (Nat.zero_lt_of_lt hq)

theorem inColumns_splitWriteAddr (hq : q < s.splitWrites) :
    s.InColumns o (s.splitWriteAddr q) ↔ q / s.cfgNat CfgReg.shareN ≤ o := by
  have hn := shareN_pos hq
  rw [splitWriteAddr_eq hn]
  exact inColumns_shareAddr (Nat.mod_lt _ hn) (Nat.le_of_lt_succ (Nat.div_lt_of_lt_mul hq))

/-- No two writes go to one address. -/
theorem splitWriteAddr_ne (hpq : p < q) (hq : q < s.splitWrites) : s.splitWriteAddr p ≠ s.splitWriteAddr q := by
  have hn := shareN_pos hq
  intro heq
  have hcolumn : q / s.cfgNat CfgReg.shareN = p / s.cfgNat CfgReg.shareN := by
    have hle := (inColumns_splitWriteAddr hq).1 (heq ▸ (inColumns_splitWriteAddr (hpq.trans hq)).2 le_rfl)
    exact Nat.le_antisymm hle (Nat.div_le_div_right hpq.le)
  rw [splitWriteAddr_eq hn, splitWriteAddr_eq hn, hcolumn, State.shareAddr, State.shareAddr, Nat.add_right_cancel_iff,
    Nat.add_left_cancel_iff] at heq
  have hshare := Nat.eq_of_mul_eq_mul_right (Nat.succ_pos _) heq
  have hp := Nat.div_add_mod p (s.cfgNat CfgReg.shareN)
  have hq := Nat.div_add_mod q (s.cfgNat CfgReg.shareN)
  rw [hcolumn] at hq
  omega

/-! ### The first `p` writes -/

/-- `t` holds the first `p` writes of a SPLIT started in `s`, its x-coordinates found in `m` draws, and no other
write. -/
structure SplitCut (s : State) (m p : Nat) (t : State) : Prop where
  bytes : ∀ q < p, t.dmem.read (s.splitWriteAddr q) = s.splitWriteByte t m q
  others : ∀ a, (∀ q < p, a ≠ s.splitWriteAddr q) → t.dmem.read a = s.dmem.read a

theorem splitCut_start (hmem : t.dmem = s.dmem) : SplitCut s m 0 t := ⟨nofun, fun _ _ => by rw [hmem]⟩

namespace SplitCut

theorem of_dmem (h : SplitCut s m p t) (hn : 0 < s.cfgNat CfgReg.shareN) (hmem : t'.dmem = t.dmem) :
    SplitCut s m p t' where
  bytes q hq := by
    rw [hmem, h.bytes q hq]
    exact (splitWriteByte_congr hn fun _ _ a _ => by rw [hmem]).symm
  others a ha := by rw [hmem, h.others a ha]

/-- Write number `p` changes no byte that it or an earlier write depends on. -/
theorem next (h : SplitCut s m p (commit s w)) (hp : p < s.splitWrites) :
    SplitCut s m (p + 1) (commit s (w.write (s.splitWriteAddr p) (s.splitWriteByte (commit s w) m p))) where
  bytes q hq := by
    have hle := Nat.le_of_lt_succ hq
    have hsame (b : Byte) : s.splitWriteByte (commit s (w.write (s.splitWriteAddr p) b)) m q =
        s.splitWriteByte (commit s w) m q :=
      splitWriteByte_congr (shareN_pos hp) fun o ho a ha => Dmem.read_write_other _ _ fun heq => by
        have hcolumn := (inColumns_splitWriteAddr hp).1 (heq ▸ ha)
        have hmono : q / s.cfgNat CfgReg.shareN ≤ p / s.cfgNat CfgReg.shareN := Nat.div_le_div_right hle
        omega
    rw [hsame]
    rcases Nat.lt_or_eq_of_le hle with hlt | rfl
    · exact (Dmem.read_write_other _ _ (splitWriteAddr_ne hlt hp)).trans (h.bytes q hlt)
    · exact Dmem.read_write_same ..
  others a ha :=
    (Dmem.read_write_other _ _ (ha p (Nat.lt_succ_self p))).trans (h.others a fun q hq => ha q (Nat.lt_succ_of_lt hq))

/-- When `j` secret bytes are done, DMEM is what SPLIT finds at secret byte `j`. -/
theorem read_eq_splitSees (h : SplitCut s m (s.cfgNat CfgReg.shareN * (j + 1)) t) (hj : j ≤ s.cfgNat CfgReg.secretLen)
    (a : Nat) : t.dmem.read a = s.splitSees t j a := by
  by_cases ha : s.InColumns j a
  · rw [splitSees_of_inColumns ha]
  · rw [splitSees_of_not_inColumns ha]
    refine h.others a fun q hq heq => ha (heq ▸ (inColumns_splitWriteAddr (hq.trans_le ?_)).2 ?_)
    · exact Nat.mul_le_mul_left _ (Nat.succ_le_succ hj)
    · exact Nat.le_of_lt_succ (Nat.div_lt_of_lt_mul hq)

end SplitCut

/-! ### Draws and writes, moment by moment -/

theorem Work.Always.holds (h : w.Always P s) : P w := by
  cases h with
  | start hp => exact hp
  | write _ _ _ hp => exact hp
  | draw _ _ hp => exact hp

/-- What holds of a work holds after a draw too. -/
def KeptByDraws (P : Work → Prop) : Prop := ∀ w w1 b, w.draw = .ok (b, w1) → P w → P w1

namespace Work.Always

variable (hk : KeptByDraws P) (h : w.Always P s)
include hk h

theorem next_draw {w1 : Work} {b : Byte} (hd : w.draw = .ok (b, w1)) : w1.Always P s := h.draw hd (hk _ _ _ hd h.holds)

theorem drawMany (n : Nat) : (w.drawMany n).1.Always P s := by
  induction n generalizing w with
  | zero => exact h
  | succ n ih =>
    rw [Work.drawMany]
    cases hd : w.draw with
    | error e => exact h
    | ok b =>
      have hrest := ih (h.next_draw hk hd)
      cases hm : b.2.drawMany n with
      | mk w2 r =>
        rw [hm] at hrest
        simp only [hm]
        cases r with
        | error e => exact hrest
        | ok bs => exact hrest

theorem drawDistinct (fuel need : Nat) (xs : List Byte) : (drawDistinct fuel w need xs).1.Always P s := by
  induction fuel generalizing w need xs with
  | zero => cases need <;> exact h
  | succ fuel ih =>
    cases need with
    | zero => exact h
    | succ need =>
      rw [Machine.drawDistinct]
      cases hd : w.draw with
      | error e => exact h
      | ok b =>
        simp only
        split_ifs
        · exact ih (h.next_draw hk hd) _ _
        · exact ih (h.next_draw hk hd) _ _

theorem genX (s' : State) : (genX s' w).1.Always P s := by
  unfold Machine.genX
  simp only
  split_ifs
  · exact h
  · split <;> exact h
  · exact h.drawDistinct hk _ _ _

end Work.Always

/-- One more byte in a run of strided writes. -/
theorem Work.writeStrided_concat (w : Work) (base stride : Nat) (bs : List Byte) (b : Byte) :
    w.writeStrided base stride (bs ++ [b]) = (w.writeStrided base stride bs).write (base + bs.length * stride) b := by
  induction bs generalizing w base with
  | nil => simp [Work.writeStrided]
  | cons c rest ih =>
    simp only [List.cons_append, Work.writeStrided, ih, List.length_cons, Nat.succ_mul]
    congr 1; omega

/-- At some moment of a SPLIT started in `s` its work is `w`. -/
def SplitMoment (s : State) (m : Nat) (w : Work) : Prop := ∃ p ≤ s.splitWrites, SplitCut s m p (commit s w)

theorem splitMoment_keptByDraws (hn : 0 < s.cfgNat CfgReg.shareN) : KeptByDraws (SplitMoment s m) :=
  fun _ _ _ hd ⟨p, hp, hcut⟩ => ⟨p, hp, hcut.of_dmem hn (Work.draw_frame hd).1⟩

/-- `w` after `f 0` to `f (i - 1)` have gone into column `o` of the first `i` shares. -/
def Work.writeShares (w : Work) (s : State) (o : Nat) (f : Nat → Byte) (i : Nat) : Work :=
  w.writeStrided (s.cfgNat CfgReg.shareBase + o) s.shareStride ((List.range i).map f)

/-- The next share's byte is the next of SPLIT's writes. -/
theorem writeShares_succ (f : Nat → Byte) (hi : i < s.cfgNat CfgReg.shareN) : w.writeShares s o f (i + 1) =
    (w.writeShares s o f i).write (s.splitWriteAddr (s.cfgNat CfgReg.shareN * o + i)) (f i) := by
  have hn := Nat.zero_lt_of_lt hi
  have haddr : s.splitWriteAddr (s.cfgNat CfgReg.shareN * o + i) =
      s.cfgNat CfgReg.shareBase + o + i * s.shareStride := by
    rw [splitWriteAddr_eq hn, Nat.mul_add_mod, Nat.mul_add_div hn, Nat.mod_eq_of_lt hi, Nat.div_eq_of_lt hi]
    exact Nat.add_right_comm ..
  simp only [Work.writeShares, List.range_succ, List.map_append, List.map_singleton, Work.writeStrided_concat,
    List.length_map, List.length_range, haddr]

/-- The columns before `o` are left alone. -/
theorem read_writeShares_of_inColumns {a : Nat} (f : Nat → Byte) (hi : i ≤ s.cfgNat CfgReg.shareN)
    (ho : o ≤ s.cfgNat CfgReg.secretLen) (hp : p < o) (ha : s.InColumns p a) :
    (w.writeShares s o f i).dmem.read a = w.dmem.read a := by
  refine Work.writeStrided_other _ _ _ _ _ fun k hk heq => ?_
  simp only [List.length_map, List.length_range] at hk
  have hle := (inColumns_shareAddr (hk.trans_le hi) ho).1 (heq.trans (Nat.add_right_comm ..) ▸ ha)
  omega

/-- SPLIT's writes into column `o`, made where the columns before it are complete. -/
theorem always_writeShares {f : Nat → Byte} (hw : w.Always (SplitMoment s m) s) (ho : o ≤ s.cfgNat CfgReg.secretLen)
    (h : SplitCut s m (s.cfgNat CfgReg.shareN * o) (commit s w))
    (hf : ∀ i < s.cfgNat CfgReg.shareN, f i = s.splitWriteByte (commit s w) m (s.cfgNat CfgReg.shareN * o + i))
    (hi : i ≤ s.cfgNat CfgReg.shareN) :
    (w.writeShares s o f i).Always (SplitMoment s m) s ∧
      SplitCut s m (s.cfgNat CfgReg.shareN * o + i) (commit s (w.writeShares s o f i)) := by
  induction i with
  | zero => exact ⟨hw, h⟩
  | succ i ih =>
    obtain ⟨halways, hcut⟩ := ih (Nat.le_of_succ_le hi)
    have hn := Nat.zero_lt_of_lt hi
    have hnext : s.cfgNat CfgReg.shareN * o + i < s.splitWrites := by
      have hle : s.cfgNat CfgReg.shareN * (o + 1) ≤ s.splitWrites := Nat.mul_le_mul_left _ (Nat.succ_le_succ ho)
      rw [Nat.mul_succ] at hle; omega
    have hcolumn : (s.cfgNat CfgReg.shareN * o + i) / s.cfgNat CfgReg.shareN = o := by
      rw [Nat.mul_add_div hn, Nat.div_eq_of_lt hi, Nat.add_zero]
    have hbyte : f i = s.splitWriteByte (commit s (w.writeShares s o f i)) m (s.cfgNat CfgReg.shareN * o + i) :=
      (hf i hi).trans (splitWriteByte_congr hn fun p hp a ha =>
        read_writeShares_of_inColumns f (Nat.le_of_succ_le hi) ho (hcolumn ▸ hp) ha).symm
    rw [writeShares_succ f hi, hbyte]
    exact ⟨halways.write _ _ ⟨_, hnext, hcut.next hnext⟩, hcut.next hnext⟩

/-- Column `o` complete. -/
theorem always_writeColumn {f : Nat → Byte} (hw : w.Always (SplitMoment s m) s) (ho : o ≤ s.cfgNat CfgReg.secretLen)
    (h : SplitCut s m (s.cfgNat CfgReg.shareN * o) (commit s w))
    (hf : ∀ i < s.cfgNat CfgReg.shareN, f i = s.splitWriteByte (commit s w) m (s.cfgNat CfgReg.shareN * o + i)) :
    (w.writeColumn s o f).Always (SplitMoment s m) s ∧
      SplitCut s m (s.cfgNat CfgReg.shareN * (o + 1)) (commit s (w.writeColumn s o f)) :=
  always_writeShares hw ho h hf le_rfl

/-! ### The loop over the secret bytes -/

/-- Draws that have all come found their bytes in the stream. -/
theorem Work.Drawn.drawMany_ok {w1 : Work} {bs : List Byte} (h : w.Drawn s d) (hm : w.drawMany n = (w1, .ok bs)) :
    bs = (List.range n).map (fun e => s.streamByte w.dmem (d + e)) ∧ w1.dmem = w.dmem ∧ w1.Drawn s (d + n) := by
  classical
  by_cases hcan : ∀ e < n, s.CanDraw (d + e)
  · obtain ⟨w2, hm2, hmem, hdrawn⟩ := h.drawMany n hcan
    cases hm2.symm.trans hm
    exact ⟨rfl, hmem, hdrawn⟩
  · have hstop : ∃ e, e < n ∧ ¬s.CanDraw (d + e) := by push Not at hcan; exact hcan
    obtain ⟨he, hfirst⟩ := Nat.find_spec hstop
    obtain ⟨w2, hm2, -⟩ := h.drawMany_stops he
      (fun r hr => by_contra fun hne => Nat.find_min hstop hr ⟨hr.trans he, hne⟩) hfirst
    cases hm2.symm.trans hm

/-- One turn of the loop once its draws have come. -/
theorem splitLoop_of_drawMany {x : Nat → Byte} {w1 : Work} {cs : List Byte}
    (hm : w.drawMany (s.cfgNat CfgReg.shareK - 1) = (w1, .ok cs)) (n : Nat) :
    s.splitLoop x (n + 1) j w = s.splitLoop x n (j + 1) (w1.writeColumn s (j + 1) fun i =>
      peval (w.dmem.read (s.cfgNat CfgReg.secretBase + j) :: cs) (x i)) := by
  rw [State.splitLoop, splitBytes, hm, Nat.add_right_comm _ 1 j, Nat.add_assoc _ j 1]
  simp only [List.map_map]
  rfl

/-- SPLIT's loop makes moments of SPLIT, and stops at one. -/
theorem always_splitLoop (hn : 0 < s.cfgNat CfgReg.shareN) (hw : w.Always (SplitMoment s m) s)
    (h : SplitCut s m (s.cfgNat CfgReg.shareN * (j + 1)) (commit s w))
    (hdrawn : w.Drawn s (m + j * (s.cfgNat CfgReg.shareK - 1))) (hj : j + n = s.cfgNat CfgReg.secretLen) :
    (s.splitLoop (s.splitX m) n j w).1.Always (SplitMoment s m) s := by
  induction n generalizing j w with
  | zero => exact hw
  | succ n ih =>
    have hdraws := hw.drawMany (splitMoment_keptByDraws hn) (s.cfgNat CfgReg.shareK - 1)
    cases hm : w.drawMany (s.cfgNat CfgReg.shareK - 1) with
    | mk w1 r =>
      rw [hm] at hdraws
      cases r with
      | error e => rw [State.splitLoop, splitBytes, hm]; exact hdraws
      | ok cs =>
        obtain ⟨hcs, hmem, hdrawn1⟩ := hdrawn.drawMany_ok hm
        have h1 : SplitCut s m (s.cfgNat CfgReg.shareN * (j + 1)) (commit s w1) := h.of_dmem hn hmem
        have hsees (a : Nat) : w.dmem.read a = s.splitSees (commit s w1) j a :=
          hmem ▸ h1.read_eq_splitSees (by omega) a
        have hpoly : w.dmem.read (s.cfgNat CfgReg.secretBase + j) :: cs = s.splitPoly (commit s w1) m j := by
          simp only [hcs, State.splitPoly, State.streamByte, hsees, Nat.add_assoc]
        obtain ⟨halways, hcut⟩ := always_writeColumn hdraws (by omega) h1
          (f := fun i => peval (s.splitPoly (commit s w1) m j) (s.splitX m i))
          fun i hi => (splitWriteByte_y hi _).symm
        rw [splitLoop_of_drawMany hm, hpoly]
        refine ih halways hcut ?_ (by omega)
        rw [Nat.succ_mul, ← Nat.add_assoc]
        exact hdrawn1.writeStrided _ _ _

/-! ### gen_x (R352) -/

/-- XMODE 2's loop ends with the x-coordinates of the fewest draws that hold enough. -/
theorem drawDistinct_xsFound {fuel : Nat} {ys : List Byte} (h : w.Drawn s d) (hmem : w.dmem = s.dmem)
    (hle : (s.xsFound d).length ≤ s.cfgNat CfgReg.shareN)
    (hmore : ∀ r < d, (s.xsFound r).length < s.cfgNat CfgReg.shareN)
    (hrun : drawDistinct fuel w (s.cfgNat CfgReg.shareN - (s.xsFound d).length) (s.xsFound d) = (w', .ok ys)) :
    ∃ m, w'.Drawn s m ∧ ys = s.xsFound m ∧ (s.xsFound m).length = s.cfgNat CfgReg.shareN ∧
      ∀ r < m, (s.xsFound r).length < s.cfgNat CfgReg.shareN := by
  induction fuel generalizing w d with
  | zero =>
    rcases hle.eq_or_lt with hend | hlt
    · rw [hend, Nat.sub_self] at hrun
      cases hrun
      exact ⟨d, h, rfl, hend, hmore⟩
    · obtain ⟨need, hneed⟩ := Nat.exists_eq_add_of_lt (Nat.sub_pos_of_lt hlt)
      rw [hneed] at hrun
      cases hrun
  | succ fuel ih =>
    rcases hle.eq_or_lt with hend | hlt
    · rw [hend, Nat.sub_self] at hrun
      cases hrun
      exact ⟨d, h, rfl, hend, hmore⟩
    · by_cases hcan : s.CanDraw d
      · obtain ⟨w1, h1, hmem1, hturn⟩ := drawDistinct_turn h hmem hcan hlt
        refine ih h1 hmem1 ?_ (fun r hr => ?_) (hturn fuel ▸ hrun)
        · rw [xsFound_succ hcan]
          split_ifs
          · exact hle
          · rw [List.length_append]; exact hlt
        · rcases Nat.lt_or_eq_of_le (Nat.le_of_lt_succ hr) with hr | rfl
          · exact hmore r hr
          · exact hlt
      · obtain ⟨need, hneed⟩ := Nat.exists_eq_add_of_lt (Nat.sub_pos_of_lt hlt)
        rw [hneed, drawDistinct, h.draw_stops hcan] at hrun
        cases hrun

/-- The x-coordinates gen_x gives are those found in its draws. -/
theorem genX_xsDrawn {xs : List Byte} (h : SplitReady s) (hrun : genX s (Work.ofState s) = (w, .ok xs)) :
    ∃ m, XsDrawn s m ∧ w.Drawn s m ∧ xs = (List.range (s.cfgNat CfgReg.shareN)).map (s.splitX m) := by
  by_cases h2 : s.xmode = 2
  · rw [genX_of_xmode_two h2] at hrun
    obtain ⟨m, hdrawn, rfl, hend, hmore⟩ := drawDistinct_xsFound Work.drawn_ofState rfl (by simp [xsFound_zero]) nofun
      (by simpa [xsFound_zero] using hrun)
    have hx : s.splitX m = fun i => (s.xsFound m).getD i 0 := funext fun i => by rw [State.splitX, h2]; rfl
    exact ⟨m, .inr ⟨h2, hend, hmore⟩, hdrawn, by rw [hx, map_getD_range hend]⟩
  · have hmode : ∀ x : BitVec 2, x ≠ 3 → x ≠ 2 → x = 0 ∨ x = 1 := by decide
    have hx : XsDrawn s 0 := .inl ⟨hmode _ h.1 h2, rfl⟩
    obtain ⟨w1, hdrawn, -, hgen⟩ := genX_completes h hx nofun
    cases hgen.symm.trans hrun
    exact ⟨0, hx, hdrawn, rfl⟩

/-- gen_x ends after one number of draws. -/
theorem xsDrawn_unique {m' : Nat} (hx : XsDrawn s m) (hx' : XsDrawn s m') : m = m' := by
  have hle {a b : Nat} (ha : XsDrawn s a) (hb : XsDrawn s b) : a ≤ b := by
    rcases ha with ⟨-, rfl⟩ | ⟨h2, -, hmore⟩
    · exact Nat.zero_le _
    · rcases hb with ⟨h01, -⟩ | ⟨-, hend, -⟩
      · rw [h2] at h01; exact absurd h01 (by decide)
      · exact Nat.le_of_not_lt fun hlt => (hmore _ hlt).ne hend
  exact Nat.le_antisymm (hle hx hx') (hle hx' hx)

/-! ### SPLIT's work -/

theorem shareN_pos_of_splitReady (h : SplitReady s) : 0 < s.cfgNat CfgReg.shareN := by
  obtain ⟨-, ⟨hk, hkn, -⟩, -⟩ := h
  exact hk.trans hkn

section Ready

variable (h : SplitReady s)
include h

/-- SPLIT that passes its checks makes its writes in order, as far as its draws go. -/
theorem splitRun_always (hx : XsDrawn s m) : (splitRun s).1.Always (SplitMoment s m) s := by
  have hn := shareN_pos_of_splitReady h
  have hgen := (Work.Always.start ⟨0, Nat.zero_le _, splitCut_start (m := m) rfl⟩).genX (splitMoment_keptByDraws hn) s
  cases hrun : genX s (Work.ofState s) with
  | mk w r =>
    have hmem := genX_frame s (Work.ofState s)
    rw [hrun] at hgen hmem
    cases r with
    | error e => rw [splitRun_of_genX_error h hrun]; exact hgen
    | ok xs =>
      obtain ⟨m', hx', hdrawn, rfl⟩ := genX_xsDrawn h hrun
      obtain rfl := xsDrawn_unique hx hx'
      obtain ⟨halways, hcut⟩ := always_writeColumn (f := s.splitX m) hgen (Nat.zero_le _) (splitCut_start hmem)
        fun i hi => by rw [Nat.mul_zero, Nat.zero_add, splitWriteByte_x hi]
      rw [splitRun_of_genX (splitChecks_of_splitReady h) hrun]
      refine always_splitLoop hn halways hcut ?_ (Nat.zero_add _)
      rw [Nat.zero_mul]
      exact hdrawn.writeStrided _ _ _

/-- SPLIT whose x-coordinates are never found writes nothing. -/
theorem splitRun_always_of_not_xsDrawn (hx : ∀ m, ¬XsDrawn s m) :
    (splitRun s).1.Always (fun w => w.dmem = s.dmem) s := by
  have hgen := (Work.Always.start (P := fun w => w.dmem = s.dmem) rfl).genX
    (fun _ _ _ hd hmem => (Work.draw_frame hd).1.trans hmem) s
  cases hrun : genX s (Work.ofState s) with
  | mk w r =>
    rw [hrun] at hgen
    cases r with
    | error e => rw [splitRun_of_genX_error h hrun]; exact hgen
    | ok xs =>
      obtain ⟨m, hm, -⟩ := genX_xsDrawn h hrun
      exact absurd hm (hx m)

end Ready

/-- SPLIT that does not pass its checks makes no access. -/
theorem splitRun_of_not_ready (h : ¬SplitReady s) : (splitRun s).1 = Work.ofState s := by
  cases hc : splitChecks s with
  | some e => simp only [splitRun, hc]
  | none =>
    obtain ⟨hmode, hshape, hregions, hxs⟩ := splitChecks_eq_none.1 hc
    by_cases h1 : s.xmode = 1
    · cases hpoints : checkPoints true ((List.range (s.cfgNat CfgReg.shareN)).map
        fun i => s.dmem.read (s.cfgNat CfgReg.xsBase + i)) with
      | some e => simp only [splitRun, hc, genX_of_badPoint h1 hpoints]
      | none =>
        obtain ⟨hnonzero, hdistinct⟩ := checkPoints_range_eq_none.1 hpoints
        exact absurd ⟨hmode, hshape, hregions, fun _ => ⟨hxs h1, hnonzero rfl, hdistinct⟩⟩ h
    · exact absurd ⟨hmode, hshape, hregions, fun h1' => absurd h1' h1⟩ h

end Sys2Proof.Machine
end

section
/-! PROOFS. What a reset leaves of a GFSB, SPLIT or JOIN in flight, and of the commands that write no DMEM (R510,
R511). -/

namespace Sys2Proof.Machine

variable {s t : State} {rs1 : RegNum} {n j cut : Nat} {w : Work}

/-! ### JOIN (R357) -/

/-- JOIN passes its checks exactly when it is ready, its x-coordinates aside (R357). -/
theorem joinChecks_eq_none : joinChecks s = none ↔ ShapeReady s ∧ RegionsReady s := by
  refine ⟨fun h => ?_, fun h => joinChecks_of_ready h.1 h.2⟩
  rw [joinChecks, firstError_eq_none, List.forall_mem_append, shapeChecks_eq_none] at h
  simp only [List.forall_mem_cons, shareRegionCheck, secretRegionCheck, checkRegion_eq_none] at h
  obtain ⟨hshape, hshares, hsecret, -⟩ := h
  exact ⟨hshape, hsecret, hshares⟩

/-- The x-coordinates JOIN validates are those of the whole share set (R355). -/
theorem readStrided_xs : (Work.ofState s).dmem.readStrided (s.cfgNat CfgReg.shareBase) s.shareStride
    (s.cfgNat CfgReg.shareN) = s.shareXs (s.cfgNat CfgReg.shareN) := rfl

theorem joinRun_of_ready (h : JoinReady s) :
    joinRun s = (s.joinLoop (s.cfgNat CfgReg.secretLen) 0 (Work.ofState s), .ok ()) := by
  obtain ⟨hshape, hregions, hnonzero, hdistinct⟩ := h
  have ⟨_, hkn, _⟩ := hshape
  have hpass : checkPoints true (s.shareXs (s.cfgNat CfgReg.shareN)) = none :=
    checkPoints_range_eq_none.2 ⟨fun _ => hnonzero, hdistinct⟩
  simp only [joinRun, joinChecks_of_ready hshape hregions, readStrided_xs, hpass, take_shareXs hkn]
  rfl

/-- JOIN that does not pass its checks makes no access. -/
theorem joinRun_of_not_ready (h : ¬JoinReady s) : (joinRun s).1 = Work.ofState s := by
  cases hc : joinChecks s with
  | some e => simp only [joinRun, hc]
  | none =>
    obtain ⟨hshape, hregions⟩ := joinChecks_eq_none.1 hc
    cases hpoints : checkPoints true (s.shareXs (s.cfgNat CfgReg.shareN)) with
    | some e => simp only [joinRun, hc, readStrided_xs, hpoints]
    | none =>
      obtain ⟨hnonzero, hdistinct⟩ := checkPoints_range_eq_none.1 hpoints
      exact absurd ⟨hshape, hregions, hnonzero rfl, hdistinct⟩ h

/-- At some moment of a JOIN started in `s` its work is `w`. -/
def JoinMoment (s : State) (w : Work) : Prop := ∃ j ≤ s.cfgNat CfgReg.secretLen, JoinWritten s j w

theorem JoinWritten.always_loop (h : JoinWritten s j w) (hw : w.Always (JoinMoment s) s)
    (hj : j + n ≤ s.cfgNat CfgReg.secretLen) : (s.joinLoop n j w).Always (JoinMoment s) s := by
  induction n generalizing j w with
  | zero => exact hw
  | succ n ih =>
    rw [h.turn]
    exact ih h.next (hw.write _ _ ⟨j + 1, by omega, h.next⟩) (by omega)

theorem joinRun_always (h : JoinReady s) : (joinRun s).1.Always (JoinMoment s) s := by
  rw [joinRun_of_ready h]
  exact joinWritten_start.always_loop (.start ⟨0, Nat.zero_le _, joinWritten_start⟩) (Nat.zero_add _).le

/-! ### PRAND that does not pass its checks, GFSB, and the commands without DMEM work -/

theorem polyChecks_eq_none : polyChecks s = none ↔ PolyReady s := by
  refine ⟨fun h => ?_, polyChecks_of_ready⟩
  simp only [polyChecks, firstError_eq_none, List.forall_mem_cons, check_eq_none, checkRegion_eq_none,
    Bool.or_eq_false_iff, decide_eq_false_iff_not] at h
  obtain ⟨⟨hlo, hhi⟩, hfit, -⟩ := h
  have hmax : Config.maxPolyLen = 256 := rfl
  exact ⟨by omega, by omega, by omega⟩

theorem prandRun_of_not_ready (h : ¬PolyReady s) : (prandRun rs1 s).1 = Work.ofState s := by
  cases hc : polyChecks s with
  | some e => simp only [prandRun, hc]
  | none => exact absurd (polyChecks_eq_none.1 hc) h

/-- Only GFSB, PRAND, SPLIT and JOIN work on DMEM (R131). -/
theorem workOf_of_no_writes {i : Instr} (hgfsb : ∀ rs addr20, i ≠ .gfsb rs addr20) (hprand : ∀ rs1, i ≠ .prand rs1)
    (hsplit : i ≠ .split) (hjoin : i ≠ .join) (s : State) : (workOf i s).1 = Work.ofState s := by
  cases i with
  | gfsb rs addr20 => exact absurd rfl (hgfsb rs addr20)
  | prand rs1 => exact absurd rfl (hprand rs1)
  | split => exact absurd rfl hsplit
  | join => exact absurd rfl hjoin
  | _ => rfl

/-- At some moment of a GFSB its work is `w`: its byte is written or not. -/
def GfsbMoment (rs : RegNum) (addr20 : Addr) (s : State) (w : Work) : Prop :=
  w = Work.ofState s ∨
    (addr20.toNat < s.params.dmemSize ∧ w = (Work.ofState s).write addr20.toNat (s.readF rs))

theorem gfsbRun_always (rs : RegNum) (addr20 : Addr) (s : State) :
    (gfsbRun rs addr20 s).1.Always (GfsbMoment rs addr20 s) s := by
  have hstart : (Work.ofState s).Always (GfsbMoment rs addr20 s) s := .start (.inl rfl)
  unfold gfsbRun
  simp only
  split_ifs with hbeyond
  · exact hstart
  · exact hstart.write _ _ (.inr ⟨Nat.lt_of_not_le hbeyond, rfl⟩)

/-! ### The obligation -/

theorem inFlight_of_error {e : CmdError} (hrun : s.phase = .run) (hfetch : fetchDecode s = .error e) :
    inFlight s = (Work.ofState s, .ok ()) := by
  rw [inFlight, hrun, hfetch]

section Reset

variable (hl : s.params.Legal) (hnext : ResetNext s cut) (h : step s = .next t) (hrun : s.phase = .run)
include hl hnext h hrun

/-- What a reset leaves of the command in flight. -/
theorem reset_leaves_workOf {i : Instr} {P : Work → Prop} (hfetch : fetchDecode s = .ok i)
    (hp : (workOf i s).1.Always P s) : ∃ w, P w ∧ t.dmem = w.dmem ∧ t.entropy = w.entropy :=
  reset_leaves_work hl hnext h (by rwa [inFlight_of_ok hrun hfetch])

theorem reset_unchanged_of_workOf {i : Instr} (hfetch : fetchDecode s = .ok i)
    (hstart : (workOf i s).1 = Work.ofState s) : MemSame s t ∧ t.entropy = s.entropy :=
  reset_unchanged hl hnext h (by rwa [inFlight_of_ok hrun hfetch])

/-- A reset takes entropy bytes from the front only, and none when the command in flight draws none (R411, R413). -/
theorem reset_entropy {i : Instr} (hfetch : fetchDecode s = .ok i) :
    t.entropy <:+ s.entropy ∧ (¬TakesEntropy i s → t.entropy = s.entropy) := by
  obtain ⟨w, hw, -, hent⟩ := reset_leaves_workOf hl hnext h hrun hfetch (workOf_partOf i s).made.always
  exact ⟨hent ▸ hw.entropy_suffix, fun hno => hent.trans (hw.entropy_eq hno)⟩

theorem reset_cuts_gfsb {rs : RegNum} {addr20 : Addr} (hfetch : fetchDecode s = .ok (.gfsb rs addr20)) :
    (MemSame s t ∧ t.entropy = s.entropy) ∨
      (addr20.toNat < s.params.dmemSize ∧ t.dmem.read addr20.toNat = s.readF rs ∧
        MemSameOutside addr20.toNat 1 s t ∧ t.entropy = s.entropy) := by
  obtain ⟨w, hw, hmem, hent⟩ := reset_leaves_workOf hl hnext h hrun hfetch (gfsbRun_always rs addr20 s)
  rcases hw with rfl | ⟨hinside, rfl⟩
  · exact .inl ⟨fun a => by rw [hmem]; rfl, hent⟩
  · refine .inr ⟨hinside, ?_, fun a ha => ?_, hent⟩
    · rw [hmem]; exact Dmem.read_write_same ..
    · rw [hmem]; exact Dmem.read_write_other _ _ (by omega)

theorem reset_cuts_split {m : Nat} (hfetch : fetchDecode s = .ok .split) (hready : SplitReady s) (hx : XsDrawn s m) :
    ∃ p ≤ s.splitWrites, SplitCut s m p t := by
  obtain ⟨w, ⟨p, hp, hcut⟩, hmem, -⟩ :=
    reset_leaves_workOf hl hnext h hrun hfetch (splitRun_always hready hx)
  exact ⟨p, hp, hcut.of_dmem (shareN_pos_of_splitReady hready) hmem⟩

theorem reset_cuts_join (hfetch : fetchDecode s = .ok .join) (hready : JoinReady s) :
    ∃ p ≤ s.cfgNat CfgReg.secretLen, (∀ j < p, t.dmem.read (s.cfgNat CfgReg.secretBase + j) = s.joinByte t j) ∧
      MemSameOutside (s.cfgNat CfgReg.secretBase) p s t := by
  obtain ⟨w, ⟨p, hp, hwritten⟩, hmem, -⟩ := reset_leaves_workOf hl hnext h hrun hfetch (joinRun_always hready)
  refine ⟨p, hp, fun j hj => ?_, fun a ha => ?_⟩
  · rw [hmem, hwritten.bytes j hj]
    exact joinByte_congr fun a _ => by rw [hmem]; rfl
  · rw [hmem]; exact hwritten.outside a ha

end Reset

/-- Settles O60: command by command, the moment at which the reset cuts its work. -/
theorem resetCutsOtherCommandsAtAPrefixOfTheirWrites : Obligations.ResetCutsOtherCommandsAtAPrefixOfTheirWrites := by
  intro s t cut hl hnext hrun h unchanged n l sb
  have hnowork {i : Instr} := reset_unchanged_of_workOf (i := i) hl hnext h hrun
  refine ⟨fun e hfetch => reset_unchanged hl hnext h (by rw [inFlight_of_error hrun hfetch]),
    fun i hfetch hgfsb hprand hsplit hjoin => hnowork hfetch (workOf_of_no_writes hgfsb hprand hsplit hjoin s),
    fun rs1 hfetch hnot => hnowork hfetch (prandRun_of_not_ready hnot),
    fun rs addr20 => reset_cuts_gfsb hl hnext h hrun,
    fun hfetch => ⟨fun hnot => hnowork hfetch (splitRun_of_not_ready hnot), fun hready hx => ?_,
      fun m hready hx => ?_, ?_, fun hs => ?_⟩,
    fun hfetch => ⟨?_, fun hnot => (hnowork hfetch (joinRun_of_not_ready hnot)).1,
      reset_cuts_join hl hnext h hrun hfetch⟩⟩
  · obtain ⟨w, hw, hmem, -⟩ :=
      reset_leaves_workOf hl hnext h hrun hfetch (splitRun_always_of_not_xsDrawn hready hx)
    exact fun a => by rw [hmem, hw]
  · obtain ⟨p, hp, hbytes, hothers⟩ := reset_cuts_split hl hnext h hrun hfetch hready hx
    exact ⟨p, hp, hbytes, hothers⟩
  · exact ⟨_, List.suffix_iff_eq_drop.1 (reset_entropy hl hnext h hrun hfetch).1⟩
  · exact (reset_entropy hl hnext h hrun hfetch).2 fun ⟨_, hport⟩ => by cases hs.symm.trans hport
  · exact (reset_entropy hl hnext h hrun hfetch).2 fun ⟨hdraws, _⟩ => by simp [Draws] at hdraws

end Sys2Proof.Machine
end
